-- ==== Sys2Proof/Word.lean ====
section
/-! DEFINITION. The word types of CORE (00_scope.md R8): unsigned integers of 8, 16, 32 and 64 bits, whose
arithmetic is modulo 2^width. No signed value exists in CORE (R9). -/

namespace Sys2Proof

/-- A byte, `u8` of 00_scope.md R8. -/
abbrev Byte := BitVec 8

/-- `u16` of 00_scope.md R8. -/
abbrev U16 := BitVec 16

/-- `u32` of 00_scope.md R8. -/
abbrev U32 := BitVec 32

/-- `u64` of 00_scope.md R8. -/
abbrev U64 := BitVec 64

end Sys2Proof
end

