-- ==== Sys2Proof/Machine/Bytes.lean ====
section
/-! DEFINITION. The byte-array primitives of 00_scope.md R8: big-endian reading and writing, zeros, bytewise XOR. -/

namespace Sys2Proof.Machine

/-- `be(a)` of 00_scope.md R8: a byte array read big-endian. -/
def be : List Byte → Nat
  | [] => 0
  | b :: bs => b.toNat * 256 ^ bs.length + be bs

/-- `tobe_n(v)` of 00_scope.md R8: the `n`-byte big-endian array of `v` (its low `8n` bits). -/
def tobe : (n v : Nat) → List Byte
  | 0, _ => []
  | n + 1, v => BitVec.ofNat 8 (v >>> (8 * n)) :: tobe n v

/-- `zeros(n)` of 00_scope.md R8. -/
def zeros (n : Nat) : List Byte := List.replicate n 0

/-- Bytewise `^` of two byte arrays of one length (00_scope.md R8). -/
def xorBytes (a b : List Byte) : List Byte := List.zipWith (· ^^^ ·) a b

/-- The first `n` bytes of an array, 0x00 for a byte past its end. -/
def takePad : (n : Nat) → List Byte → List Byte
  | 0, _ => []
  | n + 1, [] => 0 :: takePad n []
  | n + 1, b :: bs => b :: takePad n bs

/-- `a[i..i+n]` of a payload (00_scope.md R8), a byte past the end reading as 0x00 so that the length is always `n`. A
payload of a well-formed command never runs short (30_encoding.md R84). -/
def slice (a : List Byte) (i n : Nat) : List Byte := takePad n (a.drop i)

/-- A bit in position `k` of a byte, zero elsewhere (00_scope.md R8). -/
def bitAt (k : Nat) (f : Bool) : Byte := if f then 1#8 <<< k else 0

end Sys2Proof.Machine
end

