-- ==== Sys2Proof/Config.lean ====
section
/-! DEFINITION. What an implementation of CORE fixes, and the free values (00_scope.md R6, R13). The replaceable
table `P2_SLOT` stands beside the offset it serves, in Machine/Crypto.lean. -/

namespace Sys2Proof

/-- `NCH` of the state after reset (00_scope.md R6 leaves `1 <= NCH <= 256` open). DESIGN CHOICE, log entry 6: 4, the
value of the spec's own examples. Only `State.reset` uses it: the machine reads the number of channels from its state,
so a statement over every state is a statement over every `NCH`. -/
def Config.nch : Nat := 4

/-- `KEYLEN_MAX`, the longest `keyBytes` the key store holds (00_scope.md R6). -/
def Config.keyLenMax : Nat := 255

/-- `ToneDetect : byte[320] -> u16`, 0 for no tone (00_scope.md R13, 45_tone.md R261). Uninterpreted: nothing can be
proved about its values (log entry 7). -/
opaque Config.toneDetect : List Byte → U16

/-- `ToneCodeword : u16 -> byte[11]` (00_scope.md R13, 45_tone.md R261). Uninterpreted (log entry 7). -/
opaque Config.toneCodeword : U16 → Vector Byte 11

/-- The free value of the vocoder: the byte it answers as the `n`-th byte drawn when the vocoder port of the state
holds none (00_scope.md R13: an answer is "a free input of the command"). Uninterpreted (log entry 5). -/
opaque Config.vocoderByte : Nat → Byte

end Sys2Proof
end

