-- ==== Sys2Proof/Machine/State.lean ====
section
/-! DEFINITION. The state of CORE (10_state.md R20 to R33) as plain data, the reasons a step can stop, and the state
after reset (70_reset_and_hazards.md R311). -/

namespace Sys2Proof.Machine

/-- The status codes of 60_exceptions.md R281, in the order of their codes 0x00 to 0x0A. Codes 0x0B to 0xFF do not
exist. -/
inductive Status where
  | ok
  | unknownKey
  | unsupportedAlgorithm
  | vocoderDecodeError
  | malformedFrame
  | notPrepared
  | badKeyLength
  | badOperand
  | ignored
  | illegalCommand
  | badChannel
deriving DecidableEq, Repr

/-- The two values of `CTX_PHASE` (10_state.md R23): 0 = Phase1 (FDMA), 1 = Phase2 (TDMA). -/
inductive Phase where
  | phase1
  | phase2
deriving DecidableEq, Repr

/-- The two values of `CALLSTATE` (10_state.md R30): 0 = Idle, 1 = Receiving. -/
inductive CallState where
  | idle
  | receiving
deriving DecidableEq, Repr

/-- A record of the key store (10_state.md R22). -/
structure KeyRecord where
  alg      : Byte
  keyBytes : List Byte
deriving DecidableEq, Repr

/-- `KEYS`, a partial map from key id to record (10_state.md R22): entries in strictly rising order of key id. -/
abbrev KeyStore := List (U16 × KeyRecord)

/-- One byte space of 20_memory.md R60 (`KS`, `LDU1` or `LDU2` of a channel): its cells in strictly rising order of
address, none of which holds the byte that an unlisted address reads as. -/
abbrev Memory := List Host.Cell

/-- What an unlisted address of a byte space reads as: the spec's reset content, 0x00 (70_reset_and_hazards.md R311). -/
def Memory.unlisted : Byte := 0

/-- The response of a command (30_encoding.md R88): a status, an event mask, a payload. -/
structure Response where
  status  : Status
  events  : Byte
  payload : List Byte
deriving DecidableEq, Repr

/-- The registers and buffers of one channel (10_state.md R23 to R33). -/
structure Channel where
  /-- `CTX_ALG` (R23). -/
  ctxAlg : Byte
  /-- `CTX_KEYID` (R23). -/
  ctxKeyId : U16
  /-- `CTX_PHASE` (R23). -/
  ctxPhase : Phase
  /-- `CTX_MI`, nine bytes (R24). -/
  ctxMi : List Byte
  /-- `KS`, byte addresses 0..468 (R25). -/
  ks : Memory
  /-- `KS_LEN` (R25). -/
  ksLen : U16
  /-- `CTX_STATUS` (R25). -/
  ctxStatus : Status
  /-- `CURSOR` (R26). -/
  cursor : U32
  /-- `P25N` (R27). -/
  p25n : Byte
  /-- `SEQNO` (R28). -/
  seqNo : U32
  /-- `LDU1`, byte addresses 0..224 (R29). -/
  ldu1 : Memory
  /-- `LDU2`, byte addresses 0..224 (R29). -/
  ldu2 : Memory
  /-- `CALLSTATE` (R30). -/
  callState : CallState
  /-- `S_SRC` (R31). -/
  sSrc : U32
  /-- `S_DST` (R31). -/
  sDst : U32
  /-- `S_STREAM` (R31). -/
  sStream : U32
  /-- `S_START` (R31). -/
  sStart : U64
  /-- `S_DURATION` (R31). -/
  sDuration : U64
  /-- `S_FTYPE` (R31). -/
  sFType : Byte
  /-- `S_ENC` (R31). -/
  sEnc : Bool
  /-- `S_EMERG` (R31). -/
  sEmerg : Bool
  /-- `RX_STREAM` (R32). -/
  rxStream : U32
  /-- `RX_FTYPE` (R32). -/
  rxFType : Byte
  /-- `RX_TIME` (R32). -/
  rxTime : U64
  /-- `IMBE_ERRS` (R33). -/
  imbeErrs : U32
  /-- `FRAME_ERR` (R33). -/
  frameErr : Bool
  /-- `SELECTED` (R33). -/
  selected : Bool
  /-- `TXENC` (R33). -/
  txEnc : Bool
deriving DecidableEq, Repr

/-- The state of CORE. `keys` and `chans` are the spec's (10_state.md R20). The other four fields are the model's own:
CORE's ports, as plain data. -/
structure State where
  /-- `KEYS` (R22). -/
  keys : KeyStore
  /-- The channels `0 .. NCH-1`; `NCH` is the length of this list (00_scope.md R6, log entry 6). -/
  chans : List Channel
  /-- Model's own: the command bytes issued and not yet executed, oldest first (log entry 1). -/
  port : List Byte
  /-- Model's own: the vocoder's answers not yet taken, oldest first (log entry 4). -/
  vocPort : List Byte
  /-- Model's own: how many vocoder bytes were drawn as free values (log entry 5). -/
  draw : Nat
  /-- Model's own: the response of the last command, `none` before the first (log entry 3). -/
  resp : Option Response
deriving DecidableEq, Repr

/-- The reasons a step stops with a fault: none. 60_exceptions.md R280: "No command traps"; what went wrong is the
status of the response (log entry 10). -/
inductive Fault where
deriving DecidableEq, Repr

/-- The reasons a step is refused. -/
inductive Refusal where
  /-- Raised by an arm of `exec` whose command has no meaning yet; no arm raises it. Safe: the machine stops. -/
  | notModelled (mnemonic : String)
deriving DecidableEq, Repr

/-- A channel right after reset (70_reset_and_hazards.md R311). -/
def Channel.reset : Channel :=
  { ctxAlg := 0, ctxKeyId := 0, ctxPhase := .phase1, ctxMi := List.replicate 9 0, ks := [], ksLen := 0
    ctxStatus := .notPrepared, cursor := 0, p25n := 0, seqNo := 0, ldu1 := [], ldu2 := []
    callState := .idle, sSrc := 0, sDst := 0, sStream := 0, sStart := 0, sDuration := 0, sFType := 0
    sEnc := false, sEmerg := false, rxStream := 0, rxFType := 0, rxTime := 0, imbeErrs := 0
    frameErr := false, selected := false, txEnc := false }

/-- CORE with `nch` channels right after reset (70_reset_and_hazards.md R311). The reset values of the model's own four
fields are DESIGN CHOICES: `port` and `vocPort` empty (log entries 1, 4), `draw` 0 (log entry 5), `resp` none (log
entry 3). -/
def State.resetWith (nch : Nat) : State :=
  { keys := [], chans := List.replicate nch Channel.reset, port := [], vocPort := [], draw := 0, resp := none }

/-- CORE right after reset (70_reset_and_hazards.md R311), with the number of channels of log entry 6. -/
def State.reset : State := State.resetWith Config.nch

end Sys2Proof.Machine
end

