-- ==== Sys2Proof/Machine/Flags.lean ====
section
/-! DEFINITION. The codes CORE shows the host: status codes (60_exceptions.md R281), event bits (R290), the bits of the
RDSTAT flags byte (44_call_tracker.md R234). There are no condition codes (10_state.md R34). -/

namespace Sys2Proof.Machine

/-- The code of a status (60_exceptions.md R281). -/
def Status.code : Status → Byte
  | .ok => 0x00
  | .unknownKey => 0x01
  | .unsupportedAlgorithm => 0x02
  | .vocoderDecodeError => 0x03
  | .malformedFrame => 0x04
  | .notPrepared => 0x05
  | .badKeyLength => 0x06
  | .badOperand => 0x07
  | .ignored => 0x08
  | .illegalCommand => 0x09
  | .badChannel => 0x0A

/-- The code of a phase (10_state.md R23). -/
def Phase.code : Phase → Byte
  | .phase1 => 0
  | .phase2 => 1

/-- The phase of a `phase` byte whose value is below 2: its bit 0 (40_keystream.md R111). -/
def Phase.ofByte (b : Byte) : Phase := if b.getLsbD 0 then .phase2 else .phase1

/-- Event bit 0 (60_exceptions.md R290). -/
def evLdu1Ready : Byte := 0x01

/-- Event bit 1 (60_exceptions.md R290). -/
def evLdu2Ready : Byte := 0x02

/-- Event bit 2 (60_exceptions.md R290). -/
def evCallStart : Byte := 0x04

/-- Event bit 3 (60_exceptions.md R290). -/
def evCallEnd : Byte := 0x08

/-- Event bit 4 (60_exceptions.md R290). -/
def evPcmOut : Byte := 0x10

/-- Event bit 5 (60_exceptions.md R290). -/
def evMiCycled : Byte := 0x20

/-- Event bit 6 (60_exceptions.md R290). -/
def evToneSubst : Byte := 0x40

/-- The flags byte of the RDSTAT block (44_call_tracker.md R234). -/
def Channel.flagsByte (c : Channel) : Byte :=
  bitAt 0 (c.callState == .receiving) ||| bitAt 1 c.sEnc ||| bitAt 2 c.sEmerg ||| bitAt 3 c.frameErr |||
    bitAt 4 c.selected ||| bitAt 5 c.txEnc

/-- The bytes of a response on the wire (30_encoding.md R88): status, events, payload length big-endian, payload. -/
def Response.wire (r : Response) : List Byte :=
  [r.status.code, r.events] ++ tobe 2 r.payload.length ++ r.payload

end Sys2Proof.Machine
end

