-- ==== Sys2Proof/Machine/Ops.lean ====
section
/-! DEFINITION. The named operations over the byte spaces, the key store, the channels and the response. CORE takes no
exception and returns from none (60_exceptions.md R280, R292): what stands in their place is `fail` (00_scope.md R10),
one shared operation here. -/

namespace Sys2Proof.Machine

/-- The canonical form of a byte space: addresses strictly rising, no cell equal to what an unlisted address reads as. -/
abbrev Memory.wf (m : Memory) : Prop :=
  m.Pairwise (fun x y => x.1 < y.1) ∧ ∀ x ∈ m, x.2 ≠ Memory.unlisted

/-- Every cell lies below `size` (20_memory.md R60, R67). -/
abbrev Memory.within (m : Memory) (size : Nat) : Prop := ∀ x ∈ m, x.1 < size

/-- The byte at an address. -/
def Memory.read : Memory → Nat → Byte
  | [], _ => Memory.unlisted
  | (b, w) :: m, a => if a = b then w else Memory.read m a

/-- Set the byte at an address, keeping the canonical form. -/
def Memory.write : Memory → Nat → Byte → Memory
  | [], a, v => if v = Memory.unlisted then [] else [(a, v)]
  | (b, w) :: m, a, v =>
    if a < b then (if v = Memory.unlisted then (b, w) :: m else (a, v) :: (b, w) :: m)
    else if a = b then (if v = Memory.unlisted then m else (a, v) :: m)
    else (b, w) :: Memory.write m a v

/-- `MemRead(space, addr, n)` of 20_memory.md R61. -/
def Memory.readBytes (m : Memory) (addr n : Nat) : List Byte := (List.range n).map fun i => m.read (addr + i)

/-- `MemWrite(space, addr, n, v)` of 20_memory.md R61, `n` the length of `v`. -/
def Memory.writeBytes (m : Memory) (addr : Nat) : List Byte → Memory
  | [] => m
  | v :: vs => (Memory.writeBytes m (addr + 1) vs).write addr v

/-- A space all of whose bytes are 0x00 (`zeros(469)`, `zeros(225)` of the rules). -/
def Memory.clear : Memory := []

/-- A space that holds `bytes` from address 0 and 0x00 above. -/
def Memory.ofBytes (bytes : List Byte) : Memory := Memory.clear.writeBytes 0 bytes

/-- `KEYS[k]` (00_scope.md R9): the record of a key id, `none` if there is none. -/
def KeyStore.find : KeyStore → U16 → Option KeyRecord
  | [], _ => none
  | (k', r) :: ks, k => if k = k' then some r else KeyStore.find ks k

/-- `KEYS[k] <- r`: the whole record is replaced (10_state.md R22), the order of key ids kept. -/
def KeyStore.set : KeyStore → U16 → KeyRecord → KeyStore
  | [], k, r => [(k, r)]
  | (k', r') :: ks, k, r =>
    if k.toNat < k'.toNat then (k, r) :: (k', r') :: ks
    else if k = k' then (k, r) :: ks
    else (k', r') :: KeyStore.set ks k r

/-- The canonical form of the key store: key ids strictly rising. -/
abbrev KeyStore.wf (ks : KeyStore) : Prop := ks.Pairwise fun x y => x.1.toNat < y.1.toNat

/-- Give the response of a command (30_encoding.md R88). -/
def State.respond (s : State) (r : Response) : State := { s with resp := some r }

/-- The response of `fail S` (00_scope.md R10, 30_encoding.md R88): the status, no events, no payload. -/
def Response.fail (st : Status) : Response := { status := st, events := 0, payload := [] }

/-- A response `(OK, 0, empty)`. -/
def Response.done : Response := { status := .ok, events := 0, payload := [] }

/-- `fail S` before a channel is reached (00_scope.md R10): no state written. -/
def State.fail (s : State) (st : Status) : State := s.respond (Response.fail st)

/-- `fail S` in a command of a channel (00_scope.md R10): no state written. -/
def Channel.fail (c : Channel) (st : Status) : Channel × Response := (c, Response.fail st)

/-- `return (OK, 0, empty)` in a command of a channel whose registers are now `c`. -/
def Channel.done (c : Channel) : Channel × Response := (c, Response.done)

/-- Run a command of channel `ch` (30_encoding.md R87 step 3, 10_state.md R36): `ch >= NCH` fails with BadChannel, else
`f` gives the channel's new registers and the response; no other channel and no key is written. -/
def State.onChannel (s : State) (ch : Byte) (f : Channel → Channel × Response) : State :=
  match s.chans[ch.toNat]? with
  | none => s.fail .badChannel
  | some c =>
    let r := f c
    { s with chans := s.chans.set ch.toNat r.1, resp := some r.2 }

end Sys2Proof.Machine
end

