-- ==== Sys2Proof/Machine/Lfsr.lean ====
section
/-! DEFINITION. The MI/LFSR sequencer (41_mi_lfsr.md): CYCLEMI and EXPANDIV. -/

namespace Sys2Proof.Machine

/-- `LfsrStep(r) -> (r', ov)` (41_mi_lfsr.md R152): shift towards bit 63; the feedback of bits 63, 61, 45, 37, 26 and 14
enters bit 0; the overflow is the old bit 63. -/
def lfsrStep (r : U64) : U64 × Bool :=
  let fb := r.getLsbD 63 ^^ r.getLsbD 61 ^^ r.getLsbD 45 ^^ r.getLsbD 37 ^^ r.getLsbD 26 ^^ r.getLsbD 14
  (r <<< 1 ||| BitVec.ofNat 64 fb.toNat, r.getLsbD 63)

/-- `n` clocks of the register, the overflow bits collected into `trace`, the first one highest (41_mi_lfsr.md R152). -/
def lfsrRun : Nat → U64 × U64 → U64 × U64
  | 0, x => x
  | n + 1, (r, trace) => lfsrRun n ((lfsrStep r).1, trace <<< 1 ||| BitVec.ofNat 64 (lfsrStep r).2.toNat)

/-- `Lfsr64(r) -> (r64, trace)` (41_mi_lfsr.md R152). -/
def lfsr64 (r : U64) : U64 × U64 := lfsrRun 64 (r, 0)

/-- The register loaded from the first eight bytes of an MI, big-endian (20_memory.md R62). -/
def miRegister (mi : List Byte) : U64 := BitVec.ofNat 64 (be (mi.take 8))

/-- `Cycle(mi)` (41_mi_lfsr.md R151): the pure function; the input's byte 8 is ignored, the output's is zero. -/
def cycleMi (mi : List Byte) : List Byte := tobe 8 (lfsr64 (miRegister mi)).1.toNat ++ [0]

/-- `ExpandIv(mi8)` (41_mi_lfsr.md R153): the overflow trace, then the final register, each big-endian. -/
def expandIv (mi8 : List Byte) : List Byte :=
  let x := lfsr64 (miRegister mi8)
  tobe 8 x.2.toNat ++ tobe 8 x.1.toNat

/-- `CycleMI(c)` (41_mi_lfsr.md R151): writes `CTX_MI` only. -/
def Channel.cycleMi (c : Channel) : Channel := { c with ctxMi := Machine.cycleMi c.ctxMi }

/-- CYCLEMI (41_mi_lfsr.md R154). -/
def execCyclemi (ch : Byte) (s : State) : Host.Outcome State Fault Refusal :=
  .next <| s.onChannel ch fun c =>
    let c' := c.cycleMi
    (c', { status := .ok, events := evMiCycled, payload := c'.ctxMi })

/-- EXPANDIV (41_mi_lfsr.md R155). -/
def execExpandiv (mi : List Byte) (s : State) : Host.Outcome State Fault Refusal :=
  .next <| s.respond { status := .ok, events := 0, payload := expandIv mi }

end Sys2Proof.Machine
end

