-- ==== Sys2Proof/Machine/Aes.lean ====
section
/-! DEFINITION. AES-256 block encryption (40_keystream.md R120 to R126) and the AES keystream (R117). -/

namespace Sys2Proof.Machine

/-- `xtime(a)` (40_keystream.md R120). -/
def xtime (a : Byte) : Byte := if a.getLsbD 7 then a <<< 1 ^^^ 0x1B else a <<< 1

/-- `xtime` applied `n` times. -/
def xtimes : Nat → Byte → Byte
  | 0, a => a
  | n + 1, a => xtime (xtimes n a)

/-- `gmul(a, b)` (40_keystream.md R120): the XOR over the set bits `i` of `b` of `xtime^i(a)`. -/
def gmul (a b : Byte) : Byte :=
  (List.range 8).foldl (fun acc i => if b.getLsbD i then acc ^^^ xtimes i a else acc) 0

/-- The S-box as a table, one list per row of 40_keystream.md R124. -/
def sboxRows : List (List Byte) :=
  [[0x63, 0x7c, 0x77, 0x7b, 0xf2, 0x6b, 0x6f, 0xc5, 0x30, 0x01, 0x67, 0x2b, 0xfe, 0xd7, 0xab, 0x76],
   [0xca, 0x82, 0xc9, 0x7d, 0xfa, 0x59, 0x47, 0xf0, 0xad, 0xd4, 0xa2, 0xaf, 0x9c, 0xa4, 0x72, 0xc0],
   [0xb7, 0xfd, 0x93, 0x26, 0x36, 0x3f, 0xf7, 0xcc, 0x34, 0xa5, 0xe5, 0xf1, 0x71, 0xd8, 0x31, 0x15],
   [0x04, 0xc7, 0x23, 0xc3, 0x18, 0x96, 0x05, 0x9a, 0x07, 0x12, 0x80, 0xe2, 0xeb, 0x27, 0xb2, 0x75],
   [0x09, 0x83, 0x2c, 0x1a, 0x1b, 0x6e, 0x5a, 0xa0, 0x52, 0x3b, 0xd6, 0xb3, 0x29, 0xe3, 0x2f, 0x84],
   [0x53, 0xd1, 0x00, 0xed, 0x20, 0xfc, 0xb1, 0x5b, 0x6a, 0xcb, 0xbe, 0x39, 0x4a, 0x4c, 0x58, 0xcf],
   [0xd0, 0xef, 0xaa, 0xfb, 0x43, 0x4d, 0x33, 0x85, 0x45, 0xf9, 0x02, 0x7f, 0x50, 0x3c, 0x9f, 0xa8],
   [0x51, 0xa3, 0x40, 0x8f, 0x92, 0x9d, 0x38, 0xf5, 0xbc, 0xb6, 0xda, 0x21, 0x10, 0xff, 0xf3, 0xd2],
   [0xcd, 0x0c, 0x13, 0xec, 0x5f, 0x97, 0x44, 0x17, 0xc4, 0xa7, 0x7e, 0x3d, 0x64, 0x5d, 0x19, 0x73],
   [0x60, 0x81, 0x4f, 0xdc, 0x22, 0x2a, 0x90, 0x88, 0x46, 0xee, 0xb8, 0x14, 0xde, 0x5e, 0x0b, 0xdb],
   [0xe0, 0x32, 0x3a, 0x0a, 0x49, 0x06, 0x24, 0x5c, 0xc2, 0xd3, 0xac, 0x62, 0x91, 0x95, 0xe4, 0x79],
   [0xe7, 0xc8, 0x37, 0x6d, 0x8d, 0xd5, 0x4e, 0xa9, 0x6c, 0x56, 0xf4, 0xea, 0x65, 0x7a, 0xae, 0x08],
   [0xba, 0x78, 0x25, 0x2e, 0x1c, 0xa6, 0xb4, 0xc6, 0xe8, 0xdd, 0x74, 0x1f, 0x4b, 0xbd, 0x8b, 0x8a],
   [0x70, 0x3e, 0xb5, 0x66, 0x48, 0x03, 0xf6, 0x0e, 0x61, 0x35, 0x57, 0xb9, 0x86, 0xc1, 0x1d, 0x9e],
   [0xe1, 0xf8, 0x98, 0x11, 0x69, 0xd9, 0x8e, 0x94, 0x9b, 0x1e, 0x87, 0xe9, 0xce, 0x55, 0x28, 0xdf],
   [0x8c, 0xa1, 0x89, 0x0d, 0xbf, 0xe6, 0x42, 0x68, 0x41, 0x99, 0x2d, 0x0f, 0xb0, 0x54, 0xbb, 0x16]]

/-- `SBOX[16*row + col]`, row the high nibble, col the low one (40_keystream.md R124). -/
def sbox (a : Byte) : Byte := (sboxRows.getD (a.toNat / 16) []).getD (a.toNat % 16) 0

/-- `Rcon[j] = xtime^(j-1)(1)`, used for `j = 1..7` (40_keystream.md R122). -/
def rcon (j : Nat) : Byte := xtimes (j - 1) 1

/-- RotWord (40_keystream.md R122). -/
def rotWord (t : List Byte) : List Byte := [t.getD 1 0, t.getD 2 0, t.getD 3 0, t.getD 0 0]

/-- SubWord (40_keystream.md R122), SubBytes (R123): the S-box on every byte. -/
def subBytes (s : List Byte) : List Byte := s.map sbox

/-- `w[i]` from the words before it, `i` the number of them (40_keystream.md R122). -/
def nextKeyWord (w : List (List Byte)) : List Byte :=
  let i := w.length
  let prev := w.getD (i - 1) []
  let t :=
    if i % 8 = 0 then xorBytes (subBytes (rotWord prev)) [rcon (i / 8), 0, 0, 0]
    else if i % 8 = 4 then subBytes prev
    else prev
  xorBytes (w.getD (i - 8) []) t

/-- `n` further key words (40_keystream.md R122). -/
def expandKeyWords : Nat → List (List Byte) → List (List Byte)
  | 0, w => w
  | n + 1, w => expandKeyWords n (w ++ [nextKeyWord w])

/-- `KeyExpansion256(key)` (40_keystream.md R122): the 60 words `w[0..59]`. -/
def keyExpansion256 (key : List Byte) : List (List Byte) :=
  expandKeyWords 52 ((List.range 8).map fun i => slice key (4 * i) 4)

/-- Round key `r` (40_keystream.md R122): `w[4r] ‖ w[4r+1] ‖ w[4r+2] ‖ w[4r+3]`. -/
def roundKey (w : List (List Byte)) (r : Nat) : List Byte :=
  w.getD (4 * r) [] ++ w.getD (4 * r + 1) [] ++ w.getD (4 * r + 2) [] ++ w.getD (4 * r + 3) []

/-- AddRoundKey (40_keystream.md R123). -/
def addRoundKey (w : List (List Byte)) (r : Nat) (s : List Byte) : List Byte := xorBytes s (roundKey w r)

/-- ShiftRows (40_keystream.md R123) on the flat state `s[r + 4*col]` (R121). -/
def shiftRows (s : List Byte) : List Byte :=
  (List.range 16).map fun k => s.getD (k % 4 + 4 * ((k / 4 + k % 4) % 4)) 0

/-- MixColumns on one column (40_keystream.md R123). -/
def mixColumn (a0 a1 a2 a3 : Byte) : List Byte :=
  [gmul a0 2 ^^^ gmul a1 3 ^^^ a2 ^^^ a3,
   a0 ^^^ gmul a1 2 ^^^ gmul a2 3 ^^^ a3,
   a0 ^^^ a1 ^^^ gmul a2 2 ^^^ gmul a3 3,
   gmul a0 3 ^^^ a1 ^^^ a2 ^^^ gmul a3 2]

/-- MixColumns (40_keystream.md R123). -/
def mixColumns (s : List Byte) : List Byte :=
  (List.range 4).flatMap fun col =>
    mixColumn (s.getD (4 * col) 0) (s.getD (4 * col + 1) 0) (s.getD (4 * col + 2) 0) (s.getD (4 * col + 3) 0)

/-- One full round `r` (40_keystream.md R126). -/
def aesRound (w : List (List Byte)) (r : Nat) (s : List Byte) : List Byte :=
  addRoundKey w r (mixColumns (shiftRows (subBytes s)))

/-- Encrypt a block under expanded key words (40_keystream.md R126): the last round has no MixColumns. -/
def aesCipher (w : List (List Byte)) (block : List Byte) : List Byte :=
  let s := (List.range' 1 13).foldl (fun s r => aesRound w r s) (addRoundKey w 0 block)
  addRoundKey w 14 (shiftRows (subBytes s))

/-- `AesEncryptBlock(key, in)` (40_keystream.md R126). -/
def aesEncryptBlock (key block : List Byte) : List Byte := aesCipher (keyExpansion256 key) block

/-- `n` keystream blocks, each the encryption of the one before, the first that of `x` (40_keystream.md R117). -/
def aesChain (w : List (List Byte)) : (n : Nat) → (x : List Byte) → List Byte
  | 0, _ => []
  | n + 1, x =>
    let y := aesCipher w x
    y ++ aesChain w n y

/-- `AesKeystream(key, mi)` (40_keystream.md R117): 15 blocks, 240 bytes. -/
def aesKeystream (key mi : List Byte) : List Byte := aesChain (keyExpansion256 key) 15 (expandIv (mi.take 8))

end Sys2Proof.Machine
end

