-- ==== Sys2Proof/Syntax.lean ====
section
/-! DEFINITION. The commands of CORE, one constructor per row of spec/opcode_table.json (30_encoding.md R86). Fields a
command does not use select nothing (R81) and are no operands. -/

namespace Sys2Proof

/-- The vocoder's answer for one decoded codeword: `vpcm[k] : byte[320]` and `verr[k] : u32` (30_encoding.md R85). -/
structure VocAnswer where
  pcm  : List Byte
  errs : U32
deriving DecidableEq, Repr

/-- One host command with its operands, the vocoder's answers among them (30_encoding.md R85: "A model treats them as
extra operands and quantifies over them"). -/
inductive Instr where
  /-- 44_call_tracker.md R236. -/
  | nop
  /-- 40_keystream.md R110. -/
  | addkey (keyId : U16) (alg : Byte) (key : List Byte)
  /-- 40_keystream.md R111. -/
  | prepare (ch : Byte) (alg : Byte) (keyId : U16) (phase : Byte) (mi : List Byte)
  /-- 41_mi_lfsr.md R154. -/
  | cyclemi (ch : Byte)
  /-- 41_mi_lfsr.md R155. -/
  | expandiv (mi : List Byte)
  /-- 42_crypto_processor.md R177. -/
  | process (ch ft idx : Byte) (cw : List Byte)
  /-- 43_frame_packer.md R195; `f` is the fail-closed flag. -/
  | pack (ch : Byte) (f : Bool) (cw : List Byte)
  /-- 43_frame_packer.md R197; `v` says that the record markers were valid, `f` is the fail-closed flag. -/
  | unpack (ch ft : Byte) (v f : Bool) (buf : List Byte) (voc : List VocAnswer)
  /-- 45_tone.md R262. -/
  | tone (pcm : List Byte)
  /-- 45_tone.md R263. -/
  | txpcm (ch : Byte) (f : Bool) (pcm voc : List Byte)
  /-- 44_call_tracker.md R221; `e` is the emergency flag. -/
  | rxframe (ch duid : Byte) (e : Bool) (streamId srcId dstId : U32) (time : U64)
  /-- 44_call_tracker.md R226. -/
  | esync (ch : Byte) (alg : Byte) (keyId : U16) (phase : Byte) (mi : List Byte)
  /-- 44_call_tracker.md R230. -/
  | select (ch : Byte) (value : Bool)
  /-- 44_call_tracker.md R231. -/
  | enccfg (ch : Byte) (value : Bool)
  /-- 44_call_tracker.md R232. -/
  | wrseq (ch : Byte) (seqNo : U32)
  /-- 44_call_tracker.md R233. -/
  | chreset (ch : Byte)
  /-- 44_call_tracker.md R234. -/
  | rdstat (ch : Byte)
deriving DecidableEq, Repr

end Sys2Proof
end

