-- ==== Sys2Proof/Machine/Operands.lean ====
section
/-! DEFINITION. The operand forms of 30_encoding.md: the enumerations carried in fields (R82), the payload length of
each command (R84), the vocoder answers (R85), the constants of 00_scope.md R5. -/

namespace Sys2Proof.Machine

/-- `ALG_ADP` (00_scope.md R5): RC4-ADP. -/
def algAdp : Byte := 0xAA

/-- `ALG_AES` (00_scope.md R5): AES-256. -/
def algAes : Byte := 0x84

/-- `KS_LEN_ADP` (00_scope.md R5). -/
def ksLenAdp : Nat := 469

/-- `KS_LEN_AES` (00_scope.md R5): 15 blocks of 16. -/
def ksLenAes : Nat := 240

/-- `CW_LEN` (00_scope.md R5): bytes of an IMBE codeword in Phase 1. -/
def cwLen : Nat := 11

/-- `CW2_LEN` (00_scope.md R5): bytes XORed in Phase 2. -/
def cw2Len : Nat := 7

/-- `LDU_LEN` (00_scope.md R5). -/
def lduLen : Nat := 225

/-- Bytes of one PCM chunk, 160 samples (00_scope.md R5, `PCM_SAMPLES`). -/
def pcmLen : Nat := 320

/-- The crypto frame types of 30_encoding.md R82. -/
inductive FrameType where
  | ldu1
  | ldu2
  | v2
  | v4 (k : Fin 4)
deriving DecidableEq, Repr

/-- The frame type of a code of field `ft` (30_encoding.md R82); `none` for the reserved codes 7..255. -/
def frameType (ft : Byte) : Option FrameType :=
  match ft.toNat with
  | 0 => some .ldu1
  | 1 => some .ldu2
  | 2 => some .v2
  | 3 => some (.v4 0)
  | 4 => some (.v4 1)
  | 5 => some (.v4 2)
  | 6 => some (.v4 3)
  | _ => none

/-- The payload codeword length of a frame-type code (30_encoding.md R82, R84): 11, 7, or 0 for a reserved code. -/
def cwLenOf (ft : Byte) : Nat :=
  match frameType ft with
  | some .ldu1 => cwLen
  | some .ldu2 => cwLen
  | some .v2 => cw2Len
  | some (.v4 _) => cw2Len
  | none => 0

/-- `IsTerminator(duid)` (30_encoding.md R82): TDU or TDULC. -/
def isTerminator (duid : Byte) : Bool := duid == 0x03 || duid == 0x0F

/-- The number of vocoder bytes that one answer of a decoded codeword takes on the vocoder port: 320 PCM bytes and the
error count as four bytes, most significant first (DESIGN CHOICE, log entry 4). -/
def vocAnswerLen : Nat := pcmLen + 4

/-- The vocoder bytes that a command of opcode `op` takes (30_encoding.md R85): 11 for TXPCM, nine answers for UNPACK. -/
def vocLen (op : Byte) : Nat :=
  match op.toNat with
  | 0x07 => 9 * vocAnswerLen
  | 0x09 => cwLen
  | _ => 0

/-- The payload length of the command whose word has opcode `op` and field `a`, and whose bytes after the word so far
are `rest` (30_encoding.md R84, R91); `none` while it cannot be known, which is only for ADDKEY before its `len` byte
is there. A reserved opcode takes no payload (R90). -/
def payloadLen (op a : Byte) (rest : List Byte) : Option Nat :=
  match op.toNat with
  | 0x01 => rest[1]?.map fun len => 2 + len.toNat
  | 0x02 => some 13
  | 0x04 => some 8
  | 0x05 => some (cwLenOf a)
  | 0x06 => some cwLen
  | 0x07 => some lduLen
  | 0x08 => some pcmLen
  | 0x09 => some pcmLen
  | 0x0A => some 20
  | 0x0B => some 13
  | 0x0E => some 4
  | _ => some 0

end Sys2Proof.Machine
end

