-- ==== Sys2Proof/Machine/Rc4.lean ====
section
/-! DEFINITION. The RC4-ADP keystream (40_keystream.md R114, R115). -/

namespace Sys2Proof.Machine

/-- `AdpSeed(keyBytes, mi)` (40_keystream.md R114): the first five key bytes, or the key left-padded with zeros to five,
then the eight meaningful MI bytes. -/
def adpSeed (key mi : List Byte) : List Byte :=
  (if 5 ≤ key.length then key.take 5 else zeros (5 - key.length) ++ key) ++ mi.take 8

/-- `swap S[i], S[j]` (40_keystream.md R115). -/
def rc4Swap (perm : List Byte) (i j : Nat) : List Byte :=
  (perm.set i (perm.getD j 0)).set j (perm.getD i 0)

/-- The key scheduling from index `i` on, `n` iterations (40_keystream.md R115). -/
def rc4KsaFrom (seed : List Byte) : (n i : Nat) → List Byte → Byte → List Byte
  | 0, _, perm, _ => perm
  | n + 1, i, perm, j =>
    let j' := j + perm.getD i 0 + seed.getD (i % seed.length) 0
    rc4KsaFrom seed n (i + 1) (rc4Swap perm i j'.toNat) j'

/-- The permutation after key scheduling (40_keystream.md R115). -/
def rc4Ksa (seed : List Byte) : List Byte :=
  rc4KsaFrom seed 256 0 ((List.range 256).map (BitVec.ofNat 8)) 0

/-- `n` bytes of the pseudo-random generation (40_keystream.md R115). -/
def rc4Prga : (n : Nat) → List Byte → (i j : Byte) → List Byte
  | 0, _, _, _ => []
  | n + 1, perm, i, j =>
    let i' := i + 1
    let j' := j + perm.getD i'.toNat 0
    let perm' := rc4Swap perm i'.toNat j'.toNat
    perm'.getD (perm'.getD i'.toNat 0 + perm'.getD j'.toNat 0).toNat 0 :: rc4Prga n perm' i' j'

/-- `Rc4Keystream(seed, n)` (40_keystream.md R115). -/
def rc4Keystream (seed : List Byte) (n : Nat) : List Byte := rc4Prga n (rc4Ksa seed) 0 0

end Sys2Proof.Machine
end

