-- ==== Sys2Proof/Machine/Keystream.lean ====
section
/-! DEFINITION. The keystream engine (40_keystream.md): ADDKEY, PREPARE and the procedure `Prepare`. -/

namespace Sys2Proof.Machine

/-- The outcome of `Prepare` (40_keystream.md R113): the algorithm is checked before the key, the key before its
length. -/
def prepareStatus (keys : KeyStore) (alg : Byte) (keyId : U16) : Status :=
  if alg ≠ algAdp ∧ alg ≠ algAes then .unsupportedAlgorithm
  else match keys.find keyId with
    | none => .unknownKey
    | some r => if alg = algAes ∧ r.keyBytes.length ≠ 32 then .badKeyLength else .ok

/-- The valid bytes of a keystream (40_keystream.md R113): 469 of RC4-ADP or 240 of AES-256. -/
def keystream (alg : Byte) (key mi : List Byte) : List Byte :=
  if alg = algAdp then rc4Keystream (adpSeed key mi) ksLenAdp else aesKeystream key mi

/-- The key bytes that `Prepare` reads (40_keystream.md R113). -/
def KeyStore.bytesOf (keys : KeyStore) (keyId : U16) : List Byte :=
  match keys.find keyId with
  | some r => r.keyBytes
  | none => []

/-- The MI that a load writes (10_state.md R24): byte 8 forced to zero. -/
def loadMi (mi : List Byte) : List Byte := slice mi 0 8 ++ [0]

/-- `Prepare(c, alg, keyId, phase, mi)` (40_keystream.md R113). A failed `Prepare` stores its arguments and clears the
keystream all the same. -/
def Channel.prepare (keys : KeyStore) (alg : Byte) (keyId : U16) (phase : Phase) (mi : List Byte) (c : Channel) :
    Channel :=
  let st := prepareStatus keys alg keyId
  let ks := if st = .ok then keystream alg (keys.bytesOf keyId) (loadMi mi) else []
  { c with
    ctxAlg := alg
    ctxKeyId := keyId
    ctxPhase := phase
    ctxMi := loadMi mi
    cursor := 0
    ks := Memory.ofBytes ks
    ksLen := if st = .ok then (if alg = algAdp then BitVec.ofNat 16 ksLenAdp else BitVec.ofNat 16 ksLenAes) else 0
    ctxStatus := st }

/-- ADDKEY (40_keystream.md R110): the whole record is replaced; no channel is read or written. -/
def execAddkey (keyId : U16) (alg : Byte) (key : List Byte) (s : State) : Host.Outcome State Fault Refusal :=
  .next <| { s with keys := s.keys.set keyId { alg := alg, keyBytes := key } }.respond Response.done

/-- PREPARE (40_keystream.md R111). -/
def execPrepare (ch alg : Byte) (keyId : U16) (phase : Byte) (mi : List Byte) (s : State) :
    Host.Outcome State Fault Refusal :=
  .next <| s.onChannel ch fun c =>
    if 2 ≤ phase.toNat then c.fail .badOperand
    else
      let c' := c.prepare s.keys alg keyId (Phase.ofByte phase) mi
      (c', { status := c'.ctxStatus, events := 0, payload := [] })

end Sys2Proof.Machine
end

