-- ==== Sys2Proof/Machine/Crypto.lean ====
section
/-! DEFINITION. The crypto processor (42_crypto_processor.md): PROCESS and the procedures `Offset`, `CryptCheck`,
`Crypt`. -/

namespace Sys2Proof.Machine

/-- `P1_BASE[alg][ft]` (42_crypto_processor.md R173), `second` for LDU2. -/
def p1Base (alg : Byte) (second : Bool) : Nat :=
  if alg = algAdp then (if second then 101 else 0) else (if second then 117 else 16)

/-- `P1_CONST[alg]` (42_crypto_processor.md R173). -/
def p1Const (alg : Byte) : Nat := if alg = algAdp then 267 else 11

/-- `P2_BASE[alg]` (42_crypto_processor.md R174). -/
def p2Base (alg : Byte) : Nat := if alg = algAdp then 256 else 16

/-- `P2_SLOT(ft, idx)` (42_crypto_processor.md R174), the replaceable table of 00_scope.md R6 at its default (log entry
8). -/
def p2Slot : FrameType → Nat → Nat
  | .v4 k, idx => 4 * k.val + idx
  | .v2, idx => 16 + idx
  | .ldu1, _ => 0
  | .ldu2, _ => 0

/-- `Offset(alg, ft, idx)` (42_crypto_processor.md R172, R174). `alg` other than `0xAA` is read as AES-256: a prepared
context has no third algorithm (10_state.md R25; log entry 11). -/
def offset (alg : Byte) (ft : FrameType) (idx : Nat) : Nat :=
  match ft with
  | .ldu1 => p1Base alg false + idx * 11 + p1Const alg + (if idx < 8 then 0 else 2)
  | .ldu2 => p1Base alg true + idx * 11 + p1Const alg + (if idx < 8 then 0 else 2)
  | .v2 => p2Base alg + 7 * p2Slot .v2 idx
  | .v4 k => p2Base alg + 7 * p2Slot (.v4 k) idx

/-- The phase a frame type belongs to (30_encoding.md R82). -/
def FrameType.phase : FrameType → Phase
  | .ldu1 => .phase1
  | .ldu2 => .phase1
  | .v2 => .phase2
  | .v4 _ => .phase2

/-- The largest index of a frame type (42_crypto_processor.md R175). -/
def FrameType.maxIdx : FrameType → Nat
  | .ldu1 => 8
  | .ldu2 => 8
  | .v2 => 1
  | .v4 _ => 3

/-- The bytes of a codeword of a frame type (30_encoding.md R82). -/
def FrameType.len : FrameType → Nat
  | .ldu1 => cwLen
  | .ldu2 => cwLen
  | .v2 => cw2Len
  | .v4 _ => cw2Len

/-- `CryptCheck(c, ft, idx)` (42_crypto_processor.md R175): index, then stored status, then phase. -/
def Channel.cryptCheck (c : Channel) (ft : FrameType) (idx : Nat) : Status :=
  if ft.maxIdx < idx then .badOperand
  else if c.ctxStatus ≠ .ok then c.ctxStatus
  else if ft.phase ≠ c.ctxPhase then .badOperand
  else .ok

/-- The codeword that `Crypt` gives when its check passes (42_crypto_processor.md R171): XOR with the keystream at the
offset; in Phase 2 the seventh byte then keeps only its bit 7. -/
def Channel.cryptBytes (c : Channel) (ft : FrameType) (idx : Nat) (cw : List Byte) : List Byte :=
  let x := xorBytes cw (c.ks.readBytes (offset c.ctxAlg ft idx) ft.len)
  match ft.phase with
  | .phase1 => x
  | .phase2 => x.set 6 (x.getD 6 0 &&& 0x80)

/-- `Crypt(c, ft, idx, cw)` (42_crypto_processor.md R171): the status, the channel with `CURSOR` advanced if it XORed,
and the codeword; unchanged if the check fails (pass-through). -/
def Channel.crypt (c : Channel) (ft : FrameType) (idx : Nat) (cw : List Byte) : Status × Channel × List Byte :=
  let st := c.cryptCheck ft idx
  if st = .ok then (.ok, { c with cursor := c.cursor + 1 }, c.cryptBytes ft idx cw) else (st, c, cw)

/-- PROCESS (42_crypto_processor.md R177). -/
def execProcess (ch ft idx : Byte) (cw : List Byte) (s : State) : Host.Outcome State Fault Refusal :=
  .next <| s.onChannel ch fun c =>
    match frameType ft with
    | none => c.fail .badOperand
    | some t =>
      let x := c.crypt t idx.toNat cw
      (x.2.1, { status := x.1, events := 0, payload := x.2.2 })

end Sys2Proof.Machine
end

