-- ==== Sys2Proof/Machine/Packer.lean ====
section
/-! DEFINITION. The frame packer and unpacker (43_frame_packer.md): PACK, UNPACK and the procedures `PackOne`,
`EndSuperframe`. -/

namespace Sys2Proof.Machine

/-- `LDU_OFF[k]` (43_frame_packer.md R190): the byte offset of codeword `k` in an LDU buffer, `k = 0..8`. -/
def lduOff (k : Nat) : Nat := [10, 26, 55, 80, 105, 130, 155, 180, 204].getD k 204

/-- `EndSuperframe(c, gate)` (43_frame_packer.md R196): cycle the MI, then prepare again if the gate is set. -/
def Channel.endSuperframe (keys : KeyStore) (gate : Bool) (c : Channel) : Channel :=
  let c1 := c.cycleMi
  if gate then c1.prepare keys c1.ctxAlg c1.ctxKeyId c1.ctxPhase c1.ctxMi else c1

/-- The LDU buffer that `P25N` selects (43_frame_packer.md R190): `false` for `LDU1`, `true` for `LDU2`. -/
def Channel.inLdu2 (c : Channel) : Bool := decide (9 ≤ c.p25n.toNat)

/-- The frame type of the codeword that `P25N` selects (43_frame_packer.md R192). -/
def Channel.packFrame (c : Channel) : FrameType := if c.inLdu2 then .ldu2 else .ldu1

/-- The channel after a codeword is placed at the position `P25N` selects (43_frame_packer.md R192, R193): the buffer is
cleared first at `P25N` 0 or 9. `P25N` is not advanced here. -/
def Channel.place (c : Channel) (cw : List Byte) : Channel :=
  let n := c.p25n.toNat
  if c.inLdu2 then
    { c with ldu2 := (if n = 9 then Memory.clear else c.ldu2).writeBytes (lduOff (n % 9)) cw }
  else
    { c with ldu1 := (if n = 0 then Memory.clear else c.ldu1).writeBytes (lduOff (n % 9)) cw }

/-- The hand-over of a finalised buffer (43_frame_packer.md R194): its 225 bytes, then `SEQNO` big-endian. -/
def lduPayload (ldu : Memory) (seqNo : U32) : List Byte := ldu.readBytes 0 lduLen ++ tobe 4 seqNo.toNat

/-- The end of `PackOne` (43_frame_packer.md R192) on a channel whose codeword was placed: finalisation at `P25N` 8 and
17 (R194), the end of the superframe at 17 (R196), then `P25N` advances modulo 18. -/
def Channel.finishPack (keys : KeyStore) (st : Status) (c : Channel) : Channel × Response :=
  let n := c.p25n.toNat
  let p25n := BitVec.ofNat 8 ((n + 1) % 18)
  if n = 8 then
    ({ c with p25n := p25n }, { status := st, events := evLdu1Ready, payload := lduPayload c.ldu1 c.seqNo })
  else if n = 17 then
    ({ c.endSuperframe keys c.txEnc with p25n := p25n },
      { status := st, events := evLdu2Ready ||| evMiCycled, payload := lduPayload c.ldu2 c.seqNo })
  else ({ c with p25n := p25n }, { status := st, events := 0, payload := [] })

/-- `PackOne(c, cw, F)` (43_frame_packer.md R192): `.error st` is `fail st`, the fail-closed case, which writes nothing. -/
def Channel.packOne (keys : KeyStore) (cw : List Byte) (f : Bool) (c : Channel) : Except Status (Channel × Response) :=
  if c.txEnc then
    let k := c.p25n.toNat % 9
    let st := c.cryptCheck c.packFrame k
    if st ≠ .ok ∧ f = true then .error st
    else
      let x := c.crypt c.packFrame k cw
      .ok ((x.2.1.place x.2.2).finishPack keys x.1)
  else .ok ((c.place cw).finishPack keys .ok)

/-- PACK (43_frame_packer.md R195). -/
def execPack (ch : Byte) (f : Bool) (cw : List Byte) (s : State) : Host.Outcome State Fault Refusal :=
  .next <| s.onChannel ch fun c =>
    match c.packOne s.keys cw f with
    | .error st => c.fail st
    | .ok x => x

/-- Codeword `k` of a received LDU buffer (43_frame_packer.md R190, R197). -/
def lduCodeword (buf : List Byte) (k : Nat) : List Byte := slice buf (lduOff k) cwLen

/-- What UNPACK has gathered after some of its codewords (43_frame_packer.md R197). -/
structure UnpackState where
  chan : Channel
  mask : U16
  cws  : List Byte
deriving DecidableEq, Repr

/-- Codeword `k` of UNPACK (43_frame_packer.md R197, R199): decrypt if the session is encrypted; a non-zero error count
of the vocoder is added to `IMBE_ERRS`, sets `FRAME_ERR` and bit `k` of the mask. -/
def unpackOne (ft : FrameType) (buf : List Byte) (voc : List VocAnswer) (u : UnpackState) (k : Nat) : UnpackState :=
  let cw := lduCodeword buf k
  let x := if u.chan.sEnc then (u.chan.crypt ft k cw).2 else (u.chan, cw)
  let errs := (voc.getD k { pcm := [], errs := 0 }).errs
  { chan := if errs = 0 then x.1 else { x.1 with imbeErrs := x.1.imbeErrs + errs, frameErr := true }
    mask := if errs = 0 then u.mask else u.mask ||| 1#16 <<< k
    cws := u.cws ++ x.2 }

/-- The channel after the half-frame tracking and the MI step of UNPACK (43_frame_packer.md R200, R201), and whether the
MI was cycled. -/
def Channel.finishUnpack (keys : KeyStore) (ft : FrameType) (c : Channel) : Channel × Bool :=
  if ft = .ldu1 then ({ c with p25n := 9 }, false)
  else
    let c1 := { c with p25n := 0 }
    if c1.frameErr then (c1, false) else (c1.endSuperframe keys c1.sEnc, true)

/-- UNPACK past its checks (43_frame_packer.md R197): `ft` LDU1 or LDU2, `cs` the crypto status. -/
def Channel.unpackAll (keys : KeyStore) (ft : FrameType) (cs : Status) (buf : List Byte) (voc : List VocAnswer)
    (c : Channel) : Channel × Response :=
  let c0 := if ft = .ldu1 then { c with frameErr := false } else c
  let u := (List.range 9).foldl (unpackOne ft buf voc) { chan := c0, mask := 0, cws := [] }
  let x := u.chan.finishUnpack keys ft
  (x.1,
    { status := if cs ≠ .ok then cs else if u.mask ≠ 0 then .vocoderDecodeError else .ok
      events := if x.2 then evPcmOut ||| evMiCycled else evPcmOut
      payload := [cs.code] ++ tobe 2 u.mask.toNat ++ u.cws ++ voc.flatMap VocAnswer.pcm })

/-- The crypto status of UNPACK (43_frame_packer.md R197): that of `CryptCheck` if the session is encrypted, else OK. -/
def Channel.unpackStatus (c : Channel) (ft : FrameType) : Status := if c.sEnc then c.cryptCheck ft 0 else .ok

/-- UNPACK (43_frame_packer.md R197, R198). -/
def execUnpack (ch ft : Byte) (v f : Bool) (buf : List Byte) (voc : List VocAnswer) (s : State) :
    Host.Outcome State Fault Refusal :=
  .next <| s.onChannel ch fun c =>
    if 2 ≤ ft.toNat then c.fail .badOperand
    else if v = false then c.fail .malformedFrame
    else
      let t : FrameType := if ft = 0 then .ldu1 else .ldu2
      let cs := c.unpackStatus t
      if cs ≠ .ok ∧ f = true then c.fail cs else c.unpackAll s.keys t cs buf voc

end Sys2Proof.Machine
end

