-- ==== Sys2Proof/Machine/Tone.lean ====
section
/-! DEFINITION. The tone classifier and the transmit PCM path (45_tone.md): TONE and TXPCM. -/

namespace Sys2Proof.Machine

/-- TONE (45_tone.md R262). -/
def execTone (pcm : List Byte) (s : State) : Host.Outcome State Fault Refusal :=
  .next <| s.respond { status := .ok, events := 0, payload := tobe 2 (Config.toneDetect pcm).toNat }

/-- The codeword TXPCM packs (45_tone.md R263): the tone codeword if a tone is detected, else the vocoder's answer. -/
def txCodeword (pcm voc : List Byte) : List Byte :=
  if Config.toneDetect pcm ≠ 0 then (Config.toneCodeword (Config.toneDetect pcm)).toList else voc

/-- The event TXPCM adds (45_tone.md R263). -/
def txEvents (pcm : List Byte) : Byte := if Config.toneDetect pcm ≠ 0 then evToneSubst else 0

/-- TXPCM (45_tone.md R263): classify, choose the codeword, encrypt, pack; it fails as `PackOne` fails. -/
def execTxpcm (ch : Byte) (f : Bool) (pcm voc : List Byte) (s : State) : Host.Outcome State Fault Refusal :=
  .next <| s.onChannel ch fun c =>
    match c.packOne s.keys (txCodeword pcm voc) f with
    | .error st => c.fail st
    | .ok x =>
      (x.1, { status := x.2.status
              events := x.2.events ||| txEvents pcm
              payload := tobe 2 (Config.toneDetect pcm).toNat ++ x.2.payload })

end Sys2Proof.Machine
end

