-- ==== Sys2Proof/Machine/Tracker.lean ====
section
/-! DEFINITION. The call tracker and channel control (44_call_tracker.md): RXFRAME, ESYNC, SELECT, ENCCFG, WRSEQ,
CHRESET, RDSTAT, NOP and the procedures `CallStart`, `CallEnd`, `SessionReset`. -/

namespace Sys2Proof.Machine

/-- `SessionReset(c)` (44_call_tracker.md R228). -/
def Channel.sessionReset (c : Channel) : Channel :=
  { c with
    ctxAlg := 0, ctxKeyId := 0, ctxPhase := .phase1, ctxMi := zeros 9
    ks := Memory.clear, ksLen := 0, ctxStatus := .notPrepared, cursor := 0
    ldu1 := Memory.clear, ldu2 := Memory.clear, p25n := 0
    frameErr := false, imbeErrs := 0 }

/-- `CallStart(c, duid, E, streamId, srcId, dstId, time)` (44_call_tracker.md R222). -/
def Channel.callStart (duid : Byte) (e : Bool) (streamId srcId dstId : U32) (time : U64) (c : Channel) : Channel :=
  { c with
    callState := .receiving
    sStream := streamId, sSrc := srcId, sDst := dstId, sStart := time, sFType := duid, sEmerg := e, sEnc := false
    ctxMi := zeros 9, ksLen := 0, ctxStatus := .notPrepared, cursor := 0
    frameErr := false }

/-- `CallEnd(c, time)` (44_call_tracker.md R223). -/
def Channel.callEnd (time : U64) (c : Channel) : Channel :=
  { c with sDuration := time - c.sStart, callState := .idle }.sessionReset

/-- The slot status (44_call_tracker.md R224). -/
def Channel.slotStatus (duid : Byte) (streamId : U32) (time : U64) (c : Channel) : Channel :=
  { c with rxStream := streamId, rxFType := duid, rxTime := time }

/-- RXFRAME on a channel (44_call_tracker.md R221, R225). -/
def Channel.rxFrame (duid : Byte) (e : Bool) (streamId srcId dstId : U32) (time : U64) (c : Channel) :
    Channel × Response :=
  if c.selected = false ∧ c.callState = .idle then c.fail .ignored
  else if streamId ≠ c.rxStream ∧ isTerminator duid = false then
    ((c.callStart duid e streamId srcId dstId time).slotStatus duid streamId time,
      { status := .ok, events := evCallStart, payload := [] })
  else if isTerminator duid = true ∧ c.callState = .receiving then
    ((c.callEnd time).slotStatus duid streamId time,
      { status := .ok, events := evCallEnd, payload := tobe 8 (c.callEnd time).sDuration.toNat })
  else (c.slotStatus duid streamId time).done

/-- RXFRAME (44_call_tracker.md R221). -/
def execRxframe (ch duid : Byte) (e : Bool) (streamId srcId dstId : U32) (time : U64) (s : State) :
    Host.Outcome State Fault Refusal :=
  .next <| s.onChannel ch fun c => c.rxFrame duid e streamId srcId dstId time

/-- `isEncrypted` of an encryption sync (44_call_tracker.md R227). -/
def syncEncrypted (alg : Byte) (keyId : U16) : Bool := alg != 0 && keyId != 0

/-- ESYNC (44_call_tracker.md R226). -/
def execEsync (ch alg : Byte) (keyId : U16) (phase : Byte) (mi : List Byte) (s : State) :
    Host.Outcome State Fault Refusal :=
  .next <| s.onChannel ch fun c =>
    if 2 ≤ phase.toNat then c.fail .badOperand
    else
      let c1 := { c with sEnc := syncEncrypted alg keyId }
      if syncEncrypted alg keyId then
        let c' := c1.prepare s.keys alg keyId (Phase.ofByte phase) mi
        (c', { status := c'.ctxStatus, events := 0, payload := [] })
      else c1.done

/-- SELECT (44_call_tracker.md R230). -/
def execSelect (ch : Byte) (value : Bool) (s : State) : Host.Outcome State Fault Refusal :=
  .next <| s.onChannel ch fun c => { c with selected := value }.done

/-- ENCCFG (44_call_tracker.md R231). -/
def execEnccfg (ch : Byte) (value : Bool) (s : State) : Host.Outcome State Fault Refusal :=
  .next <| s.onChannel ch fun c => { c with txEnc := value }.done

/-- WRSEQ (44_call_tracker.md R232). -/
def execWrseq (ch : Byte) (seqNo : U32) (s : State) : Host.Outcome State Fault Refusal :=
  .next <| s.onChannel ch fun c => { c with seqNo := seqNo }.done

/-- CHRESET (44_call_tracker.md R233). -/
def execChreset (ch : Byte) (s : State) : Host.Outcome State Fault Refusal :=
  .next <| s.onChannel ch fun c => c.sessionReset.done

/-- The 72-byte status block of RDSTAT (44_call_tracker.md R234), multi-byte fields big-endian. -/
def Channel.statusBlock (c : Channel) : List Byte :=
  [c.ctxStatus.code, c.ctxAlg] ++ tobe 2 c.ctxKeyId.toNat ++ [c.ctxPhase.code] ++ c.ctxMi ++ tobe 2 c.ksLen.toNat ++
    tobe 4 c.cursor.toNat ++ [c.p25n] ++ tobe 4 c.seqNo.toNat ++ [c.flagsByte] ++ tobe 4 c.sSrc.toNat ++
    tobe 4 c.sDst.toNat ++ tobe 4 c.sStream.toNat ++ tobe 8 c.sStart.toNat ++ tobe 8 c.sDuration.toNat ++
    [c.sFType] ++ tobe 4 c.rxStream.toNat ++ [c.rxFType] ++ tobe 8 c.rxTime.toNat ++ tobe 4 c.imbeErrs.toNat

/-- RDSTAT (44_call_tracker.md R234): reads only. -/
def execRdstat (ch : Byte) (s : State) : Host.Outcome State Fault Refusal :=
  .next <| s.onChannel ch fun c => (c, { status := .ok, events := 0, payload := c.statusBlock })

/-- NOP (44_call_tracker.md R236). -/
def execNop (s : State) : Host.Outcome State Fault Refusal := .next <| s.respond Response.done

end Sys2Proof.Machine
end

