-- ==== Sys2Proof/Machine/Dispatch.lean ====
section
/-! DEFINITION. The meaning of each command, one arm per constructor of `Instr` (30_encoding.md R86). -/

namespace Sys2Proof.Machine

def exec (i : Instr) (s : State) : Host.Outcome State Fault Refusal :=
  match i with
  | .nop => Sys2Proof.Machine.execNop s
  | .addkey keyId alg key => Sys2Proof.Machine.execAddkey keyId alg key s
  | .prepare ch alg keyId phase mi => Sys2Proof.Machine.execPrepare ch alg keyId phase mi s
  | .cyclemi ch => Sys2Proof.Machine.execCyclemi ch s
  | .expandiv mi => Sys2Proof.Machine.execExpandiv mi s
  | .process ch ft idx cw => Sys2Proof.Machine.execProcess ch ft idx cw s
  | .pack ch f cw => Sys2Proof.Machine.execPack ch f cw s
  | .unpack ch ft v f buf voc => Sys2Proof.Machine.execUnpack ch ft v f buf voc s
  | .tone pcm => Sys2Proof.Machine.execTone pcm s
  | .txpcm ch f pcm voc => Sys2Proof.Machine.execTxpcm ch f pcm voc s
  | .rxframe ch duid e streamId srcId dstId time => Sys2Proof.Machine.execRxframe ch duid e streamId srcId dstId time s
  | .esync ch alg keyId phase mi => Sys2Proof.Machine.execEsync ch alg keyId phase mi s
  | .select ch value => Sys2Proof.Machine.execSelect ch value s
  | .enccfg ch value => Sys2Proof.Machine.execEnccfg ch value s
  | .wrseq ch seqNo => Sys2Proof.Machine.execWrseq ch seqNo s
  | .chreset ch => Sys2Proof.Machine.execChreset ch s
  | .rdstat ch => Sys2Proof.Machine.execRdstat ch s

end Sys2Proof.Machine
end

