-- ==== Sys2Proof/WellFormed.lean ====
section
/-! DEFINITION. Which terms of `Instr` are commands: those whose byte operands have the lengths 30_encoding.md R84 and
R85 give. Nothing else is checked: every field value has a defined response (00_scope.md R12). -/

namespace Sys2Proof

/-- A vocoder answer of the length 30_encoding.md R85 gives. -/
def VocAnswer.wf (a : VocAnswer) : Bool := a.pcm.length == Machine.pcmLen

/-- The command can be encoded (30_encoding.md R84, R85; the key length by 00_scope.md R6). -/
def Instr.wf : Instr → Bool
  | .nop => true
  | .addkey _ _ key => decide (key.length ≤ Config.keyLenMax)
  | .prepare _ _ _ _ mi => mi.length == 9
  | .cyclemi _ => true
  | .expandiv mi => mi.length == 8
  | .process _ ft _ cw => cw.length == Machine.cwLenOf ft
  | .pack _ _ cw => cw.length == Machine.cwLen
  | .unpack _ _ _ _ buf voc => buf.length == Machine.lduLen && voc.length == 9 && voc.all VocAnswer.wf
  | .tone pcm => pcm.length == Machine.pcmLen
  | .txpcm _ _ pcm voc => pcm.length == Machine.pcmLen && voc.length == Machine.cwLen
  | .rxframe _ _ _ _ _ _ _ => true
  | .esync _ _ _ _ mi => mi.length == 9
  | .select _ _ => true
  | .enccfg _ _ => true
  | .wrseq _ _ => true
  | .chreset _ => true
  | .rdstat _ => true

end Sys2Proof
end

