-- ==== Sys2Proof/Decode.lean ====
section
/-! DEFINITION. The decoder of 30_encoding.md (R80 to R87, R90, R91), total on any bytes, and the encoder written from
the same tables. -/

namespace Sys2Proof

open Machine

/-- What the bytes of the command port hold at their head. -/
inductive Decoded where
  /-- A command; `rest` is what follows it on the port, `vocUsed` the number of vocoder bytes it takes. -/
  | command (i : Instr) (rest : List Byte) (vocUsed : Nat)
  /-- A command word with a reserved opcode, which takes no payload (30_encoding.md R90); answered IllegalCommand. -/
  | illegalCommand (rest : List Byte)
  /-- The host has not issued a whole command yet. -/
  | incomplete
deriving DecidableEq, Repr

/-- The nine vocoder answers of UNPACK from the vocoder bytes (30_encoding.md R85). -/
def vocAnswersOf (voc : List Byte) : List VocAnswer :=
  (List.range 9).map fun k =>
    { pcm := slice voc (vocAnswerLen * k) pcmLen
      errs := BitVec.ofNat 32 (be (slice voc (vocAnswerLen * k + pcmLen) 4)) }

/-- The command of a word `op ch a b` (30_encoding.md R80, R86), its payload `p` of the length `payloadLen` gives (R84)
and the vocoder bytes `voc` (R85); `none` for a reserved opcode (R90). `imm16 = a ‖ b` (R80); flag bits by R83. -/
def commandOf (op ch a b : Byte) (p voc : List Byte) : Option Instr :=
  match op.toNat with
  | 0x00 => some .nop
  | 0x01 => some (.addkey (a ++ b) (p.getD 0 0) (slice p 2 (p.length - 2)))
  | 0x02 => some (.prepare ch (p.getD 0 0) (BitVec.ofNat 16 (be (slice p 1 2))) (p.getD 3 0) (slice p 4 9))
  | 0x03 => some (.cyclemi ch)
  | 0x04 => some (.expandiv (slice p 0 8))
  | 0x05 => some (.process ch a b (slice p 0 (cwLenOf a)))
  | 0x06 => some (.pack ch (a.getLsbD 0) (slice p 0 cwLen))
  | 0x07 => some (.unpack ch a (b.getLsbD 0) (b.getLsbD 1) (slice p 0 lduLen) (vocAnswersOf voc))
  | 0x08 => some (.tone (slice p 0 pcmLen))
  | 0x09 => some (.txpcm ch (a.getLsbD 0) (slice p 0 pcmLen) (slice voc 0 cwLen))
  | 0x0A => some (.rxframe ch a (b.getLsbD 0) (BitVec.ofNat 32 (be (slice p 0 4))) (BitVec.ofNat 32 (be (slice p 4 4)))
      (BitVec.ofNat 32 (be (slice p 8 4))) (BitVec.ofNat 64 (be (slice p 12 8))))
  | 0x0B => some (.esync ch (p.getD 0 0) (BitVec.ofNat 16 (be (slice p 1 2))) (p.getD 3 0) (slice p 4 9))
  | 0x0C => some (.select ch (b.getLsbD 0))
  | 0x0D => some (.enccfg ch (b.getLsbD 0))
  | 0x0E => some (.wrseq ch (BitVec.ofNat 32 (be (slice p 0 4))))
  | 0x0F => some (.chreset ch)
  | 0x10 => some (.rdstat ch)
  | _ => none

/-- Decode the head of the command port (30_encoding.md R87 steps 1 and 2): the word, most significant byte first (R80),
then the payload of the length R84 gives. `voc` are the vocoder bytes the command may draw from. -/
def decode (bytes voc : List Byte) : Decoded :=
  match bytes with
  | op :: ch :: a :: b :: rest =>
    match payloadLen op a rest with
    | none => .incomplete
    | some n =>
      if rest.length < n then .incomplete
      else match commandOf op ch a b (rest.take n) voc with
        | some i => .command i (rest.drop n) (vocLen op)
        | none => .illegalCommand (rest.drop n)
  | _ => .incomplete

/-- The bytes of a command on the command port: the word, most significant byte first (30_encoding.md R80), unused
fields and flag bits zero (R81), flags by R83, then the payload (R84). -/
def encode : Instr → List Byte
  | .nop => [0x00, 0, 0, 0]
  | .addkey keyId alg key => [0x01, 0] ++ tobe 2 keyId.toNat ++ [alg, BitVec.ofNat 8 key.length] ++ key
  | .prepare ch alg keyId phase mi => [0x02, ch, 0, 0, alg] ++ tobe 2 keyId.toNat ++ [phase] ++ mi
  | .cyclemi ch => [0x03, ch, 0, 0]
  | .expandiv mi => [0x04, 0, 0, 0] ++ mi
  | .process ch ft idx cw => [0x05, ch, ft, idx] ++ cw
  | .pack ch f cw => [0x06, ch, bitAt 0 f, 0] ++ cw
  | .unpack ch ft v f buf _ => [0x07, ch, ft, bitAt 0 v ||| bitAt 1 f] ++ buf
  | .tone pcm => [0x08, 0, 0, 0] ++ pcm
  | .txpcm ch f pcm _ => [0x09, ch, bitAt 0 f, 0] ++ pcm
  | .rxframe ch duid e streamId srcId dstId time =>
    [0x0A, ch, duid, bitAt 0 e] ++ tobe 4 streamId.toNat ++ tobe 4 srcId.toNat ++ tobe 4 dstId.toNat ++ tobe 8 time.toNat
  | .esync ch alg keyId phase mi => [0x0B, ch, 0, 0, alg] ++ tobe 2 keyId.toNat ++ [phase] ++ mi
  | .select ch value => [0x0C, ch, 0, bitAt 0 value]
  | .enccfg ch value => [0x0D, ch, 0, bitAt 0 value]
  | .wrseq ch seqNo => [0x0E, ch, 0, 0] ++ tobe 4 seqNo.toNat
  | .chreset ch => [0x0F, ch, 0, 0]
  | .rdstat ch => [0x10, ch, 0, 0]

/-- The bytes of a command's vocoder answers on the vocoder port (30_encoding.md R85; layout: log entry 4). -/
def encodeVoc : Instr → List Byte
  | .unpack _ _ _ _ _ voc => voc.flatMap fun x => x.pcm ++ tobe 4 x.errs.toNat
  | .txpcm _ _ _ voc => voc
  | _ => []

/-- The bytes that an opcode-table word stands for (spec/opcode_table.json numbers the bits of the 32-bit command word;
the word goes out most significant byte first, 30_encoding.md R80), then its payload bytes: bits above `nbits` are
zero, up to the longest payload. -/
def tableBytes (nbits w : Nat) : List Byte :=
  let v := w % 2 ^ nbits
  tobe 4 v ++ (List.range pcmLen).map fun k => BitVec.ofNat 8 (v >>> (32 + 8 * k))

/-- The vocoder bytes that go with `tableBytes`: zeros, enough for every command. -/
def tableVoc : List Byte := zeros (9 * vocAnswerLen)

/-- The instruction the decoder reads from an opcode-table word. -/
def decodeTableWord (nbits w : Nat) : Option Instr :=
  match decode (tableBytes nbits w) tableVoc with
  | .command i _ _ => some i
  | .illegalCommand _ => none
  | .incomplete => none

end Sys2Proof
end

