-- ==== Sys2Proof/Machine/Fetch.lean ====
section
/-! DEFINITION. How a step takes its command from the ports (30_encoding.md R80, R85, R87; log entries 1, 4, 5). -/

namespace Sys2Proof.Machine

/-- The vocoder bytes a command may draw from: those on the vocoder port, then free values (00_scope.md R13), enough for
every command. -/
def State.vocSupply (s : State) : List Byte :=
  s.vocPort ++ (List.range (9 * vocAnswerLen)).map fun k => Config.vocoderByte (s.draw + k)

/-- The command at the head of the command port. -/
def State.fetch (s : State) : Decoded := decode s.port s.vocSupply

/-- The ports after a command was taken: `rest` stays on the command port, `vocUsed` vocoder bytes are gone, those the
port did not hold were drawn. -/
def State.advance (s : State) (rest : List Byte) (vocUsed : Nat) : State :=
  { s with port := rest, vocPort := s.vocPort.drop vocUsed, draw := s.draw + (vocUsed - s.vocPort.length) }

/-- The answer to a reserved opcode (30_encoding.md R87, R90): IllegalCommand, the word alone is taken, no state of CORE
is written. -/
def State.illegal (s : State) (rest : List Byte) : State := (s.advance rest 0).fail .illegalCommand

/-- The state whose ports hold exactly the instruction of an opcode-table word, its operands above `nbits` zero. -/
def State.withTableWord (s : State) (nbits w : Nat) : State :=
  { s with port := tableBytes nbits w, vocPort := tableVoc }

end Sys2Proof.Machine
end

