-- ==== Sys2Proof/Machine/Step.lean ====
section
/-! DEFINITION. One step of CORE is one command (00_scope.md R7). -/

namespace Sys2Proof.Machine

/-- One step: take the command at the head of the command port and run it to completion. A reserved opcode is answered
IllegalCommand. With no whole command on the port CORE does nothing (00_scope.md R7: "it never acts on its own"; log
entry 1). -/
def step (s : State) : Host.Outcome State Fault Refusal :=
  match s.fetch with
  | .command i rest vocUsed => exec i (s.advance rest vocUsed)
  | .illegalCommand rest => .next (s.illegal rest)
  | .incomplete => .next s

/-- `s` with the instruction of an opcode-table word where `step` takes its next command: on the command port, its
vocoder answers on the vocoder port (log entry 2). -/
def State.withFetchWord (s : State) (nbits w : Nat) : State := s.withTableWord nbits w

end Sys2Proof.Machine
end

