-- ==== Sys2Proof/Safety.lean ====
section
/-! DEFINITION. What the claims speak of: the invariants of the machine (10_state.md R24, R25, R27, R29; 20_memory.md
R67), the states a run can reach, the channel a command names, commands in sequence. CORE has no unsafe run: no command
traps (60_exceptions.md R280). -/

namespace Sys2Proof.Machine

/-- An address inside one of the nine codeword fields of an LDU buffer (43_frame_packer.md R190). -/
def InCodewordField (a : Nat) : Prop := ∃ k < 9, lduOff k ≤ a ∧ a < lduOff k + 11

/-- The outcomes of a `Prepare` and the valid length that goes with each (10_state.md R25): `CTX_STATUS` is OK exactly
with a keystream of its algorithm's length. -/
def Channel.StatusLen (c : Channel) : Prop :=
  (c.ctxStatus = .ok ∧ c.ctxAlg = 0xAA ∧ c.ksLen = 469) ∨
  (c.ctxStatus = .ok ∧ c.ctxAlg = 0x84 ∧ c.ksLen = 240) ∨
  ((c.ctxStatus = .notPrepared ∨ c.ctxStatus = .unknownKey ∨ c.ctxStatus = .unsupportedAlgorithm ∨
    c.ctxStatus = .badKeyLength) ∧ c.ksLen = 0)

/-- A valid keystream is one that some key and some MI generate under the context's algorithm (10_state.md R25; the key
and the MI are those of the time of the `Prepare`). -/
def Channel.GenuineKeystream (c : Channel) : Prop :=
  c.ctxStatus = .ok → ∃ key mi : List Byte, (c.ctxAlg = 0x84 → key.length = 32) ∧ mi.length = 9 ∧
    c.ks.readBytes 0 c.ksLen.toNat =
      if c.ctxAlg = 0xAA then rc4Keystream (adpSeed key mi) 469 else aesKeystream key mi

/-- The invariant of a channel. -/
structure Channel.Inv (c : Channel) : Prop where
  /-- `CTX_MI` has nine bytes, the last zero (10_state.md R24). -/
  mi_bytes : c.ctxMi.length = 9
  mi_last : c.ctxMi[8]? = some 0
  /-- `KS` is a canonical space of 469 bytes (20_memory.md R60). -/
  ks_wf : c.ks.wf
  ks_within : c.ks.within 469
  /-- 10_state.md R25. -/
  status_len : c.StatusLen
  genuine : c.GenuineKeystream
  /-- `P25N` in 0..17 (10_state.md R27). -/
  p25n_range : c.p25n.toNat < 18
  /-- The LDU buffers are canonical, and zero outside the codeword fields (10_state.md R29). -/
  ldu1_wf : c.ldu1.wf
  ldu2_wf : c.ldu2.wf
  ldu1_fields : ∀ x ∈ c.ldu1, InCodewordField x.1
  ldu2_fields : ∀ x ∈ c.ldu2, InCodewordField x.1

/-- The invariant of CORE: a canonical key store whose keys are at most 255 bytes (10_state.md R22), between 1 and 256
channels (00_scope.md R6), each meeting its invariant. -/
structure State.Inv (s : State) : Prop where
  keys_wf : s.keys.wf
  keys_len : ∀ e ∈ s.keys, e.2.keyBytes.length ≤ 255
  nch_pos : 1 ≤ s.chans.length
  nch_max : s.chans.length ≤ 256
  chan : ∀ c ∈ s.chans, c.Inv

/-- The states CORE can be in, whatever the host and the vocoder do: reset with some number of channels, a step, command
bytes issued, vocoder bytes answered (00_scope.md R7, 70_reset_and_hazards.md R310). -/
inductive Reachable : State → Prop where
  | reset (nch : Nat) (pos : 1 ≤ nch) (max : nch ≤ 256) : Reachable (State.resetWith nch)
  | step (s t : State) (from_s : Reachable s) (run : Machine.step s = .next t) : Reachable t
  | issue (s : State) (bytes : List Byte) (from_s : Reachable s) : Reachable { s with port := s.port ++ bytes }
  | answer (s : State) (bytes : List Byte) (from_s : Reachable s) : Reachable { s with vocPort := s.vocPort ++ bytes }

/-- The channel a command names in its `ch` field (30_encoding.md R86); `none` for the four commands without one. -/
def channelOf : Instr → Option Byte
  | .nop => none
  | .addkey _ _ _ => none
  | .prepare ch _ _ _ _ => some ch
  | .cyclemi ch => some ch
  | .expandiv _ => none
  | .process ch _ _ _ => some ch
  | .pack ch _ _ => some ch
  | .unpack ch _ _ _ _ _ => some ch
  | .tone _ => none
  | .txpcm ch _ _ _ => some ch
  | .rxframe ch _ _ _ _ _ _ => some ch
  | .esync ch _ _ _ _ => some ch
  | .select ch _ => some ch
  | .enccfg ch _ => some ch
  | .wrseq ch _ => some ch
  | .chreset ch => some ch
  | .rdstat ch => some ch

/-- Commands executed one after the other (20_memory.md R70), stopping where one does not answer a next state. -/
def execAll : List Instr → State → Host.Outcome State Fault Refusal
  | [], s => .next s
  | i :: is, s =>
    match exec i s with
    | .next t => execAll is t
    | .fault r => .fault r
    | .refused r => .refused r

/-- `s` with channel `ch` at `c` and the response `r`: what a command of channel `ch` may change (10_state.md R36). -/
def State.answered (s : State) (ch : Byte) (c : Channel) (r : Response) : State :=
  { s with chans := s.chans.set ch.toNat c, resp := some r }

/-- The crypto status of the next codeword that `PackOne` places (43_frame_packer.md R192, 42_crypto_processor.md R175):
OK in a clear channel, else the stored outcome of the last `Prepare`, else BadOperand in a Phase 2 context. -/
def Channel.packStatus (c : Channel) : Status :=
  if c.txEnc = false then .ok
  else if c.ctxStatus ≠ .ok then c.ctxStatus
  else if c.ctxPhase = .phase2 then .badOperand
  else .ok

/-- The crypto status of an UNPACK (43_frame_packer.md R197), by the session's gate `S_ENC`. -/
def Channel.rxStatus (c : Channel) : Status :=
  if c.sEnc = false then .ok
  else if c.ctxStatus ≠ .ok then c.ctxStatus
  else if c.ctxPhase = .phase2 then .badOperand
  else .ok

end Sys2Proof.Machine
end

