-- ==== Sys2Proof/Certificates/Slice0/Obligations.lean ====
section
/-! DEFINITION. The statements for the provers, from the numbered rules of spec/. Where a statement rests on a passage
that the spec marks as its own inference or as general knowledge, or on a choice of the model, its docstring says so. -/

open Sys2Proof Sys2Proof.Machine

/-! ## Encoding -/

/-- Decoding the encoding of a well-formed command gives the command back, with every operand at every value its
encoding admits, whatever follows it on the two ports (30_encoding.md R80, R82 to R86). The layout of the vocoder port is
the model's (log entry 4). -/
def Obligations.DecodeEncodeRoundTrip : Prop :=
  ∀ (i : Instr), i.wf = true → ∀ rest vrest : List Byte,
    decode (encode i ++ rest) (encodeVoc i ++ vrest) = .command i rest (encodeVoc i).length

/-- What the decoder gives is a command whose operands have the lengths of 30_encoding.md R84 and R85. -/
def Obligations.DecodedCommandsAreWellFormed : Prop :=
  ∀ (bytes voc : List Byte) (i : Instr) (rest : List Byte) (n : Nat),
    decode bytes voc = .command i rest n → i.wf = true

/-- A decoded command took exactly its word and the payload whose length 30_encoding.md R84 gives from `op`, from the
`len` byte for ADDKEY and from field `a` for PROCESS. -/
def Obligations.DecodeTakesWordAndPayload : Prop :=
  ∀ (bytes voc : List Byte) (i : Instr) (rest : List Byte) (n : Nat),
    decode bytes voc = .command i rest n →
    ∃ (op ch a b : Byte) (payload : List Byte),
      bytes = op :: ch :: a :: b :: (payload ++ rest) ∧ op.toNat ≤ 0x10 ∧
      (op = 0x00 ∨ op = 0x03 ∨ op = 0x0C ∨ op = 0x0D ∨ op = 0x0F ∨ op = 0x10 → payload.length = 0) ∧
      (op = 0x01 → ∃ len : Byte, payload[1]? = some len ∧ payload.length = 2 + len.toNat) ∧
      (op = 0x02 ∨ op = 0x0B → payload.length = 13) ∧
      (op = 0x04 → payload.length = 8) ∧
      (op = 0x05 → payload.length = if a.toNat ≤ 1 then 11 else if a.toNat ≤ 6 then 7 else 0) ∧
      (op = 0x06 → payload.length = 11) ∧
      (op = 0x07 → payload.length = 225) ∧
      (op = 0x08 ∨ op = 0x09 → payload.length = 320) ∧
      (op = 0x0A → payload.length = 20) ∧
      (op = 0x0E → payload.length = 4)

/-- Fields a command does not use, and flag bits that 30_encoding.md R83 does not name, select nothing (R81): two words
that agree on the fields of R86 decode alike. -/
def Obligations.UnusedFieldsSelectNothing : Prop :=
  ∀ (op ch ch' a a' b b' : Byte) (rest voc : List Byte),
    (op ≠ 0x00 → op ≠ 0x01 → op ≠ 0x04 → op ≠ 0x08 → ch = ch') →
    (op = 0x01 ∨ op = 0x05 ∨ op = 0x07 ∨ op = 0x0A → a = a') →
    (op = 0x06 ∨ op = 0x09 → a.getLsbD 0 = a'.getLsbD 0) →
    (op = 0x01 ∨ op = 0x05 → b = b') →
    (op = 0x07 ∨ op = 0x0A ∨ op = 0x0C ∨ op = 0x0D → b.getLsbD 0 = b'.getLsbD 0) →
    (op = 0x07 → b.getLsbD 1 = b'.getLsbD 1) →
    decode (op :: ch :: a :: b :: rest) voc = decode (op :: ch' :: a' :: b' :: rest) voc

/-- Words of 95_test_vectors.md V1, written out there from the encoding of 30_encoding.md, decode to the commands they
stand for. -/
def Obligations.WordsDecodeAsWritten : Prop :=
  decode [0x01, 0x00, 0x00, 0x07, 0xAA, 0x05, 0x01, 0x02, 0x03, 0x04, 0x05] [] =
    .command (.addkey 7 0xAA [1, 2, 3, 4, 5]) [] 0 ∧
  decode [0x05, 0x00, 0x01, 0x08, 0, 1, 2, 3, 4, 5, 6, 7, 8, 9, 10] [] =
    .command (.process 0 1 8 [0, 1, 2, 3, 4, 5, 6, 7, 8, 9, 10]) [] 0 ∧
  decode [0x06, 0x00, 0x01, 0x00, 0, 1, 2, 3, 4, 5, 6, 7, 8, 9, 10] [] =
    .command (.pack 0 true [0, 1, 2, 3, 4, 5, 6, 7, 8, 9, 10]) [] 0 ∧
  decode [0x0C, 0x02, 0x00, 0x01] [] = .command (.select 2 true) [] 0

/-! ## The step -/

/-- A step runs the decoded command: when the bytes on the command port decode to a command, the step is `exec` of it on
the state whose ports have given up the command's bytes (00_scope.md R7; the ports are the model's, log entries 1, 4, 5). -/
def Obligations.StepRunsDecodedCommand : Prop :=
  ∀ (s : State) (i : Instr) (rest : List Byte) (n : Nat),
    decode s.port s.vocSupply = .command i rest n →
    step s = exec i { s with port := rest, vocPort := s.vocPort.drop n, draw := s.draw + (n - s.vocPort.length) }

/-- A well-formed command that stands encoded on the command port, its vocoder answers on the vocoder port, is what the
next step runs (00_scope.md R7, 30_encoding.md R80; log entries 1, 4). -/
def Obligations.StepRunsEncodedCommand : Prop :=
  ∀ (s : State) (i : Instr) (rest vrest : List Byte), i.wf = true →
    s.port = encode i ++ rest → s.vocPort = encodeVoc i ++ vrest →
    step s = exec i { s with port := rest, vocPort := vrest }

/-- With no whole command on the port CORE does nothing. DESIGN CHOICE of log entry 1, after 00_scope.md R7 ("it never
acts on its own"). -/
def Obligations.NoCommandNoChange : Prop :=
  ∀ s : State, decode s.port s.vocSupply = .incomplete → step s = .next s

/-- A reserved opcode is answered IllegalCommand: the word alone is taken, nothing of CORE is written (30_encoding.md
R90, 60_exceptions.md R281). -/
def Obligations.ReservedOpcodeAnswered : Prop :=
  ∀ (s : State) (op ch a b : Byte) (rest : List Byte), 0x11 ≤ op.toNat →
    s.port = op :: ch :: a :: b :: rest →
    step s = .next { s with port := rest, resp := some { status := .illegalCommand, events := 0, payload := [] } } ∧
    Status.illegalCommand.code = 0x09

/-- No command traps: every command completes and gives exactly one response (60_exceptions.md R280, 00_scope.md R12).
And every step answers a next state: that no step stops is DEDUCED, log entry 10, and that a step with no whole command on
the port answers one too is the DESIGN CHOICE of log entry 1. -/
def Obligations.EveryCommandAnswers : Prop :=
  (∀ (i : Instr) (s : State), ∃ t r, exec i s = .next t ∧ t.resp = some r) ∧ ∀ s : State, ∃ t, step s = .next t

/-! ## Reset and invariants -/

/-- The state right after reset, every piece of it, for every number of channels (70_reset_and_hazards.md R311; the
number of channels of `State.reset` itself is log entry 6). -/
def Obligations.ResetState : Prop :=
  State.reset = State.resetWith State.reset.chans.length ∧ ∀ nch : Nat,
    (∀ k, (State.resetWith nch).keys.find k = none) ∧ (State.resetWith nch).chans.length = nch ∧
    ∀ c ∈ (State.resetWith nch).chans,
      c.ctxAlg = 0 ∧ c.ctxKeyId = 0 ∧ c.ctxPhase.code = 0 ∧ c.ctxMi = [0, 0, 0, 0, 0, 0, 0, 0, 0] ∧
      (∀ a, c.ks.read a = 0) ∧ c.ksLen = 0 ∧ c.ctxStatus.code = 0x05 ∧ c.cursor = 0 ∧ c.p25n = 0 ∧ c.seqNo = 0 ∧
      (∀ a, c.ldu1.read a = 0) ∧ (∀ a, c.ldu2.read a = 0) ∧ c.callState = .idle ∧ c.sSrc = 0 ∧ c.sDst = 0 ∧
      c.sStream = 0 ∧ c.sStart = 0 ∧ c.sDuration = 0 ∧ c.sFType = 0 ∧ c.sEnc = false ∧ c.sEmerg = false ∧
      c.rxStream = 0 ∧ c.rxFType = 0 ∧ c.rxTime = 0 ∧ c.imbeErrs = 0 ∧ c.frameErr = false ∧ c.selected = false ∧
      c.txEnc = false

/-- The state right after reset meets the invariant (10_state.md R22, R24, R25, R27, R29). -/
def Obligations.ResetMeetsInvariant : Prop :=
  State.reset.Inv ∧ ∀ nch : Nat, 1 ≤ nch → nch ≤ 256 → (State.resetWith nch).Inv

/-- Every step keeps the invariant: MI byte 8 zero, the keystream valid exactly under status OK and then generated by
some key and MI, `P25N` in 0..17, the buffers inside their sizes and zero outside the codeword fields, the stores in
canonical form (10_state.md R22, R24, R25, R27, R29; 20_memory.md R67). -/
def Obligations.StepKeepsInvariant : Prop :=
  ∀ s t : State, s.Inv → step s = .next t → t.Inv

/-- Every state CORE can be in meets the invariant, whatever the host and the vocoder do (10_state.md R24: "in every
reachable state"). -/
def Obligations.ReachableStatesMeetInvariant : Prop :=
  ∀ s : State, Reachable s → s.Inv

/-! ## Channels, checks, statuses, events -/

/-- A command reads and writes the per-channel state of the channel it names only, and the key store; a command that
names no channel touches none (10_state.md R36). -/
def Obligations.CommandsStayInTheirChannel : Prop :=
  (∀ (i : Instr) (ch : Byte) (s t : State), channelOf i = some ch → exec i s = .next t →
    t.keys = s.keys ∧ t.port = s.port ∧ t.vocPort = s.vocPort ∧ t.draw = s.draw ∧
    t.chans.length = s.chans.length ∧ (∀ d, d ≠ ch.toNat → t.chans[d]? = s.chans[d]?) ∧
    ∀ s' t' : State, s'.keys = s.keys → s'.chans[ch.toNat]? = s.chans[ch.toNat]? → exec i s' = .next t' →
      t'.resp = t.resp ∧ t'.chans[ch.toNat]? = t.chans[ch.toNat]?) ∧
  ∀ (i : Instr) (s t : State), channelOf i = none → exec i s = .next t →
    t.chans = s.chans ∧ t.port = s.port ∧ t.vocPort = s.vocPort ∧ t.draw = s.draw ∧
    ∀ s' t' : State, s'.keys = s.keys → exec i s' = .next t' → t'.resp = t.resp ∧ t'.keys = t.keys

/-- A command that names a channel with `ch >= NCH` fails with BadChannel, before its operand checks, and writes no state
(30_encoding.md R87 step 3, 60_exceptions.md R285). -/
def Obligations.BadChannelAnswered : Prop :=
  ∀ (i : Instr) (ch : Byte) (s : State), channelOf i = some ch → s.chans.length ≤ ch.toNat →
    exec i s = .next { s with resp := some { status := .badChannel, events := 0, payload := [] } }

/-- Reserved field values of PREPARE, ESYNC, PROCESS and UNPACK on a channel that exists fail with BadOperand and write
no state (30_encoding.md R90). -/
def Obligations.ReservedFieldsAnswered : Prop :=
  ∀ (s : State) (ch : Byte), ch.toNat < s.chans.length →
    (∀ alg keyId phase mi, 2 ≤ phase.toNat →
      exec (.prepare ch alg keyId phase mi) s =
        .next { s with resp := some { status := .badOperand, events := 0, payload := [] } } ∧
      exec (.esync ch alg keyId phase mi) s =
        .next { s with resp := some { status := .badOperand, events := 0, payload := [] } }) ∧
    (∀ ft idx cw, 7 ≤ ft.toNat →
      exec (.process ch ft idx cw) s =
        .next { s with resp := some { status := .badOperand, events := 0, payload := [] } }) ∧
    (∀ ft v f buf voc, 2 ≤ ft.toNat →
      exec (.unpack ch ft v f buf voc) s =
        .next { s with resp := some { status := .badOperand, events := 0, payload := [] } })

/-- Which command can return which status (60_exceptions.md R284, which the spec marks as derived from the command
rules), in states that meet the invariant. -/
def Obligations.StatusesOfEachCommand : Prop :=
  ∀ (i : Instr) (s t : State) (r : Response), s.Inv → exec i s = .next t → t.resp = some r →
    match i with
    | .nop | .addkey _ _ _ | .expandiv _ | .tone _ => r.status = .ok
    | .prepare _ _ _ _ _ | .esync _ _ _ _ _ =>
      r.status ∈ [.ok, .unknownKey, .unsupportedAlgorithm, .badKeyLength, .badOperand, .badChannel]
    | .cyclemi _ | .select _ _ | .enccfg _ _ | .wrseq _ _ | .chreset _ | .rdstat _ => r.status ∈ [.ok, .badChannel]
    | .process _ _ _ _ | .pack _ _ _ | .txpcm _ _ _ _ =>
      r.status ∈ [.ok, .unknownKey, .unsupportedAlgorithm, .notPrepared, .badKeyLength, .badOperand, .badChannel]
    | .unpack _ _ _ _ _ _ =>
      r.status ∈ [.ok, .unknownKey, .unsupportedAlgorithm, .vocoderDecodeError, .malformedFrame, .notPrepared,
        .badKeyLength, .badOperand, .badChannel]
    | .rxframe _ _ _ _ _ _ _ => r.status ∈ [.ok, .ignored, .badChannel]

/-- The events each command can raise (60_exceptions.md R290): LDU1_READY 0x01, LDU2_READY 0x02, CALL_START 0x04,
CALL_END 0x08, PCM_OUT 0x10, MI_CYCLED 0x20, TONE_SUBST 0x40; bit 7 never. -/
def Obligations.EventsOfEachCommand : Prop :=
  ∀ (i : Instr) (s t : State) (r : Response), exec i s = .next t → t.resp = some r →
    match i with
    | .cyclemi _ => r.events = 0x20 ∨ (r.events = 0 ∧ r.status = .badChannel)
    | .pack _ _ _ => r.events ∈ [0, 0x01, 0x22]
    | .txpcm _ _ _ _ => r.events ∈ [0, 0x01, 0x22, 0x40, 0x41, 0x62]
    | .unpack _ _ _ _ _ _ => r.events ∈ [0, 0x10, 0x30]
    | .rxframe _ _ _ _ _ _ _ => r.events ∈ [0, 0x04, 0x08]
    | .nop | .addkey _ _ _ | .prepare _ _ _ _ _ | .expandiv _ | .process _ _ _ _ | .tone _ | .esync _ _ _ _ _
    | .select _ _ | .enccfg _ _ | .wrseq _ _ | .chreset _ | .rdstat _ => r.events = 0

/-- The status codes are those of 60_exceptions.md R281 and no two statuses share one. -/
def Obligations.StatusCodesDistinct : Prop :=
  [Status.ok, .unknownKey, .unsupportedAlgorithm, .vocoderDecodeError, .malformedFrame, .notPrepared, .badKeyLength,
    .badOperand, .ignored, .illegalCommand, .badChannel].map Status.code =
    [0x00, 0x01, 0x02, 0x03, 0x04, 0x05, 0x06, 0x07, 0x08, 0x09, 0x0A] ∧
  (∀ x y : Status, x.code = y.code → x = y) ∧ ∀ x : Status, x.code.toNat < 0x0B

/-- The response on the wire: status, events, payload length big-endian, payload (30_encoding.md R88). -/
def Obligations.ResponseWireLayout : Prop :=
  ∀ r : Response, r.payload.length < 65536 →
    ∃ hi lo : Byte, r.wire = r.status.code :: r.events :: hi :: lo :: r.payload ∧
      hi.toNat * 256 + lo.toNat = r.payload.length

/-! ## Byte spaces and byte order -/

/-- `MemRead` and `MemWrite` (20_memory.md R61): what is written is read back, no other byte changes, the canonical form
is kept, and in that form equal contents are equal data. -/
def Obligations.MemoryReadsWhatWasWritten : Prop :=
  (∀ (m : Memory) (addr n i : Nat), (m.readBytes addr n).length = n ∧
    (i < n → (m.readBytes addr n)[i]? = some (m.read (addr + i)))) ∧
  (∀ (m : Memory) (addr : Nat) (v : List Byte), m.wf →
    (m.writeBytes addr v).wf ∧ (m.writeBytes addr v).readBytes addr v.length = v ∧
    ∀ a, (a < addr ∨ addr + v.length ≤ a) → (m.writeBytes addr v).read a = m.read a) ∧
  ∀ m m' : Memory, m.wf → m'.wf → (∀ a, m.read a = m'.read a) → m = m'

/-- The MI is loaded into the LFSR big-endian and written back so (20_memory.md R62): `mi[0]` is bits 63..56, `mi[7]`
bits 7..0. -/
def Obligations.MiRegisterIsBigEndian : Prop :=
  ∀ mi : List Byte, mi.length = 9 → ∀ k, k < 8 →
    mi[k]? = some ((miRegister mi).extractLsb' (8 * (7 - k)) 8) ∧
    ∀ r : U64, (tobe 8 r.toNat)[k]? = some (r.extractLsb' (8 * (7 - k)) 8) ∧
      miRegister (tobe 8 r.toNat ++ [0]) = r

/-- The nine codeword fields of an LDU buffer are at the offsets of 43_frame_packer.md R190, do not overlap, and end at
byte 214 of 225; codeword `k` lies inside record `k` of 25 bytes (R191). -/
def Obligations.CodewordFieldsLayout : Prop :=
  (List.range 9).map lduOff = [10, 26, 55, 80, 105, 130, 155, 180, 204] ∧
  (∀ k, k < 9 → lduOff k + 10 ≤ 214 ∧ 25 * k ≤ lduOff k ∧ lduOff k + 10 ≤ 25 * k + 24) ∧
  ∀ j k, j < k → k < 9 → lduOff j + 11 ≤ lduOff k

/-! ## NOP, ADDKEY -/

/-- NOP ignores its fields, reads and writes no state, and answers (OK, 0, empty) (44_call_tracker.md R236). -/
def Obligations.NopOnlyAnswers : Prop :=
  (∀ (ch a b : Byte) (rest voc : List Byte), decode (0x00 :: ch :: a :: b :: rest) voc = .command .nop rest 0) ∧
  ∀ s : State, exec .nop s = .next { s with resp := some { status := .ok, events := 0, payload := [] } }

/-- ADDKEY takes its key id from the word and its algorithm and key from the payload, replaces the whole record of that
key id whatever stood there, leaves every other record and every channel, and always answers OK (40_keystream.md R110);
the key store keeps its canonical form (10_state.md R22). -/
def Obligations.AddkeyReplacesRecord : Prop :=
  (∀ (ch a b alg len : Byte) (key rest voc : List Byte), key.length = len.toNat →
    decode (0x01 :: ch :: a :: b :: alg :: len :: (key ++ rest)) voc = .command (.addkey (a ++ b) alg key) rest 0) ∧
  ∀ (keyId : U16) (alg : Byte) (key : List Byte) (s : State),
    ∃ keys : KeyStore,
      exec (.addkey keyId alg key) s =
        .next { s with keys := keys, resp := some { status := .ok, events := 0, payload := [] } } ∧
      keys.find keyId = some { alg := alg, keyBytes := key } ∧
      (∀ k, k ≠ keyId → keys.find k = s.keys.find k) ∧
      (s.keys.wf → keys.wf)

/-! ## The keystream engine -/

/-- A successful RC4-ADP `Prepare` (40_keystream.md R113, R114): the context is stored, MI byte 8 forced to zero,
`CURSOR` zeroed, and `KS` holds the 469 bytes that RC4 generates from the seed; nothing else of the channel changes. The
keystream reads through the model's RC4 (R115, from general knowledge by the spec's own mark). -/
def Obligations.PrepareAdpGenerates : Prop :=
  ∀ (keys : KeyStore) (keyId : U16) (r : KeyRecord) (phase : Phase) (mi : List Byte) (c : Channel),
    keys.find keyId = some r → mi.length = 9 →
    ∃ ks : Memory,
      c.prepare keys 0xAA keyId phase mi =
        { c with ctxAlg := 0xAA, ctxKeyId := keyId, ctxPhase := phase, ctxMi := mi.take 8 ++ [0], cursor := 0
                 ks := ks, ksLen := 469, ctxStatus := .ok } ∧
      ks.wf ∧ ks.within 469 ∧
      ks.readBytes 0 469 =
        rc4Keystream ((if 5 ≤ r.keyBytes.length then r.keyBytes.take 5
          else List.replicate (5 - r.keyBytes.length) 0 ++ r.keyBytes) ++ mi.take 8) 469

/-- A successful AES-256 `Prepare` (40_keystream.md R113, R117): as for RC4-ADP, with 240 bytes in 15 blocks, block 0 the
encryption of the IV and each further block the encryption of the one before; the bytes above are zero. The cipher is the
model's AES (R126, from general knowledge by the spec's own mark). -/
def Obligations.PrepareAesGenerates : Prop :=
  ∀ (keys : KeyStore) (keyId : U16) (r : KeyRecord) (phase : Phase) (mi : List Byte) (c : Channel),
    keys.find keyId = some r → r.keyBytes.length = 32 → mi.length = 9 →
    ∃ ks : Memory,
      c.prepare keys 0x84 keyId phase mi =
        { c with ctxAlg := 0x84, ctxKeyId := keyId, ctxPhase := phase, ctxMi := mi.take 8 ++ [0], cursor := 0
                 ks := ks, ksLen := 240, ctxStatus := .ok } ∧
      ks.wf ∧ ks.within 240 ∧
      ks.readBytes 0 16 = aesEncryptBlock r.keyBytes (expandIv (mi.take 8)) ∧
      ∀ n, n < 14 → ks.readBytes (16 * (n + 1)) 16 = aesEncryptBlock r.keyBytes (ks.readBytes (16 * n) 16)

/-- A failed `Prepare` stores its arguments, zeroes the keystream and records why: the algorithm is checked before the
key, the key before its length (40_keystream.md R113, 60_exceptions.md R285). -/
def Obligations.PrepareFailureClears : Prop :=
  ∀ (keys : KeyStore) (alg : Byte) (keyId : U16) (phase : Phase) (mi : List Byte) (c : Channel) (st : Status),
    mi.length = 9 →
    ((alg ≠ 0xAA ∧ alg ≠ 0x84 ∧ st = .unsupportedAlgorithm) ∨
      ((alg = 0xAA ∨ alg = 0x84) ∧ keys.find keyId = none ∧ st = .unknownKey) ∨
      (alg = 0x84 ∧ (∃ r, keys.find keyId = some r ∧ r.keyBytes.length ≠ 32) ∧ st = .badKeyLength)) →
    ∃ ks : Memory,
      c.prepare keys alg keyId phase mi =
        { c with ctxAlg := alg, ctxKeyId := keyId, ctxPhase := phase, ctxMi := mi.take 8 ++ [0], cursor := 0
                 ks := ks, ksLen := 0, ctxStatus := st } ∧
      ks.wf ∧ ∀ a, ks.read a = 0

/-- PREPARE runs `Prepare` on its channel and answers the outcome, with no events and no payload; with a reserved phase
it fails with BadOperand and writes no state (40_keystream.md R111). -/
def Obligations.PrepareCommandRunsPrepare : Prop :=
  ∀ (ch alg : Byte) (keyId : U16) (phase : Byte) (mi : List Byte) (s : State) (c : Channel),
    s.chans[ch.toNat]? = some c →
    (phase.toNat < 2 →
      exec (.prepare ch alg keyId phase mi) s =
        .next (s.answered ch (c.prepare s.keys alg keyId (if phase = 1 then .phase2 else .phase1) mi)
          { status := (c.prepare s.keys alg keyId (if phase = 1 then .phase2 else .phase1) mi).ctxStatus
            events := 0, payload := [] })) ∧
    (2 ≤ phase.toNat →
      exec (.prepare ch alg keyId phase mi) s =
        .next { s with resp := some { status := .badOperand, events := 0, payload := [] } })

/-- The RC4-ADP keystream depends on five key bytes (a longer key cut to its first five, a shorter one padded with
zeros on the left) and the first eight MI bytes only: not on the phase, the key id, the stored algorithm, key bytes beyond
the fifth, MI byte 8, the channel or any earlier state (40_keystream.md R116, derived by the spec's own mark; R114). -/
def Obligations.AdpKeystreamDependsOnFiveKeyBytes : Prop :=
  ∀ (keys keys' : KeyStore) (keyId keyId' : U16) (r r' : KeyRecord) (phase phase' : Phase) (mi mi' : List Byte)
    (c c' : Channel), keys.find keyId = some r → keys'.find keyId' = some r' →
    List.replicate (5 - r.keyBytes.length) 0 ++ r.keyBytes.take 5 =
      List.replicate (5 - r'.keyBytes.length) 0 ++ r'.keyBytes.take 5 →
    mi.length = 9 → mi'.length = 9 → mi.take 8 = mi'.take 8 →
    (c.prepare keys 0xAA keyId phase mi).ks = (c'.prepare keys' 0xAA keyId' phase' mi').ks

/-- The S-box table agrees with the formula of 40_keystream.md R124: the affine map of the multiplicative inverse in the
field of R120 (both from general knowledge by the spec's own mark). -/
def Obligations.SboxIsAffineOfInverse : Prop :=
  ∀ a b : Byte, (a = 0 ∧ b = 0) ∨ gmul a b = 1 →
    sbox a = b ^^^ b.rotateLeft 1 ^^^ b.rotateLeft 2 ^^^ b.rotateLeft 3 ^^^ b.rotateLeft 4 ^^^ 0x63

/-! ## The MI sequencer -/

/-- CYCLEMI replaces the MI by the register clocked 64 times from it, byte 8 zero, answers it with MI_CYCLED, and writes
nothing else: the keystream stays as it is, whatever the context's status (41_mi_lfsr.md R154, R151). -/
def Obligations.CyclemiReplacesMi : Prop :=
  (∀ (ch a b : Byte) (rest voc : List Byte),
    decode (0x03 :: ch :: a :: b :: rest) voc = .command (.cyclemi ch) rest 0) ∧
  ∀ (ch : Byte) (s : State) (c : Channel), s.chans[ch.toNat]? = some c →
    exec (.cyclemi ch) s =
      .next (s.answered ch
        { c with ctxMi := tobe 8 (lfsr64 (BitVec.ofNat 64 (be (c.ctxMi.take 8)))).1.toNat ++ [0] }
        { status := .ok, events := 0x20
          payload := tobe 8 (lfsr64 (BitVec.ofNat 64 (be (c.ctxMi.take 8)))).1.toNat ++ [0] })

/-- EXPANDIV answers 16 bytes and writes no state: the first eight equal the operand, the last eight are the cycled MI
(41_mi_lfsr.md R155, R153; the first-half law by R156, derived by the spec's own mark). -/
def Obligations.ExpandivAnswersIv : Prop :=
  ∀ (mi : List Byte) (s : State), mi.length = 8 →
    exec (.expandiv mi) s =
      .next { s with resp := some { status := .ok, events := 0
                                    payload := mi ++ (cycleMi (mi ++ [0])).take 8 } } ∧
    (cycleMi (mi ++ [0])).length = 9

/-- One clock of the register (41_mi_lfsr.md R152; the realisation is the spec's decision D14): it shifts towards bit 63,
the feedback of bits 63, 61, 45, 37, 26 and 14 enters bit 0, the old bit 63 is the overflow. -/
def Obligations.LfsrStepShiftsAndTaps : Prop :=
  ∀ r : U64, (lfsrStep r).2 = r.getLsbD 63 ∧
    (lfsrStep r).1.getLsbD 0 = (r.getLsbD 63 ^^ r.getLsbD 61 ^^ r.getLsbD 45 ^^ r.getLsbD 37 ^^ r.getLsbD 26 ^^
      r.getLsbD 14) ∧
    ∀ i, i < 63 → (lfsrStep r).1.getLsbD (i + 1) = r.getLsbD i

/-- Consequences of the clock (41_mi_lfsr.md R156, derived by the spec's own mark): the overflow trace of 64 clocks is
the loaded value, the register is linear over GF(2), and 64 clocks are injective, so cycling permutes the MIs. -/
def Obligations.LfsrTraceLinearInjective : Prop :=
  (∀ r : U64, (lfsr64 r).2 = r) ∧
  (∀ a b : U64, (lfsr64 (a ^^^ b)).1 = (lfsr64 a).1 ^^^ (lfsr64 b).1) ∧
  (∀ a b : U64, (lfsr64 a).1 = (lfsr64 b).1 → a = b) ∧
  ∀ mi mi' : List Byte, mi.length = 9 → mi'.length = 9 → cycleMi mi = cycleMi mi' → mi.take 8 = mi'.take 8

/-! ## The crypto processor -/

/-- The keystream offsets of both phases, as 42_crypto_processor.md R173 and R174 list them (the Phase 1 constants and
the Phase 2 slots are general knowledge by the spec's own mark, decisions D16 and D17). -/
def Obligations.KeystreamOffsets : Prop :=
  (List.range 9).map (offset 0xAA .ldu1) = [267, 278, 289, 300, 311, 322, 333, 344, 357] ∧
  (List.range 9).map (offset 0xAA .ldu2) = [368, 379, 390, 401, 412, 423, 434, 445, 458] ∧
  (List.range 9).map (offset 0x84 .ldu1) = [27, 38, 49, 60, 71, 82, 93, 104, 117] ∧
  (List.range 9).map (offset 0x84 .ldu2) = [128, 139, 150, 161, 172, 183, 194, 205, 218] ∧
  (∀ k : Fin 4, ∀ idx, idx ≤ 3 → offset 0xAA (.v4 k) idx = 256 + 7 * (4 * k.val + idx) ∧
    offset 0x84 (.v4 k) idx = 16 + 7 * (4 * k.val + idx)) ∧
  (List.range 2).map (offset 0xAA .v2) = [368, 375] ∧ (List.range 2).map (offset 0x84 .v2) = [128, 135]

/-- Once `CryptCheck` passes, every keystream read is inside the valid keystream, in every channel that meets the
invariant (42_crypto_processor.md R176, derived by the spec's own mark); and within one phase no two (frame type, index)
pairs share a keystream byte. -/
def Obligations.KeystreamReadsInBounds : Prop :=
  (∀ (c : Channel) (ft : FrameType) (idx : Nat), c.Inv → c.cryptCheck ft idx = .ok →
    16 ≤ offset c.ctxAlg ft idx ∧ offset c.ctxAlg ft idx + ft.len ≤ c.ksLen.toNat) ∧
  ∀ (alg : Byte) (ft ft' : FrameType) (idx idx' : Nat), (alg = 0xAA ∨ alg = 0x84) →
    idx ≤ ft.maxIdx → idx' ≤ ft'.maxIdx → ft.phase = ft'.phase → (ft ≠ ft' ∨ idx ≠ idx') →
    offset alg ft idx + ft.len ≤ offset alg ft' idx' ∨ offset alg ft' idx' + ft'.len ≤ offset alg ft idx

/-- PROCESS on a context that can encrypt: each byte of the codeword is XORed with the keystream byte at the offset of
(frame type, index), in Phase 2 the seventh byte then keeps its bit 7 only; `CURSOR` advances by one modulo 2^32 and
nothing else is written (42_crypto_processor.md R177, R171). -/
def Obligations.ProcessXorsKeystream : Prop :=
  ∀ (ch ft idx : Byte) (cw : List Byte) (s : State) (c : Channel) (t : FrameType),
    s.chans[ch.toNat]? = some c → frameType ft = some t → idx.toNat ≤ t.maxIdx → cw.length = t.len →
    c.ctxStatus = .ok → t.phase = c.ctxPhase →
    ∃ cw' : List Byte,
      exec (.process ch ft idx cw) s =
        .next (s.answered ch { c with cursor := c.cursor + 1 } { status := .ok, events := 0, payload := cw' }) ∧
      cw'.length = cw.length ∧
      ∀ i (h : i < cw.length), cw'[i]? = some
        ((cw[i] ^^^ c.ks.read (offset c.ctxAlg t idx.toNat + i)) &&&
          (if t.phase = .phase2 ∧ i = 6 then 0x80 else 0xFF))

/-- PROCESS on a context that cannot encrypt, or with an index or frame type of the other phase, hands the codeword back
unchanged with the reason and writes no state: the index is checked before the stored status, that before the phase
(42_crypto_processor.md R175, R177). -/
def Obligations.ProcessPassesThrough : Prop :=
  ∀ (ch ft idx : Byte) (cw : List Byte) (s : State) (c : Channel) (t : FrameType) (st : Status),
    s.chans[ch.toNat]? = some c → frameType ft = some t →
    ((t.maxIdx < idx.toNat ∧ st = .badOperand) ∨
      (idx.toNat ≤ t.maxIdx ∧ c.ctxStatus ≠ .ok ∧ st = c.ctxStatus) ∨
      (idx.toNat ≤ t.maxIdx ∧ c.ctxStatus = .ok ∧ t.phase ≠ c.ctxPhase ∧ st = .badOperand)) →
    exec (.process ch ft idx cw) s = .next { s with resp := some { status := st, events := 0, payload := cw } }

/-- PROCESS is its own inverse: what one channel XORs, any channel with the same algorithm and keystream restores under
the same frame type and index; in Phase 2 all but bits 6..0 of byte 6, which come out zero (42_crypto_processor.md R178,
derived by the spec's own mark). -/
def Obligations.ProcessTwiceRestores : Prop :=
  ∀ (ch ch' ft idx : Byte) (cw : List Byte) (s s' : State) (c c' : Channel) (t : FrameType),
    s.chans[ch.toNat]? = some c → s'.chans[ch'.toNat]? = some c' → frameType ft = some t →
    cw.length = t.len → c.cryptCheck t idx.toNat = .ok → c'.cryptCheck t idx.toNat = .ok →
    c.ctxAlg = c'.ctxAlg → (∀ a, c.ks.read a = c'.ks.read a) →
    ∃ (u u' : State) (x y : List Byte),
      exec (.process ch ft idx cw) s = .next u ∧ u.resp = some { status := .ok, events := 0, payload := x } ∧
      exec (.process ch' ft idx x) s' = .next u' ∧ u'.resp = some { status := .ok, events := 0, payload := y } ∧
      (t.phase = .phase1 → y = cw) ∧
      (t.phase = .phase2 → y = cw.set 6 (cw.getD 6 0 &&& 0x80))

/-- A keystream already generated is not recomputed by CYCLEMI or ADDKEY: PROCESS afterwards answers as before
(70_reset_and_hazards.md R320, R321, derived by the spec's own mark). -/
def Obligations.KeystreamSurvivesCyclemiAndAddkey : Prop :=
  ∀ (ch ch' ft idx : Byte) (cw : List Byte) (keyId : U16) (alg : Byte) (key : List Byte) (s : State),
    ∃ t1 t2 u u1 u2 : State,
      exec (.cyclemi ch') s = .next t1 ∧ exec (.addkey keyId alg key) s = .next t2 ∧
      exec (.process ch ft idx cw) s = .next u ∧ exec (.process ch ft idx cw) t1 = .next u1 ∧
      exec (.process ch ft idx cw) t2 = .next u2 ∧ u1.resp = u.resp ∧ u2.resp = u.resp

/-! ## The packer -/

/-- PACK, whenever it does not fail closed (43_frame_packer.md R192 to R196): the codeword, XORed with the keystream if
the channel encrypts and can, is placed in the 11 bytes that `P25N` selects; the buffer is cleared first at `P25N` 0 and
9; every other byte of both buffers stays; `P25N` advances modulo 18; the buffer and `SEQNO` are handed over at 8 and 17;
at 17 the MI is cycled and, if the channel encrypts, the keystream prepared again. Nothing else of the channel is
written. -/
def Obligations.PackPlacesCodeword : Prop :=
  ∀ (ch : Byte) (f : Bool) (cw : List Byte) (s : State) (c : Channel),
    s.chans[ch.toNat]? = some c → c.Inv → cw.length = 11 → (f = true → c.packStatus = .ok) →
    ∃ (c' : Channel) (r : Response),
      exec (.pack ch f cw) s = .next (s.answered ch c' r) ∧
      r.status = c.packStatus ∧
      c'.p25n.toNat = (c.p25n.toNat + 1) % 18 ∧
      (∀ a, c'.ldu1.read a =
        if c.p25n.toNat < 9 then
          if lduOff c.p25n.toNat ≤ a ∧ a < lduOff c.p25n.toNat + 11 then
            cw.getD (a - lduOff c.p25n.toNat) 0 ^^^
              (if c.txEnc = true ∧ c.packStatus = .ok then
                c.ks.read (offset c.ctxAlg .ldu1 c.p25n.toNat + (a - lduOff c.p25n.toNat)) else 0)
          else if c.p25n.toNat = 0 then 0 else c.ldu1.read a
        else c.ldu1.read a) ∧
      (∀ a, c'.ldu2.read a =
        if 9 ≤ c.p25n.toNat then
          if lduOff (c.p25n.toNat - 9) ≤ a ∧ a < lduOff (c.p25n.toNat - 9) + 11 then
            cw.getD (a - lduOff (c.p25n.toNat - 9)) 0 ^^^
              (if c.txEnc = true ∧ c.packStatus = .ok then
                c.ks.read (offset c.ctxAlg .ldu2 (c.p25n.toNat - 9) + (a - lduOff (c.p25n.toNat - 9))) else 0)
          else if c.p25n.toNat = 9 then 0 else c.ldu2.read a
        else c.ldu2.read a) ∧
      (c.p25n.toNat = 8 → r.events = 0x01 ∧ r.payload = c'.ldu1.readBytes 0 225 ++ tobe 4 c.seqNo.toNat) ∧
      (c.p25n.toNat = 17 → r.events = 0x22 ∧ r.payload = c'.ldu2.readBytes 0 225 ++ tobe 4 c.seqNo.toNat) ∧
      (c.p25n.toNat ≠ 8 → c.p25n.toNat ≠ 17 → r.events = 0 ∧ r.payload = []) ∧
      (c.p25n.toNat ≠ 17 →
        c' = { c with p25n := c'.p25n, ldu1 := c'.ldu1, ldu2 := c'.ldu2
                      cursor := if c.txEnc = true ∧ c.packStatus = .ok then c.cursor + 1 else c.cursor }) ∧
      (c.p25n.toNat = 17 →
        c' = { (if c.txEnc = true then
                  { c with ctxMi := cycleMi c.ctxMi }.prepare s.keys c.ctxAlg c.ctxKeyId c.ctxPhase (cycleMi c.ctxMi)
                else { c with ctxMi := cycleMi c.ctxMi }) with p25n := 0, ldu2 := c'.ldu2 })

/-- With the fail-closed flag and a context that cannot encrypt (PACK, TXPCM) or decrypt (UNPACK), the command fails with
that status, writes no state and emits nothing (60_exceptions.md R287). -/
def Obligations.FailClosedWritesNothing : Prop :=
  ∀ (ch : Byte) (s : State) (c : Channel), s.chans[ch.toNat]? = some c → c.Inv →
    (∀ cw, c.packStatus ≠ .ok →
      exec (.pack ch true cw) s = .next { s with resp := some { status := c.packStatus, events := 0, payload := [] } }) ∧
    (∀ pcm voc, c.packStatus ≠ .ok →
      exec (.txpcm ch true pcm voc) s =
        .next { s with resp := some { status := c.packStatus, events := 0, payload := [] } }) ∧
    (∀ ft buf voc, ft.toNat < 2 → c.rxStatus ≠ .ok →
      exec (.unpack ch ft true true buf voc) s =
        .next { s with resp := some { status := c.rxStatus, events := 0, payload := [] } })

/-- UNPACK of a buffer whose record markers are wrong (`V == 0`) fails with MalformedFrame and writes no state
(43_frame_packer.md R198). -/
def Obligations.MalformedFrameDiscarded : Prop :=
  ∀ (ch ft : Byte) (f : Bool) (buf : List Byte) (voc : List VocAnswer) (s : State),
    ch.toNat < s.chans.length → ft.toNat < 2 →
    exec (.unpack ch ft false f buf voc) s =
      .next { s with resp := some { status := .malformedFrame, events := 0, payload := [] } }

/-- UNPACK past its checks (43_frame_packer.md R197, R199 to R201): the nine codewords at the fixed offsets, XORed with
the keystream if the session is encrypted and the context can decrypt; the error counts summed into `IMBE_ERRS` and
flagged in the mask and `FRAME_ERR`; `P25N` 9 after an LDU1 and 0 after an LDU2; the MI cycled, and the keystream prepared
again if the session is encrypted, only after an LDU2 with `FRAME_ERR` clear. -/
def Obligations.UnpackExtractsCodewords : Prop :=
  ∀ (ch ft : Byte) (f : Bool) (buf : List Byte) (voc : List VocAnswer) (s : State) (c : Channel),
    s.chans[ch.toNat]? = some c → c.Inv → ft.toNat < 2 → (Instr.unpack ch ft true f buf voc).wf = true →
    (f = true → c.rxStatus = .ok) →
    ∃ (c' : Channel) (mask : U16) (cws : List Byte) (err : Bool) (base : Channel),
      exec (.unpack ch ft true f buf voc) s = .next (s.answered ch c'
        { status := if c.rxStatus ≠ .ok then c.rxStatus else if mask ≠ 0 then .vocoderDecodeError else .ok
          events := if ft = 1 ∧ err = false then 0x30 else 0x10
          payload := [c.rxStatus.code] ++ tobe 2 mask.toNat ++ cws ++ voc.flatMap VocAnswer.pcm }) ∧
      cws.length = 99 ∧
      (∀ k i, k < 9 → i < 11 → cws[11 * k + i]? = some (buf.getD (lduOff k + i) 0 ^^^
        (if c.sEnc = true ∧ c.rxStatus = .ok then
          c.ks.read (offset c.ctxAlg (if ft = 0 then .ldu1 else .ldu2) k + i) else 0))) ∧
      (∀ k, mask.getLsbD k = decide (∃ x ∈ voc[k]?, x.errs ≠ 0)) ∧
      (err = ((if ft = 0 then false else c.frameErr) || decide (mask ≠ 0))) ∧
      base = { c with
        frameErr := err
        imbeErrs := c.imbeErrs + (voc.map VocAnswer.errs).sum
        cursor := c.cursor + (if c.sEnc = true ∧ c.rxStatus = .ok then 9 else 0)
        p25n := if ft = 0 then 9 else 0 } ∧
      c' = if ft = 1 ∧ err = false then
          (if c.sEnc = true then
            { base with ctxMi := cycleMi c.ctxMi }.prepare s.keys c.ctxAlg c.ctxKeyId c.ctxPhase (cycleMi c.ctxMi)
          else { base with ctxMi := cycleMi c.ctxMi })
        else base

/-- Round trip of an LDU (43_frame_packer.md R202, derived by the spec's own mark): nine PACKs from `P25N` 0 (or 9) hand
over a buffer, and UNPACK of its first 225 bytes returns the nine codewords in order: with both sides clear, or with both
sides encrypted in Phase 1 under the same algorithm and keystream. -/
def Obligations.LduRoundTrip : Prop :=
  ∀ (ch ch' : Byte) (f f' second : Bool) (cws : List (List Byte)) (voc : List VocAnswer) (s s' : State)
    (c c' : Channel),
    s.chans[ch.toNat]? = some c → c.Inv → s'.chans[ch'.toNat]? = some c' → c'.Inv →
    c.p25n = (if second then 9 else 0) → cws.length = 9 → (∀ cw ∈ cws, cw.length = 11) →
    ((c.txEnc = false ∧ c'.sEnc = false) ∨
      (c.txEnc = true ∧ c'.sEnc = true ∧ c.ctxStatus = .ok ∧ c'.ctxStatus = .ok ∧ c.ctxPhase = .phase1 ∧
        c'.ctxPhase = .phase1 ∧ c.ctxAlg = c'.ctxAlg ∧ ∀ a, c.ks.read a = c'.ks.read a)) →
    ∃ (t : State) (ldu : List Byte),
      execAll (cws.map fun cw => .pack ch f cw) s = .next t ∧
      t.resp = some { status := .ok, events := if second then 0x22 else 0x01, payload := ldu ++ tobe 4 c.seqNo.toNat } ∧
      ldu.length = 225 ∧
      (∀ a, a < 225 → ¬ InCodewordField a → ldu[a]? = some 0) ∧
      ∃ (t' : State) (r : Response) (hd tl : List Byte),
        exec (.unpack ch' (if second then 1 else 0) true f' ldu voc) s' = .next t' ∧ t'.resp = some r ∧
        hd.length = 3 ∧ r.payload = hd ++ cws.flatten ++ tl

/-! ## The tone classifier and the transmit path -/

/-- TONE takes 320 bytes of PCM whatever its word's fields hold, answers the classifier's number, big-endian, and
touches no state (45_tone.md R262). -/
def Obligations.ToneAnswersClass : Prop :=
  (∀ (ch a b : Byte) (pcm rest voc : List Byte), pcm.length = 320 →
    decode (0x08 :: ch :: a :: b :: (pcm ++ rest)) voc = .command (.tone pcm) rest 0) ∧
  ∀ (pcm : List Byte) (s : State),
    exec (.tone pcm) s =
      .next { s with resp := some { status := .ok, events := 0, payload := tobe 2 (Config.toneDetect pcm).toNat } }

/-- TXPCM, whenever it does not fail closed, is PACK of the tone codeword if a tone is detected and of the vocoder's
answer if none is, with TONE_SUBST added in the first case and the tone in front of the payload (45_tone.md R263). -/
def Obligations.TxpcmPacksToneOrVocoder : Prop :=
  ∀ (ch : Byte) (f : Bool) (pcm voc : List Byte) (s : State) (c : Channel),
    s.chans[ch.toNat]? = some c → c.Inv → (f = true → c.packStatus = .ok) →
    ∃ (c' : Channel) (r : Response),
      exec (.pack ch f (if Config.toneDetect pcm = 0 then voc
        else (Config.toneCodeword (Config.toneDetect pcm)).toList)) s = .next (s.answered ch c' r) ∧
      exec (.txpcm ch f pcm voc) s = .next (s.answered ch c'
        { status := r.status
          events := r.events ||| (if Config.toneDetect pcm = 0 then 0 else 0x40)
          payload := tobe 2 (Config.toneDetect pcm).toNat ++ r.payload })

/-! ## The call tracker and channel control -/

/-- The transition table of RXFRAME (44_call_tracker.md R225), with the effects of call start (R222), call end (R223,
R228) and slot status (R224). -/
def Obligations.RxframeTransitions : Prop :=
  ∀ (ch duid : Byte) (e : Bool) (streamId srcId dstId : U32) (time : U64) (s : State) (c : Channel),
    s.chans[ch.toNat]? = some c →
    let term : Bool := duid == 0x03 || duid == 0x0F
    let isNew : Bool := streamId != c.rxStream
    let run := exec (.rxframe ch duid e streamId srcId dstId time) s
    (c.selected = false ∧ c.callState = .idle →
      run = .next { s with resp := some { status := .ignored, events := 0, payload := [] } }) ∧
    ((c.selected = true ∨ c.callState = .receiving) ∧ isNew = true ∧ term = false →
      run = .next (s.answered ch
        { c with
          callState := .receiving, sStream := streamId, sSrc := srcId, sDst := dstId, sStart := time
          sFType := duid, sEmerg := e, sEnc := false, ctxMi := [0, 0, 0, 0, 0, 0, 0, 0, 0], ksLen := 0
          ctxStatus := .notPrepared, cursor := 0, frameErr := false
          rxStream := streamId, rxFType := duid, rxTime := time }
        { status := .ok, events := 0x04, payload := [] })) ∧
    (c.callState = .receiving ∧ term = true →
      run = .next (s.answered ch
        { c with
          sDuration := time - c.sStart, callState := .idle
          ctxAlg := 0, ctxKeyId := 0, ctxPhase := .phase1, ctxMi := [0, 0, 0, 0, 0, 0, 0, 0, 0], ks := [], ksLen := 0
          ctxStatus := .notPrepared, cursor := 0, ldu1 := [], ldu2 := [], p25n := 0, frameErr := false, imbeErrs := 0
          rxStream := streamId, rxFType := duid, rxTime := time }
        { status := .ok, events := 0x08, payload := tobe 8 (time - c.sStart).toNat })) ∧
    ((c.callState = .receiving ∧ isNew = false ∧ term = false) ∨
      (c.selected = true ∧ c.callState = .idle ∧ (isNew = false ∨ term = true)) →
      run = .next (s.answered ch { c with rxStream := streamId, rxFType := duid, rxTime := time }
        { status := .ok, events := 0, payload := [] }))

/-- The two sequences of 44_call_tracker.md R229 (derived by the spec's own mark): a new stream without a terminator
starts a session at its first frame and ends none; a terminator ends the session with the duration. -/
def Obligations.SessionBoundaries : Prop :=
  ∀ (ch : Byte) (e e' e'' : Bool) (s1 s2 src dst : U32) (t1 t2 t3 t4 : U64) (s : State) (c : Channel),
    s.chans[ch.toNat]? = some c → c.selected = true → c.rxStream = 0 → s1 ≠ 0 → s2 ≠ s1 →
    (∃ u v w : State, ∃ d : Channel,
      exec (.rxframe ch 0x05 e s1 src dst t1) s = .next u ∧
      exec (.rxframe ch 0x0A e' s1 src dst t2) u = .next v ∧
      exec (.rxframe ch 0x05 e'' s2 src dst t3) v = .next w ∧
      u.resp = some { status := .ok, events := 0x04, payload := [] } ∧
      v.resp = some { status := .ok, events := 0, payload := [] } ∧
      w.resp = some { status := .ok, events := 0x04, payload := [] } ∧
      w.chans[ch.toNat]? = some d ∧ d.sStream = s2 ∧ d.sStart = t3 ∧ d.callState = .receiving) ∧
    (∃ u v : State, ∃ d : Channel,
      exec (.rxframe ch 0x05 e s1 src dst t1) s = .next u ∧
      exec (.rxframe ch 0x03 e' s1 src dst t4) u = .next v ∧
      u.resp = some { status := .ok, events := 0x04, payload := [] } ∧
      v.resp = some { status := .ok, events := 0x08, payload := tobe 8 (t4 - t1).toNat } ∧
      v.chans[ch.toNat]? = some d ∧ d.callState = .idle ∧ d.sDuration = t4 - t1 ∧ d.imbeErrs = 0)

/-- ESYNC classifies the session encrypted exactly when algorithm and key id are both non-zero, and then prepares the
context; a clear sync writes `S_ENC` only (44_call_tracker.md R226, R227). -/
def Obligations.EsyncClassifiesAndPrepares : Prop :=
  ∀ (ch alg : Byte) (keyId : U16) (phase : Byte) (mi : List Byte) (s : State) (c : Channel),
    s.chans[ch.toNat]? = some c → phase.toNat < 2 →
    (alg ≠ 0 ∧ keyId ≠ 0 → ∃ d : Channel,
      d = { c with sEnc := true }.prepare s.keys alg keyId (if phase = 1 then .phase2 else .phase1) mi ∧
      d.sEnc = true ∧
      exec (.esync ch alg keyId phase mi) s =
        .next (s.answered ch d { status := d.ctxStatus, events := 0, payload := [] })) ∧
    (alg = 0 ∨ keyId = 0 →
      exec (.esync ch alg keyId phase mi) s =
        .next (s.answered ch { c with sEnc := false } { status := .ok, events := 0, payload := [] }))

/-- SELECT takes its value from bit 0 of field `b`, writes `SELECTED` and nothing else, and answers OK, or BadChannel for
a channel that does not exist (44_call_tracker.md R230). -/
def Obligations.SelectWritesSelected : Prop :=
  (∀ (ch a b : Byte) (rest voc : List Byte),
    decode (0x0C :: ch :: a :: b :: rest) voc = .command (.select ch (b.getLsbD 0)) rest 0) ∧
  ∀ (ch : Byte) (value : Bool) (s : State),
    (∀ c, s.chans[ch.toNat]? = some c →
      exec (.select ch value) s =
        .next (s.answered ch { c with selected := value } { status := .ok, events := 0, payload := [] })) ∧
    (s.chans.length ≤ ch.toNat →
      exec (.select ch value) s = .next { s with resp := some { status := .badChannel, events := 0, payload := [] } })

/-- ENCCFG takes its value from bit 0 of field `b`, writes `TXENC` and nothing else, and answers OK, or BadChannel for a
channel that does not exist (44_call_tracker.md R231). -/
def Obligations.EnccfgWritesTxenc : Prop :=
  (∀ (ch a b : Byte) (rest voc : List Byte),
    decode (0x0D :: ch :: a :: b :: rest) voc = .command (.enccfg ch (b.getLsbD 0)) rest 0) ∧
  ∀ (ch : Byte) (value : Bool) (s : State),
    (∀ c, s.chans[ch.toNat]? = some c →
      exec (.enccfg ch value) s =
        .next (s.answered ch { c with txEnc := value } { status := .ok, events := 0, payload := [] })) ∧
    (s.chans.length ≤ ch.toNat →
      exec (.enccfg ch value) s = .next { s with resp := some { status := .badChannel, events := 0, payload := [] } })

/-- WRSEQ takes its four payload bytes big-endian, writes `SEQNO` and nothing else, and answers OK, or BadChannel for a
channel that does not exist (44_call_tracker.md R232). -/
def Obligations.WrseqWritesSeqno : Prop :=
  (∀ (ch a b q0 q1 q2 q3 : Byte) (rest voc : List Byte),
    decode (0x0E :: ch :: a :: b :: q0 :: q1 :: q2 :: q3 :: rest) voc =
      .command (.wrseq ch (q0 ++ q1 ++ q2 ++ q3)) rest 0) ∧
  ∀ (ch : Byte) (seqNo : U32) (s : State),
    (∀ c, s.chans[ch.toNat]? = some c →
      exec (.wrseq ch seqNo) s =
        .next (s.answered ch { c with seqNo := seqNo } { status := .ok, events := 0, payload := [] })) ∧
    (s.chans.length ≤ ch.toNat →
      exec (.wrseq ch seqNo) s = .next { s with resp := some { status := .badChannel, events := 0, payload := [] } })

/-- CHRESET resets the crypto and frame state and the error bookkeeping, leaves the configuration bits, `SEQNO`, the slot
status, the session record, `CALLSTATE` and the keys, raises no event, and is idempotent; it answers OK, or BadChannel for
a channel that does not exist (44_call_tracker.md R233, its `SessionReset` written out as R228 does). -/
def Obligations.ChresetResetsSession : Prop :=
  (∀ (ch a b : Byte) (rest voc : List Byte),
    decode (0x0F :: ch :: a :: b :: rest) voc = .command (.chreset ch) rest 0) ∧
  (∀ (ch : Byte) (s : State), s.chans.length ≤ ch.toNat →
    exec (.chreset ch) s = .next { s with resp := some { status := .badChannel, events := 0, payload := [] } }) ∧
  ∀ (ch : Byte) (s : State) (c : Channel), s.chans[ch.toNat]? = some c →
    ∃ t : State,
      exec (.chreset ch) s = .next t ∧
      t = s.answered ch
        { c with
          ctxAlg := 0, ctxKeyId := 0, ctxPhase := .phase1, ctxMi := [0, 0, 0, 0, 0, 0, 0, 0, 0]
          ks := [], ksLen := 0, ctxStatus := .notPrepared, cursor := 0, ldu1 := [], ldu2 := [], p25n := 0
          frameErr := false, imbeErrs := 0 }
        { status := .ok, events := 0, payload := [] } ∧
      exec (.chreset ch) t = .next t ∧ ∀ a, Memory.read [] a = 0

/-- RDSTAT writes no state and answers the 72-byte block of 44_call_tracker.md R234, every field at its offset,
multi-byte fields big-endian; after reset the block is 05 and 71 zero bytes. -/
def Obligations.RdstatAnswersBlock : Prop :=
  (∀ (ch a b : Byte) (rest voc : List Byte),
    decode (0x10 :: ch :: a :: b :: rest) voc = .command (.rdstat ch) rest 0) ∧
  ∀ (ch : Byte) (s : State) (c : Channel), s.chans[ch.toNat]? = some c → c.ctxMi.length = 9 →
    ∃ block : List Byte,
      exec (.rdstat ch) s = .next { s with resp := some { status := .ok, events := 0, payload := block } } ∧
      block.length = 72 ∧ slice block 0 1 = [c.ctxStatus.code] ∧ slice block 1 1 = [c.ctxAlg] ∧
      slice block 2 2 = tobe 2 c.ctxKeyId.toNat ∧ slice block 4 1 = [c.ctxPhase.code] ∧ slice block 5 9 = c.ctxMi ∧
      slice block 14 2 = tobe 2 c.ksLen.toNat ∧ slice block 16 4 = tobe 4 c.cursor.toNat ∧
      slice block 20 1 = [c.p25n] ∧ slice block 21 4 = tobe 4 c.seqNo.toNat ∧
      (∀ flags, slice block 25 1 = [flags] →
        flags.getLsbD 0 = decide (c.callState = .receiving) ∧ flags.getLsbD 1 = c.sEnc ∧
        flags.getLsbD 2 = c.sEmerg ∧ flags.getLsbD 3 = c.frameErr ∧ flags.getLsbD 4 = c.selected ∧
        flags.getLsbD 5 = c.txEnc ∧ flags.getLsbD 6 = false ∧ flags.getLsbD 7 = false) ∧
      slice block 26 4 = tobe 4 c.sSrc.toNat ∧ slice block 30 4 = tobe 4 c.sDst.toNat ∧
      slice block 34 4 = tobe 4 c.sStream.toNat ∧ slice block 38 8 = tobe 8 c.sStart.toNat ∧
      slice block 46 8 = tobe 8 c.sDuration.toNat ∧ slice block 54 1 = [c.sFType] ∧
      slice block 55 4 = tobe 4 c.rxStream.toNat ∧ slice block 59 1 = [c.rxFType] ∧
      slice block 60 8 = tobe 8 c.rxTime.toNat ∧ slice block 68 4 = tobe 4 c.imbeErrs.toNat ∧
      (c = Channel.reset → block = 0x05 :: List.replicate 71 0)

/-- What CORE does when used without initialisation (70_reset_and_hazards.md R313, derived by the spec's own mark), on
every channel of every number of channels, its seven rows in order: PROCESS, for every frame type and index in range,
answers NotPrepared and the codeword unchanged; PACK with the fail-closed flag clear places the clear codeword; UNPACK
answers the received codewords undecrypted; RXFRAME is Ignored; CYCLEMI answers the zero MI; PREPARE answers UnknownKey, or
UnsupportedAlgorithm first; RDSTAT answers 05 and 71 zero bytes. -/
def Obligations.ResetStateInUse : Prop :=
  ∀ (nch : Nat) (ch : Byte), ch.toNat < nch →
    let run := fun i => exec i (State.resetWith nch)
    (∀ ft t idx cw, frameType ft = some t → idx.toNat ≤ t.maxIdx → run (.process ch ft idx cw) =
      .next { State.resetWith nch with resp := some { status := .notPrepared, events := 0, payload := cw } }) ∧
    (∀ cw, cw.length = 11 → ∃ ldu : Memory,
      (∀ a, ldu.read a = if 10 ≤ a ∧ a < 21 then cw.getD (a - 10) 0 else 0) ∧
      run (.pack ch false cw) = .next ((State.resetWith nch).answered ch
        { Channel.reset with p25n := 1, ldu1 := ldu } { status := .ok, events := 0, payload := [] })) ∧
    (∀ ft f buf voc, ft.toNat < 2 → (Instr.unpack ch ft true f buf voc).wf = true → ∃ mask : U16,
      (∀ k, mask.getLsbD k = decide (∃ x ∈ voc[k]?, x.errs ≠ 0)) ∧
      run (.unpack ch ft true f buf voc) = .next ((State.resetWith nch).answered ch
        { Channel.reset with
          frameErr := decide (mask ≠ 0), imbeErrs := (voc.map VocAnswer.errs).sum, p25n := if ft = 0 then 9 else 0 }
        { status := if mask ≠ 0 then .vocoderDecodeError else .ok
          events := if ft = 1 ∧ mask = 0 then 0x30 else 0x10
          payload := 0x00 :: (tobe 2 mask.toNat ++
            ((List.range 9).flatMap fun k => (buf.drop (lduOff k)).take 11) ++ voc.flatMap VocAnswer.pcm) })) ∧
    (∀ duid e streamId srcId dstId time, run (.rxframe ch duid e streamId srcId dstId time) =
      .next { State.resetWith nch with resp := some { status := .ignored, events := 0, payload := [] } }) ∧
    (run (.cyclemi ch) =
      .next { State.resetWith nch with
        resp := some { status := .ok, events := 0x20, payload := [0, 0, 0, 0, 0, 0, 0, 0, 0] } }) ∧
    (∀ alg keyId phase mi, phase.toNat < 2 → ∃ t, run (.prepare ch alg keyId phase mi) = .next t ∧
      t.resp = some { status := if alg = 0xAA ∨ alg = 0x84 then .unknownKey else .unsupportedAlgorithm
                      events := 0, payload := [] }) ∧
    run (.rdstat ch) =
      .next { State.resetWith nch with
        resp := some { status := .ok, events := 0, payload := 0x05 :: List.replicate 71 0 } }
end

