-- ==== Sys2Proof/Laws/Bytes.lean ====
section
/-! SUPPORT. The laws of the byte-array primitives (00_scope.md R8). -/

namespace Sys2Proof.Machine

@[simp] theorem tobe_length (n v : Nat) : (tobe n v).length = n := by
  induction n with
  | zero => rfl
  | succ n ih => simp [tobe, ih]

theorem be_lt (bs : List Byte) : be bs < 256 ^ bs.length := by
  induction bs with
  | nil => simp [be]
  | cons b bs ih =>
    have h : b.toNat < 256 := b.isLt
    simp only [be, List.length_cons, Nat.pow_succ]
    nlinarith

/-- Reading back what `tobe` writes gives the low `8n` bits. -/
theorem be_tobe (n v : Nat) : be (tobe n v) = v % 256 ^ n := by
  induction n with
  | zero => simp [tobe, be, Nat.mod_one]
  | succ n ih =>
    have h8 : (256 : Nat) = 2 ^ 8 := by norm_num
    simp only [tobe, be, tobe_length, ih, BitVec.toNat_ofNat, Nat.shiftRight_eq_div_pow]
    rw [h8, ← Nat.pow_mul, ← Nat.pow_mul, Nat.mul_succ, Nat.pow_add, Nat.mod_mul]
    ring

/-- Writing back what `be` reads gives the bytes. -/
theorem tobe_be (bs : List Byte) : tobe bs.length (be bs) = bs := by
  induction bs with
  | nil => rfl
  | cons b bs ih =>
    have h8 : (256 : Nat) ^ bs.length = 2 ^ (8 * bs.length) := by
      rw [Nat.pow_mul]
    have low : ∀ n v w : Nat, v % 256 ^ n = w % 256 ^ n → tobe n v = tobe n w := by
      intro n
      induction n with
      | zero => intros; rfl
      | succ n ihn =>
        intro v w h
        have e : (256 : Nat) ^ (n + 1) = 2 ^ (8 * n) * 2 ^ 8 := by
          rw [show (256 : Nat) = 2 ^ 8 by norm_num, ← Nat.pow_mul, ← Nat.pow_add]; ring_nf
        have e' : (256 : Nat) ^ n = 2 ^ (8 * n) := by rw [Nat.pow_mul]
        rw [e] at h
        simp only [tobe, List.cons.injEq]
        refine ⟨?_, ihn v w ?_⟩
        · apply BitVec.eq_of_toNat_eq
          simp only [BitVec.toNat_ofNat, Nat.shiftRight_eq_div_pow]
          have h1 := Nat.mod_mul (x := v) (a := 2 ^ (8 * n)) (b := 2 ^ 8)
          have h2 := Nat.mod_mul (x := w) (a := 2 ^ (8 * n)) (b := 2 ^ 8)
          have h3 : v % 2 ^ (8 * n) = w % 2 ^ (8 * n) := by
            have := congrArg (· % 2 ^ (8 * n)) h
            simpa [Nat.mod_mul_right_mod] using this
          have hp : 0 < 2 ^ (8 * n) := Nat.two_pow_pos _
          rw [h1, h2, h3] at h
          exact Nat.eq_of_mul_eq_mul_left hp (Nat.add_left_cancel h)
        · rw [e']
          have := congrArg (· % 2 ^ (8 * n)) h
          simpa [Nat.mod_mul_right_mod] using this
    simp only [List.length_cons, tobe, be, List.cons.injEq]
    refine ⟨?_, ?_⟩
    · apply BitVec.eq_of_toNat_eq
      simp only [BitVec.toNat_ofNat, Nat.shiftRight_eq_div_pow, h8]
      have hb := be_lt bs
      rw [h8] at hb
      rw [Nat.add_comm, Nat.add_mul_div_right _ _ (Nat.two_pow_pos _), Nat.div_eq_of_lt hb]
      simpa using Nat.mod_eq_of_lt b.isLt
    · refine (low _ _ _ ?_).trans ih
      simp

theorem takePad_getElem? (n : Nat) (a : List Byte) (k : Nat) :
    (takePad n a)[k]? = if k < n then some (a.getD k 0) else none := by
  induction n generalizing a k with
  | zero => simp [takePad]
  | succ n ih => cases a <;> cases k <;> simp [takePad, ih]

theorem slice_getElem? (a : List Byte) (i n k : Nat) :
    (slice a i n)[k]? = if k < n then some (a.getD (i + k) 0) else none := by
  simp [slice, takePad_getElem?, List.getD_eq_getElem?_getD]

@[simp] theorem takePad_length (n : Nat) (a : List Byte) : (takePad n a).length = n := by
  induction n generalizing a with
  | zero => simp [takePad]
  | succ n ih => cases a <;> simp [takePad, ih]

@[simp] theorem slice_length (a : List Byte) (i n : Nat) : (slice a i n).length = n := by simp [slice]

/-- Inside the array a slice is the sub-array of 00_scope.md R8. -/
theorem slice_eq (a : List Byte) (i n : Nat) (h : i + n ≤ a.length) : slice a i n = (a.drop i).take n := by
  apply List.ext_getElem?
  intro k
  rw [slice_getElem?, List.getElem?_take, List.getElem?_drop]
  by_cases hk : k < n
  · have : i + k < a.length := by omega
    simp [hk, this]
  · simp [hk]

/-- A field in the middle of a payload. -/
theorem slice_field {l m r : List Byte} {i n : Nat} (hl : l.length = i) (hm : m.length = n) :
    slice (l ++ m ++ r) i n = m := by
  rw [slice_eq _ _ _ (by simp; omega)]
  subst hl hm
  simp

/-- A field at the head of a payload. -/
theorem slice_head {m r : List Byte} {n : Nat} (hm : m.length = n) : slice (m ++ r) 0 n = m :=
  slice_field (l := []) rfl hm

theorem slice_all {m : List Byte} {n : Nat} (hm : m.length = n) : slice m 0 n = m := by
  simpa using slice_head (r := []) hm

/-- A big-endian field of `n` bytes reads back as the value written (20_memory.md R63). -/
theorem ofNat_be_tobe {w n : Nat} (x : BitVec w) (h : w = 8 * n) : BitVec.ofNat w (be (tobe n x.toNat)) = x := by
  apply BitVec.eq_of_toNat_eq
  have hw : (256 : Nat) ^ n = 2 ^ w := by rw [h, Nat.pow_mul]
  rw [be_tobe, BitVec.toNat_ofNat, hw, Nat.mod_mod, Nat.mod_eq_of_lt x.isLt]

@[simp] theorem xorBytes_length (a b : List Byte) : (xorBytes a b).length = min a.length b.length := by
  simp [xorBytes]

/-- XOR with the same bytes twice is the identity. -/
theorem xorBytes_xorBytes (a k : List Byte) (h : a.length ≤ k.length) : xorBytes (xorBytes a k) k = a := by
  induction a generalizing k with
  | nil => simp [xorBytes]
  | cons b bs ih =>
    cases k with
    | nil => simp at h
    | cons c cs =>
      have e : b ^^^ c ^^^ c = b := by rw [BitVec.xor_assoc, BitVec.xor_self, BitVec.xor_zero]
      have := ih cs (by simpa using h)
      simp only [xorBytes] at this ⊢
      simp only [List.zipWith_cons_cons, e, this]

theorem bitAt_or_getLsbD (v f : Bool) :
    (bitAt 0 v ||| bitAt 1 f).getLsbD 0 = v ∧ (bitAt 0 v ||| bitAt 1 f).getLsbD 1 = f := by
  cases v <;> cases f <;> decide

theorem bitAt_getLsbD_zero (f : Bool) : (bitAt 0 f).getLsbD 0 = f := by cases f <;> rfl

end Sys2Proof.Machine
end

