-- ==== Sys2Proof/Laws/Decode.lean ====
section
/-! SUPPORT. What the decoder can answer (30_encoding.md R80, R84, R87). -/

namespace Sys2Proof

open Machine

/-- A word followed by the payload its opcode asks for decodes to the command of that word and payload. -/
theorem decode_of_payload {op ch a b : Byte} {p rest voc : List Byte} {i : Instr}
    (hl : payloadLen op a (p ++ rest) = some p.length) (hc : commandOf op ch a b p voc = some i) :
    decode (op :: ch :: a :: b :: (p ++ rest)) voc = .command i rest (vocLen op) := by
  simp [decode, hl, hc]

/-- Everything a decoded command says about the bytes it was read from. -/
theorem decode_command {bytes voc rest : List Byte} {i : Instr} {n : Nat} (h : decode bytes voc = .command i rest n) :
    ∃ (op ch a b : Byte) (p : List Byte), bytes = op :: ch :: a :: b :: (p ++ rest) ∧
      payloadLen op a (p ++ rest) = some p.length ∧ commandOf op ch a b p voc = some i ∧ n = vocLen op := by
  unfold decode at h
  split at h
  · rename_i op ch a b r
    split at h
    · cases h
    · rename_i m hm
      split at h
      · cases h
      · rename_i hlt
        split at h
        · rename_i j hj
          cases h
          have hlen : (r.take m).length = m := by simp; omega
          refine ⟨op, ch, a, b, r.take m, by rw [List.take_append_drop], ?_, hj, rfl⟩
          rw [List.take_append_drop, hlen, hm]
        · cases h
  · cases h

/-- A reserved opcode is no command and takes no payload (30_encoding.md R90). -/
theorem reserved_opcode {op : Byte} (h : 0x11 ≤ op.toNat) (ch a b : Byte) (p rest voc : List Byte) :
    payloadLen op a rest = some 0 ∧ commandOf op ch a b p voc = none := by
  constructor
  · unfold payloadLen; split <;> first | omega | rfl
  · unfold commandOf; split <;> first | omega | rfl

/-- The vocoder answers on the vocoder port are read back (30_encoding.md R85; layout: log entry 4). -/
theorem vocAnswersOf_encodeVoc {voc : List VocAnswer} (h9 : voc.length = 9) (hw : ∀ x ∈ voc, x.pcm.length = pcmLen)
    (r : List Byte) : vocAnswersOf ((voc.flatMap fun x => x.pcm ++ tobe 4 x.errs.toNat) ++ r) = voc := by
  have gen : ∀ l : List VocAnswer, (∀ x ∈ l, x.pcm.length = pcmLen) → ∀ k (hk : k < l.length),
      slice ((l.flatMap fun x => x.pcm ++ tobe 4 x.errs.toNat) ++ r) (vocAnswerLen * k) pcmLen = l[k].pcm ∧
      slice ((l.flatMap fun x => x.pcm ++ tobe 4 x.errs.toNat) ++ r) (vocAnswerLen * k + pcmLen) 4 =
        tobe 4 l[k].errs.toNat := by
    intro l
    induction l with
    | nil => intro _ k hk; exact absurd hk (Nat.not_lt_zero k)
    | cons x xs ih =>
      intro hl k hk
      have hx : x.pcm.length = pcmLen := hl x (by simp)
      have hrec : (x.pcm ++ tobe 4 x.errs.toNat).length = vocAnswerLen := by
        rw [List.length_append, hx, tobe_length]; rfl
      have shift : ∀ i n, slice (((x :: xs).flatMap fun x => x.pcm ++ tobe 4 x.errs.toNat) ++ r) (vocAnswerLen + i) n =
          slice ((xs.flatMap fun x => x.pcm ++ tobe 4 x.errs.toNat) ++ r) i n := by
        intro i n
        apply List.ext_getElem?
        intro j
        rw [slice_getElem?, slice_getElem?, List.flatMap_cons, List.getD_eq_getElem?_getD, List.getD_eq_getElem?_getD,
          List.append_assoc, List.getElem?_append_right (by rw [hrec]; omega), hrec,
          show vocAnswerLen + i + j - vocAnswerLen = i + j by omega]
      cases k with
      | zero =>
        simp only [List.flatMap_cons, Nat.mul_zero, Nat.zero_add, List.append_assoc]
        exact ⟨slice_head hx, by rw [← List.append_assoc]; exact slice_field hx (tobe_length _ _)⟩
      | succ k =>
        have hk' := ih (fun y hy => hl y (by simp [hy])) k (by simpa using hk)
        rw [show vocAnswerLen * (k + 1) = vocAnswerLen + vocAnswerLen * k by ring, Nat.add_assoc, shift, shift]
        exact hk'
  apply List.ext_getElem
  · simp [vocAnswersOf, h9]
  intro k _ hk
  have g := gen voc hw k hk
  simp only [vocAnswersOf, List.getElem_map, List.getElem_range]
  rw [g.1, g.2, ofNat_be_tobe (n := 4) _ rfl]

/-- The vocoder bytes of nine answers. -/
theorem encodeVoc_unpack_length {voc : List VocAnswer} (h9 : voc.length = 9) (hw : ∀ x ∈ voc, x.pcm.length = pcmLen) :
    (voc.flatMap fun x => x.pcm ++ tobe 4 x.errs.toNat).length = 9 * vocAnswerLen := by
  have gen : ∀ l : List VocAnswer, (∀ x ∈ l, x.pcm.length = pcmLen) →
      (l.flatMap fun x => x.pcm ++ tobe 4 x.errs.toNat).length = l.length * vocAnswerLen := by
    intro l
    induction l with
    | nil => intro _; simp
    | cons x xs ih =>
      intro hl
      rw [List.flatMap_cons, List.length_append, ih fun y hy => hl y (by simp [hy]), List.length_append,
        hl x (by simp), tobe_length, List.length_cons]
      simp only [vocAnswerLen]; ring
  rw [gen voc hw, h9]

end Sys2Proof
end

