-- ==== Sys2Proof/Laws/Ops.lean ====
section
/-! SUPPORT. What running a command on a channel can do (30_encoding.md R87 step 3, 10_state.md R36). -/

namespace Sys2Proof.Machine

theorem State.onChannel_of_some {s : State} {ch : Byte} {c : Channel} (f : Channel → Channel × Response)
    (h : s.chans[ch.toNat]? = some c) : s.onChannel ch f = s.answered ch (f c).1 (f c).2 := by
  simp [State.onChannel, h, State.answered]

theorem State.onChannel_of_none {s : State} {ch : Byte} (f : Channel → Channel × Response)
    (h : s.chans[ch.toNat]? = none) : s.onChannel ch f = s.fail .badChannel := by
  simp [State.onChannel, h]

/-- Everything `onChannel` can do: BadChannel and nothing else, or one channel and the response. -/
theorem State.onChannel_cases (s : State) (ch : Byte) (f : Channel → Channel × Response) :
    (s.chans.length ≤ ch.toNat ∧ s.onChannel ch f = s.fail .badChannel) ∨
    ∃ c, s.chans[ch.toNat]? = some c ∧ s.onChannel ch f = s.answered ch (f c).1 (f c).2 := by
  cases h : s.chans[ch.toNat]? with
  | none => exact .inl ⟨List.getElem?_eq_none_iff.1 h, State.onChannel_of_none f h⟩
  | some c => exact .inr ⟨c, rfl, State.onChannel_of_some f h⟩

@[simp] theorem State.onChannel_keys (s : State) (ch : Byte) (f : Channel → Channel × Response) :
    (s.onChannel ch f).keys = s.keys := by unfold State.onChannel; split <;> rfl

@[simp] theorem State.onChannel_port (s : State) (ch : Byte) (f : Channel → Channel × Response) :
    (s.onChannel ch f).port = s.port := by unfold State.onChannel; split <;> rfl

@[simp] theorem State.onChannel_vocPort (s : State) (ch : Byte) (f : Channel → Channel × Response) :
    (s.onChannel ch f).vocPort = s.vocPort := by unfold State.onChannel; split <;> rfl

@[simp] theorem State.onChannel_draw (s : State) (ch : Byte) (f : Channel → Channel × Response) :
    (s.onChannel ch f).draw = s.draw := by unfold State.onChannel; split <;> rfl

@[simp] theorem State.onChannel_nch (s : State) (ch : Byte) (f : Channel → Channel × Response) :
    (s.onChannel ch f).chans.length = s.chans.length := by
  unfold State.onChannel; split <;> simp [State.fail, State.respond]

/-- A channel other than the one named is as before. -/
theorem State.onChannel_other (s : State) (ch : Byte) (f : Channel → Channel × Response) (d : Nat) (h : d ≠ ch.toNat) :
    (s.onChannel ch f).chans[d]? = s.chans[d]? := by
  unfold State.onChannel
  split
  · rfl
  · simp [List.getElem?_set_ne h.symm]

/-- Writing a channel back as it was changes only the response. -/
theorem State.answered_same {s : State} {ch : Byte} {c : Channel} (r : Response) (h : s.chans[ch.toNat]? = some c) :
    s.answered ch c r = { s with resp := some r } := by
  obtain ⟨hlt, he⟩ := List.getElem?_eq_some_iff.1 h
  simp [State.answered, ← he]

@[simp] theorem State.answered_resp (s : State) (ch : Byte) (c : Channel) (r : Response) :
    (s.answered ch c r).resp = some r := rfl

@[simp] theorem State.answered_keys (s : State) (ch : Byte) (c : Channel) (r : Response) :
    (s.answered ch c r).keys = s.keys := rfl

theorem State.answered_chan {s : State} {ch : Byte} {c : Channel} (c' : Channel) (r : Response)
    (h : s.chans[ch.toNat]? = some c) : (s.answered ch c' r).chans[ch.toNat]? = some c' := by
  obtain ⟨hlt, -⟩ := List.getElem?_eq_some_iff.1 h
  simp [State.answered, hlt]

end Sys2Proof.Machine
end

