-- ==== Sys2Proof/Laws/Exec.lean ====
section
/-! SUPPORT. The shape of every meaning: a command that names a channel is a function of the key store and of that channel
(10_state.md R36). -/

namespace Sys2Proof.Machine

/-- Every command that names a channel is `onChannel` of a function of the key store. -/
theorem exec_onChannel {i : Instr} {ch : Byte} (h : channelOf i = some ch) :
    ∃ g : KeyStore → Channel → Channel × Response, ∀ s : State, exec i s = .next (s.onChannel ch (g s.keys)) := by
  cases i <;> simp only [channelOf, Option.some.injEq, reduceCtorEq] at h <;> subst h
  case prepare ch alg keyId phase mi =>
    exact ⟨fun keys c => if 2 ≤ phase.toNat then c.fail .badOperand
      else (c.prepare keys alg keyId (Phase.ofByte phase) mi,
        { status := (c.prepare keys alg keyId (Phase.ofByte phase) mi).ctxStatus, events := 0, payload := [] }),
      fun _ => rfl⟩
  case cyclemi ch => exact ⟨fun _ c => (c.cycleMi, { status := .ok, events := evMiCycled, payload := c.cycleMi.ctxMi }),
    fun _ => rfl⟩
  case process ch ft idx cw =>
    exact ⟨fun _ c => match frameType ft with
      | none => c.fail .badOperand
      | some t => ((c.crypt t idx.toNat cw).2.1,
        { status := (c.crypt t idx.toNat cw).1, events := 0, payload := (c.crypt t idx.toNat cw).2.2 }), fun _ => rfl⟩
  case pack ch f cw =>
    exact ⟨fun keys c => match c.packOne keys cw f with
      | .error st => c.fail st
      | .ok x => x, fun _ => rfl⟩
  case unpack ch ft v f buf voc =>
    exact ⟨fun keys c =>
      if 2 ≤ ft.toNat then c.fail .badOperand
      else if v = false then c.fail .malformedFrame
      else if c.unpackStatus (if ft = 0 then .ldu1 else .ldu2) ≠ .ok ∧ f = true then
        c.fail (c.unpackStatus (if ft = 0 then .ldu1 else .ldu2))
      else c.unpackAll keys (if ft = 0 then .ldu1 else .ldu2) (c.unpackStatus (if ft = 0 then .ldu1 else .ldu2)) buf voc,
      fun _ => rfl⟩
  case txpcm ch f pcm voc =>
    exact ⟨fun keys c => match c.packOne keys (txCodeword pcm voc) f with
      | .error st => c.fail st
      | .ok x => (x.1, { status := x.2.status, events := x.2.events ||| txEvents pcm,
                         payload := tobe 2 (Config.toneDetect pcm).toNat ++ x.2.payload }), fun _ => rfl⟩
  case rxframe ch duid e a b c t => exact ⟨fun _ x => x.rxFrame duid e a b c t, fun _ => rfl⟩
  case esync ch alg keyId phase mi =>
    exact ⟨fun keys c => if 2 ≤ phase.toNat then c.fail .badOperand
      else if syncEncrypted alg keyId then
        (({ c with sEnc := syncEncrypted alg keyId }.prepare keys alg keyId (Phase.ofByte phase) mi),
          { status := ({ c with sEnc := syncEncrypted alg keyId }.prepare keys alg keyId (Phase.ofByte phase) mi).ctxStatus,
            events := 0, payload := [] })
      else { c with sEnc := syncEncrypted alg keyId }.done, fun _ => rfl⟩
  case select ch v => exact ⟨fun _ c => { c with selected := v }.done, fun _ => rfl⟩
  case enccfg ch v => exact ⟨fun _ c => { c with txEnc := v }.done, fun _ => rfl⟩
  case wrseq ch n => exact ⟨fun _ c => { c with seqNo := n }.done, fun _ => rfl⟩
  case chreset ch => exact ⟨fun _ c => c.sessionReset.done, fun _ => rfl⟩
  case rdstat ch => exact ⟨fun _ c => (c, { status := .ok, events := 0, payload := c.statusBlock }), fun _ => rfl⟩

end Sys2Proof.Machine
end

