-- ==== Sys2Proof/Laws/Memory.lean ====
section
/-! SUPPORT. The laws of the byte spaces (20_memory.md R61) and of the key store (10_state.md R22): read after write,
the canonical form kept by every operation. -/

namespace Sys2Proof.Machine

@[simp] theorem Memory.read_nil (a : Nat) : Memory.read [] a = 0 := rfl
@[simp] theorem Memory.read_clear (a : Nat) : Memory.clear.read a = 0 := rfl
theorem Memory.wf_nil : Memory.wf [] := by simp [Memory.wf]
theorem Memory.wf_clear : Memory.clear.wf := Memory.wf_nil

/-- A cell of the space a write gives is a cell of the space before, or the cell written. -/
theorem Memory.mem_write {m : Memory} {a : Nat} {v : Byte} {x : Host.Cell} (h : x ∈ m.write a v) :
    x ∈ m ∨ (x = (a, v) ∧ v ≠ Memory.unlisted) := by
  induction m with
  | nil => by_cases hv : v = Memory.unlisted <;> simp_all [Memory.write]
  | cons c m ih =>
    obtain ⟨b, w⟩ := c
    simp only [Memory.write] at h
    split_ifs at h <;> simp_all
    · tauto
    · tauto
    · rcases h with h | h
      · exact .inl (.inl h)
      · rcases ih h with h | h <;> tauto

/-- A write keeps the canonical form. -/
theorem Memory.write_wf {m : Memory} (a : Nat) (v : Byte) (h : m.wf) : (m.write a v).wf := by
  induction m with
  | nil => by_cases hv : v = Memory.unlisted <;> simp_all [Memory.write, Memory.wf]
  | cons c m ih =>
    obtain ⟨b, w⟩ := c
    obtain ⟨hp, hz⟩ := h
    rw [List.pairwise_cons] at hp
    have hm : Memory.wf m := ⟨hp.2, fun x hx => hz x (List.mem_cons_of_mem _ hx)⟩
    have hw : w ≠ Memory.unlisted := hz _ (List.mem_cons_self ..)
    simp only [Memory.write]
    split_ifs with h1 h2 h3 h4
    · exact ⟨List.pairwise_cons.2 hp, hz⟩
    · refine ⟨List.pairwise_cons.2 ⟨?_, List.pairwise_cons.2 hp⟩, ?_⟩
      · intro x hx
        rcases List.mem_cons.1 hx with rfl | hx
        · exact h1
        · exact lt_trans h1 (hp.1 x hx)
      · intro x hx
        rcases List.mem_cons.1 hx with rfl | hx
        · exact h2
        · exact hz x hx
    · exact hm
    · subst h3
      refine ⟨List.pairwise_cons.2 ⟨hp.1, hp.2⟩, ?_⟩
      intro x hx
      rcases List.mem_cons.1 hx with rfl | hx
      · exact h4
      · exact hm.2 x hx
    · have hr := ih hm
      refine ⟨List.pairwise_cons.2 ⟨?_, hr.1⟩, ?_⟩
      · intro x hx
        rcases Memory.mem_write hx with hx | ⟨rfl, -⟩
        · exact hp.1 x hx
        · simp only; omega
      · intro x hx
        rcases List.mem_cons.1 hx with rfl | hx
        · exact hw
        · exact hr.2 x hx

theorem Memory.read_eq_zero_of_lt {m : Memory} {a : Nat} (h : ∀ x ∈ m, a < x.1) : m.read a = 0 := by
  induction m with
  | nil => rfl
  | cons c m ih =>
    obtain ⟨b, w⟩ := c
    have hb : a < b := h _ (List.mem_cons_self ..)
    simp only [Memory.read, if_neg (Nat.ne_of_lt hb)]
    exact ih fun x hx => h x (List.mem_cons_of_mem _ hx)

/-- Read after write: the byte written at its address, every other byte as before. -/
theorem Memory.read_write {m : Memory} (a : Nat) (v : Byte) (x : Nat) (h : m.wf) :
    (m.write a v).read x = if x = a then v else m.read x := by
  induction m with
  | nil =>
    by_cases hv : v = Memory.unlisted
    · by_cases hx : x = a <;> simp_all [Memory.write, Memory.read, Memory.unlisted]
    · by_cases hx : x = a <;> simp_all [Memory.write, Memory.read, Memory.unlisted]
  | cons c m ih =>
    obtain ⟨b, w⟩ := c
    obtain ⟨hp, hz⟩ := h
    rw [List.pairwise_cons] at hp
    have hm : Memory.wf m := ⟨hp.2, fun x hx => hz x (List.mem_cons_of_mem _ hx)⟩
    simp only [Memory.write]
    split_ifs with h1 h2 h3 h4 h5 h6 h7 h8 h9
    · subst h3; subst h2
      refine Memory.read_eq_zero_of_lt fun y hy => ?_
      rcases List.mem_cons.1 hy with rfl | hy
      · exact h1
      · exact lt_trans h1 (hp.1 y hy)
    · rfl
    · simp [Memory.read, h4]
    · simp [Memory.read, h4]
    · subst h7; subst h6; subst h5
      exact Memory.read_eq_zero_of_lt hp.1
    · subst h5; simp [Memory.read, h7]
    · subst h5; simp [Memory.read, h8]
    · subst h5; simp [Memory.read, h8]
    · simp only [Memory.read]
      rw [ih hm]
      simp only [h9, if_true]
      rw [if_neg h5]
    · simp only [Memory.read, ih hm, if_neg h9]

/-- `MemWrite` keeps the canonical form (20_memory.md R61). -/
theorem Memory.writeBytes_wf {m : Memory} (a : Nat) (v : List Byte) (h : m.wf) : (m.writeBytes a v).wf := by
  induction v generalizing a with
  | nil => exact h
  | cons b bs ih => exact Memory.write_wf _ _ (ih _)

/-- `MemWrite` sets the bytes it names and no other (20_memory.md R61). -/
theorem Memory.read_writeBytes {m : Memory} (a : Nat) (v : List Byte) (x : Nat) (h : m.wf) :
    (m.writeBytes a v).read x = if a ≤ x ∧ x < a + v.length then v.getD (x - a) 0 else m.read x := by
  induction v generalizing a with
  | nil =>
    rw [if_neg (by simp only [List.length_nil]; omega)]
    rfl
  | cons b bs ih =>
    simp only [Memory.writeBytes]
    rw [Memory.read_write _ _ _ (Memory.writeBytes_wf _ _ h), ih]
    simp only [List.length_cons]
    by_cases hx : x = a
    · subst hx
      rw [if_pos rfl, if_pos (by omega)]
      simp
    · rw [if_neg hx]
      by_cases hr : a + 1 ≤ x ∧ x < a + 1 + bs.length
      · rw [if_pos hr, if_pos (by omega)]
        have : x - a = (x - (a + 1)) + 1 := by omega
        rw [this, List.getD_cons_succ]
      · rw [if_neg hr, if_neg (by omega)]

/-- A cell of the space a `MemWrite` gives is a cell of the space before or lies in the range written. -/
theorem Memory.mem_writeBytes {m : Memory} {a : Nat} {v : List Byte} {x : Host.Cell} (h : x ∈ m.writeBytes a v) :
    x ∈ m ∨ (a ≤ x.1 ∧ x.1 < a + v.length) := by
  induction v generalizing a with
  | nil => exact .inl h
  | cons b bs ih =>
    simp only [Memory.writeBytes] at h
    rcases Memory.mem_write h with h | ⟨rfl, -⟩
    · rcases ih h with h | h
      · exact .inl h
      · simp only [List.length_cons]; exact .inr (by omega)
    · simp only [List.length_cons]; exact .inr (by omega)

@[simp] theorem Memory.readBytes_length (m : Memory) (a n : Nat) : (m.readBytes a n).length = n := by
  simp [Memory.readBytes]

/-- `MemRead` (20_memory.md R61), byte by byte. -/
theorem Memory.readBytes_getElem? (m : Memory) (a n i : Nat) :
    (m.readBytes a n)[i]? = if i < n then some (m.read (a + i)) else none := by
  by_cases h : i < n <;> simp [Memory.readBytes, h]

/-- What `MemWrite` wrote is what `MemRead` reads there. -/
theorem Memory.readBytes_writeBytes {m : Memory} (a : Nat) (v : List Byte) (h : m.wf) :
    (m.writeBytes a v).readBytes a v.length = v := by
  apply List.ext_getElem?
  intro i
  rw [Memory.readBytes_getElem?]
  by_cases hi : i < v.length
  · rw [if_pos hi, Memory.read_writeBytes _ _ _ h, if_pos (by omega)]
    simp [hi]
  · rw [if_neg hi]; simp [hi]

theorem Memory.ofBytes_wf (v : List Byte) : (Memory.ofBytes v).wf := Memory.writeBytes_wf _ _ Memory.wf_clear

theorem Memory.ofBytes_within (v : List Byte) : (Memory.ofBytes v).within v.length := by
  intro x hx
  rcases Memory.mem_writeBytes hx with h | h
  · simp [Memory.clear] at h
  · omega

theorem Memory.read_ofBytes (v : List Byte) (x : Nat) : (Memory.ofBytes v).read x = v.getD x 0 := by
  rw [Memory.ofBytes, Memory.read_writeBytes _ _ _ Memory.wf_clear]
  by_cases h : x < v.length
  · simp [h]
  · simp [h]

theorem Memory.readBytes_ofBytes_slice (v : List Byte) (i n : Nat) (h : i + n ≤ v.length) :
    (Memory.ofBytes v).readBytes i n = (v.drop i).take n := by
  apply List.ext_getElem?
  intro j
  rw [Memory.readBytes_getElem?, List.getElem?_take, List.getElem?_drop]
  split_ifs with hj
  · rw [Memory.read_ofBytes, List.getD_eq_getElem _ _ (by omega), List.getElem?_eq_getElem (by omega)]
  · rfl

theorem Memory.readBytes_ofBytes (v : List Byte) : (Memory.ofBytes v).readBytes 0 v.length = v :=
  Memory.readBytes_writeBytes 0 v Memory.wf_clear

/-- In the canonical form equal contents are equal data. -/
theorem Memory.ext_of_wf {m m' : Memory} (h : m.wf) (h' : m'.wf) (e : ∀ a, m.read a = m'.read a) : m = m' := by
  induction m generalizing m' with
  | nil =>
    cases m' with
    | nil => rfl
    | cons c t =>
      have := e c.1
      simp only [Memory.read, if_true] at this
      exact absurd this.symm (h'.2 c (List.mem_cons_self ..))
  | cons c t ih =>
    obtain ⟨b, w⟩ := c
    have hp := List.pairwise_cons.1 h.1
    have hw : w ≠ 0 := h.2 _ (List.mem_cons_self ..)
    cases m' with
    | nil =>
      have := e b
      simp only [Memory.read, if_true] at this
      exact absurd this hw
    | cons c' t' =>
      obtain ⟨b', w'⟩ := c'
      have hp' := List.pairwise_cons.1 h'.1
      have hw' : w' ≠ 0 := h'.2 _ (List.mem_cons_self ..)
      have hb : b = b' := by
        rcases lt_trichotomy b b' with hlt | heq | hgt
        · have h1 := e b
          rw [Memory.read_eq_zero_of_lt (m := (b', w') :: t') (a := b)] at h1
          · simp only [Memory.read, if_true] at h1; exact absurd h1 hw
          · intro x hx
            rcases List.mem_cons.1 hx with rfl | hx
            · exact hlt
            · exact lt_trans hlt (hp'.1 x hx)
        · exact heq
        · have h1 := e b'
          rw [Memory.read_eq_zero_of_lt (m := (b, w) :: t) (a := b')] at h1
          · simp only [Memory.read, if_true] at h1; exact absurd h1.symm hw'
          · intro x hx
            rcases List.mem_cons.1 hx with rfl | hx
            · exact hgt
            · exact lt_trans hgt (hp.1 x hx)
      subst hb
      have hww : w = w' := by have := e b; simpa [Memory.read] using this
      subst hww
      rw [ih ⟨hp.2, fun x hx => h.2 x (List.mem_cons_of_mem _ hx)⟩
        ⟨hp'.2, fun x hx => h'.2 x (List.mem_cons_of_mem _ hx)⟩]
      intro a
      by_cases ha : a = b
      · subst ha
        rw [Memory.read_eq_zero_of_lt hp.1, Memory.read_eq_zero_of_lt hp'.1]
      · have := e a
        simpa [Memory.read, ha] using this

/-- The record a key id maps to after `KEYS[k] <- r` (40_keystream.md R110). -/
theorem KeyStore.find_set (ks : KeyStore) (k : U16) (r : KeyRecord) (x : U16) :
    (ks.set k r).find x = if x = k then some r else ks.find x := by
  induction ks with
  | nil => simp [KeyStore.set, KeyStore.find]
  | cons e ks ih =>
    obtain ⟨k', r'⟩ := e
    simp only [KeyStore.set]
    split_ifs with h1 h2 h3 h4
    · simp [KeyStore.find, h2]
    · simp [KeyStore.find, h2]
    · simp [KeyStore.find, h4]
    · subst h3; simp [KeyStore.find, h4]
    · subst ‹x = k›; simp [KeyStore.find, h3, ih]
    · simp [KeyStore.find, ih, ‹¬ x = k›]

theorem KeyStore.mem_set {ks : KeyStore} {k : U16} {r : KeyRecord} {e : U16 × KeyRecord} (h : e ∈ ks.set k r) :
    e ∈ ks ∨ e = (k, r) := by
  induction ks with
  | nil => simpa [KeyStore.set] using h
  | cons c ks ih =>
    obtain ⟨k', r'⟩ := c
    simp only [KeyStore.set] at h
    split_ifs at h <;> simp only [List.mem_cons] at h ⊢
    · tauto
    · tauto
    · rcases h with h | h
      · tauto
      · rcases ih h with h | h <;> tauto

/-- `KEYS[k] <- r` keeps the canonical form of the key store. -/
theorem KeyStore.set_wf {ks : KeyStore} (k : U16) (r : KeyRecord) (h : ks.wf) : (ks.set k r).wf := by
  induction ks with
  | nil => simp [KeyStore.set, KeyStore.wf]
  | cons c ks ih =>
    obtain ⟨k', r'⟩ := c
    have hp := List.pairwise_cons.1 h
    simp only [KeyStore.set]
    split_ifs with h1 h2
    · refine List.pairwise_cons.2 ⟨?_, h⟩
      intro x hx
      rcases List.mem_cons.1 hx with rfl | hx
      · exact h1
      · exact lt_trans h1 (hp.1 x hx)
    · subst h2; exact List.pairwise_cons.2 ⟨hp.1, hp.2⟩
    · refine List.pairwise_cons.2 ⟨?_, ih hp.2⟩
      intro x hx
      rcases KeyStore.mem_set hx with hx | rfl
      · exact hp.1 x hx
      · have : k.toNat ≠ k'.toNat := fun e => h2 (BitVec.eq_of_toNat_eq e)
        simp only; omega

end Sys2Proof.Machine
end

