-- ==== Sys2Proof/Laws/State.lean ====
section
/-! SUPPORT. The small lemmas of the state: one per field per update, so that no later proof unfolds a record update. -/

namespace Sys2Proof.Machine

/-! ### respond -/

@[simp] theorem State.respond_keys (s : State) (r : Response) : (s.respond r).keys = s.keys := rfl
@[simp] theorem State.respond_chans (s : State) (r : Response) : (s.respond r).chans = s.chans := rfl
@[simp] theorem State.respond_port (s : State) (r : Response) : (s.respond r).port = s.port := rfl
@[simp] theorem State.respond_vocPort (s : State) (r : Response) : (s.respond r).vocPort = s.vocPort := rfl
@[simp] theorem State.respond_draw (s : State) (r : Response) : (s.respond r).draw = s.draw := rfl
@[simp] theorem State.respond_resp (s : State) (r : Response) : (s.respond r).resp = some r := rfl

/-! ### fail (00_scope.md R10) -/

@[simp] theorem State.fail_keys (s : State) (st : Status) : (s.fail st).keys = s.keys := rfl
@[simp] theorem State.fail_chans (s : State) (st : Status) : (s.fail st).chans = s.chans := rfl
@[simp] theorem State.fail_port (s : State) (st : Status) : (s.fail st).port = s.port := rfl
@[simp] theorem State.fail_vocPort (s : State) (st : Status) : (s.fail st).vocPort = s.vocPort := rfl
@[simp] theorem State.fail_draw (s : State) (st : Status) : (s.fail st).draw = s.draw := rfl
@[simp] theorem State.fail_resp (s : State) (st : Status) : (s.fail st).resp = some (Response.fail st) := rfl

/-! ### advance -/

@[simp] theorem State.advance_keys (s : State) (rest : List Byte) (n : Nat) : (s.advance rest n).keys = s.keys := rfl
@[simp] theorem State.advance_chans (s : State) (rest : List Byte) (n : Nat) : (s.advance rest n).chans = s.chans := rfl
@[simp] theorem State.advance_port (s : State) (rest : List Byte) (n : Nat) : (s.advance rest n).port = rest := rfl
@[simp] theorem State.advance_vocPort (s : State) (rest : List Byte) (n : Nat) : (s.advance rest n).vocPort = s.vocPort.drop n := rfl
@[simp] theorem State.advance_draw (s : State) (rest : List Byte) (n : Nat) : (s.advance rest n).draw = s.draw + (n - s.vocPort.length) := rfl
@[simp] theorem State.advance_resp (s : State) (rest : List Byte) (n : Nat) : (s.advance rest n).resp = s.resp := rfl

/-! ### CycleMI (41_mi_lfsr.md R151) -/

@[simp] theorem Channel.cycleMi_ctxAlg (c : Channel) : (c.cycleMi).ctxAlg = c.ctxAlg := rfl
@[simp] theorem Channel.cycleMi_ctxKeyId (c : Channel) : (c.cycleMi).ctxKeyId = c.ctxKeyId := rfl
@[simp] theorem Channel.cycleMi_ctxPhase (c : Channel) : (c.cycleMi).ctxPhase = c.ctxPhase := rfl
@[simp] theorem Channel.cycleMi_ctxMi (c : Channel) : (c.cycleMi).ctxMi = Machine.cycleMi c.ctxMi := rfl
@[simp] theorem Channel.cycleMi_ks (c : Channel) : (c.cycleMi).ks = c.ks := rfl
@[simp] theorem Channel.cycleMi_ksLen (c : Channel) : (c.cycleMi).ksLen = c.ksLen := rfl
@[simp] theorem Channel.cycleMi_ctxStatus (c : Channel) : (c.cycleMi).ctxStatus = c.ctxStatus := rfl
@[simp] theorem Channel.cycleMi_cursor (c : Channel) : (c.cycleMi).cursor = c.cursor := rfl
@[simp] theorem Channel.cycleMi_p25n (c : Channel) : (c.cycleMi).p25n = c.p25n := rfl
@[simp] theorem Channel.cycleMi_seqNo (c : Channel) : (c.cycleMi).seqNo = c.seqNo := rfl
@[simp] theorem Channel.cycleMi_ldu1 (c : Channel) : (c.cycleMi).ldu1 = c.ldu1 := rfl
@[simp] theorem Channel.cycleMi_ldu2 (c : Channel) : (c.cycleMi).ldu2 = c.ldu2 := rfl
@[simp] theorem Channel.cycleMi_callState (c : Channel) : (c.cycleMi).callState = c.callState := rfl
@[simp] theorem Channel.cycleMi_sSrc (c : Channel) : (c.cycleMi).sSrc = c.sSrc := rfl
@[simp] theorem Channel.cycleMi_sDst (c : Channel) : (c.cycleMi).sDst = c.sDst := rfl
@[simp] theorem Channel.cycleMi_sStream (c : Channel) : (c.cycleMi).sStream = c.sStream := rfl
@[simp] theorem Channel.cycleMi_sStart (c : Channel) : (c.cycleMi).sStart = c.sStart := rfl
@[simp] theorem Channel.cycleMi_sDuration (c : Channel) : (c.cycleMi).sDuration = c.sDuration := rfl
@[simp] theorem Channel.cycleMi_sFType (c : Channel) : (c.cycleMi).sFType = c.sFType := rfl
@[simp] theorem Channel.cycleMi_sEnc (c : Channel) : (c.cycleMi).sEnc = c.sEnc := rfl
@[simp] theorem Channel.cycleMi_sEmerg (c : Channel) : (c.cycleMi).sEmerg = c.sEmerg := rfl
@[simp] theorem Channel.cycleMi_rxStream (c : Channel) : (c.cycleMi).rxStream = c.rxStream := rfl
@[simp] theorem Channel.cycleMi_rxFType (c : Channel) : (c.cycleMi).rxFType = c.rxFType := rfl
@[simp] theorem Channel.cycleMi_rxTime (c : Channel) : (c.cycleMi).rxTime = c.rxTime := rfl
@[simp] theorem Channel.cycleMi_imbeErrs (c : Channel) : (c.cycleMi).imbeErrs = c.imbeErrs := rfl
@[simp] theorem Channel.cycleMi_frameErr (c : Channel) : (c.cycleMi).frameErr = c.frameErr := rfl
@[simp] theorem Channel.cycleMi_selected (c : Channel) : (c.cycleMi).selected = c.selected := rfl
@[simp] theorem Channel.cycleMi_txEnc (c : Channel) : (c.cycleMi).txEnc = c.txEnc := rfl

/-! ### SessionReset (44_call_tracker.md R228) -/

@[simp] theorem Channel.sessionReset_ctxAlg (c : Channel) : (c.sessionReset).ctxAlg = 0 := rfl
@[simp] theorem Channel.sessionReset_ctxKeyId (c : Channel) : (c.sessionReset).ctxKeyId = 0 := rfl
@[simp] theorem Channel.sessionReset_ctxPhase (c : Channel) : (c.sessionReset).ctxPhase = .phase1 := rfl
@[simp] theorem Channel.sessionReset_ctxMi (c : Channel) : (c.sessionReset).ctxMi = zeros 9 := rfl
@[simp] theorem Channel.sessionReset_ks (c : Channel) : (c.sessionReset).ks = Memory.clear := rfl
@[simp] theorem Channel.sessionReset_ksLen (c : Channel) : (c.sessionReset).ksLen = 0 := rfl
@[simp] theorem Channel.sessionReset_ctxStatus (c : Channel) : (c.sessionReset).ctxStatus = .notPrepared := rfl
@[simp] theorem Channel.sessionReset_cursor (c : Channel) : (c.sessionReset).cursor = 0 := rfl
@[simp] theorem Channel.sessionReset_p25n (c : Channel) : (c.sessionReset).p25n = 0 := rfl
@[simp] theorem Channel.sessionReset_seqNo (c : Channel) : (c.sessionReset).seqNo = c.seqNo := rfl
@[simp] theorem Channel.sessionReset_ldu1 (c : Channel) : (c.sessionReset).ldu1 = Memory.clear := rfl
@[simp] theorem Channel.sessionReset_ldu2 (c : Channel) : (c.sessionReset).ldu2 = Memory.clear := rfl
@[simp] theorem Channel.sessionReset_callState (c : Channel) : (c.sessionReset).callState = c.callState := rfl
@[simp] theorem Channel.sessionReset_sSrc (c : Channel) : (c.sessionReset).sSrc = c.sSrc := rfl
@[simp] theorem Channel.sessionReset_sDst (c : Channel) : (c.sessionReset).sDst = c.sDst := rfl
@[simp] theorem Channel.sessionReset_sStream (c : Channel) : (c.sessionReset).sStream = c.sStream := rfl
@[simp] theorem Channel.sessionReset_sStart (c : Channel) : (c.sessionReset).sStart = c.sStart := rfl
@[simp] theorem Channel.sessionReset_sDuration (c : Channel) : (c.sessionReset).sDuration = c.sDuration := rfl
@[simp] theorem Channel.sessionReset_sFType (c : Channel) : (c.sessionReset).sFType = c.sFType := rfl
@[simp] theorem Channel.sessionReset_sEnc (c : Channel) : (c.sessionReset).sEnc = c.sEnc := rfl
@[simp] theorem Channel.sessionReset_sEmerg (c : Channel) : (c.sessionReset).sEmerg = c.sEmerg := rfl
@[simp] theorem Channel.sessionReset_rxStream (c : Channel) : (c.sessionReset).rxStream = c.rxStream := rfl
@[simp] theorem Channel.sessionReset_rxFType (c : Channel) : (c.sessionReset).rxFType = c.rxFType := rfl
@[simp] theorem Channel.sessionReset_rxTime (c : Channel) : (c.sessionReset).rxTime = c.rxTime := rfl
@[simp] theorem Channel.sessionReset_imbeErrs (c : Channel) : (c.sessionReset).imbeErrs = 0 := rfl
@[simp] theorem Channel.sessionReset_frameErr (c : Channel) : (c.sessionReset).frameErr = false := rfl
@[simp] theorem Channel.sessionReset_selected (c : Channel) : (c.sessionReset).selected = c.selected := rfl
@[simp] theorem Channel.sessionReset_txEnc (c : Channel) : (c.sessionReset).txEnc = c.txEnc := rfl

/-! ### CallStart (44_call_tracker.md R222) -/

@[simp] theorem Channel.callStart_ctxAlg (duid : Byte) (e : Bool) (st sr ds : U32) (t : U64) (c : Channel) : (c.callStart duid e st sr ds t).ctxAlg = c.ctxAlg := rfl
@[simp] theorem Channel.callStart_ctxKeyId (duid : Byte) (e : Bool) (st sr ds : U32) (t : U64) (c : Channel) : (c.callStart duid e st sr ds t).ctxKeyId = c.ctxKeyId := rfl
@[simp] theorem Channel.callStart_ctxPhase (duid : Byte) (e : Bool) (st sr ds : U32) (t : U64) (c : Channel) : (c.callStart duid e st sr ds t).ctxPhase = c.ctxPhase := rfl
@[simp] theorem Channel.callStart_ctxMi (duid : Byte) (e : Bool) (st sr ds : U32) (t : U64) (c : Channel) : (c.callStart duid e st sr ds t).ctxMi = zeros 9 := rfl
@[simp] theorem Channel.callStart_ks (duid : Byte) (e : Bool) (st sr ds : U32) (t : U64) (c : Channel) : (c.callStart duid e st sr ds t).ks = c.ks := rfl
@[simp] theorem Channel.callStart_ksLen (duid : Byte) (e : Bool) (st sr ds : U32) (t : U64) (c : Channel) : (c.callStart duid e st sr ds t).ksLen = 0 := rfl
@[simp] theorem Channel.callStart_ctxStatus (duid : Byte) (e : Bool) (st sr ds : U32) (t : U64) (c : Channel) : (c.callStart duid e st sr ds t).ctxStatus = .notPrepared := rfl
@[simp] theorem Channel.callStart_cursor (duid : Byte) (e : Bool) (st sr ds : U32) (t : U64) (c : Channel) : (c.callStart duid e st sr ds t).cursor = 0 := rfl
@[simp] theorem Channel.callStart_p25n (duid : Byte) (e : Bool) (st sr ds : U32) (t : U64) (c : Channel) : (c.callStart duid e st sr ds t).p25n = c.p25n := rfl
@[simp] theorem Channel.callStart_seqNo (duid : Byte) (e : Bool) (st sr ds : U32) (t : U64) (c : Channel) : (c.callStart duid e st sr ds t).seqNo = c.seqNo := rfl
@[simp] theorem Channel.callStart_ldu1 (duid : Byte) (e : Bool) (st sr ds : U32) (t : U64) (c : Channel) : (c.callStart duid e st sr ds t).ldu1 = c.ldu1 := rfl
@[simp] theorem Channel.callStart_ldu2 (duid : Byte) (e : Bool) (st sr ds : U32) (t : U64) (c : Channel) : (c.callStart duid e st sr ds t).ldu2 = c.ldu2 := rfl
@[simp] theorem Channel.callStart_callState (duid : Byte) (e : Bool) (st sr ds : U32) (t : U64) (c : Channel) : (c.callStart duid e st sr ds t).callState = .receiving := rfl
@[simp] theorem Channel.callStart_sSrc (duid : Byte) (e : Bool) (st sr ds : U32) (t : U64) (c : Channel) : (c.callStart duid e st sr ds t).sSrc = sr := rfl
@[simp] theorem Channel.callStart_sDst (duid : Byte) (e : Bool) (st sr ds : U32) (t : U64) (c : Channel) : (c.callStart duid e st sr ds t).sDst = ds := rfl
@[simp] theorem Channel.callStart_sStream (duid : Byte) (e : Bool) (st sr ds : U32) (t : U64) (c : Channel) : (c.callStart duid e st sr ds t).sStream = st := rfl
@[simp] theorem Channel.callStart_sStart (duid : Byte) (e : Bool) (st sr ds : U32) (t : U64) (c : Channel) : (c.callStart duid e st sr ds t).sStart = t := rfl
@[simp] theorem Channel.callStart_sDuration (duid : Byte) (e : Bool) (st sr ds : U32) (t : U64) (c : Channel) : (c.callStart duid e st sr ds t).sDuration = c.sDuration := rfl
@[simp] theorem Channel.callStart_sFType (duid : Byte) (e : Bool) (st sr ds : U32) (t : U64) (c : Channel) : (c.callStart duid e st sr ds t).sFType = duid := rfl
@[simp] theorem Channel.callStart_sEnc (duid : Byte) (e : Bool) (st sr ds : U32) (t : U64) (c : Channel) : (c.callStart duid e st sr ds t).sEnc = false := rfl
@[simp] theorem Channel.callStart_sEmerg (duid : Byte) (e : Bool) (st sr ds : U32) (t : U64) (c : Channel) : (c.callStart duid e st sr ds t).sEmerg = e := rfl
@[simp] theorem Channel.callStart_rxStream (duid : Byte) (e : Bool) (st sr ds : U32) (t : U64) (c : Channel) : (c.callStart duid e st sr ds t).rxStream = c.rxStream := rfl
@[simp] theorem Channel.callStart_rxFType (duid : Byte) (e : Bool) (st sr ds : U32) (t : U64) (c : Channel) : (c.callStart duid e st sr ds t).rxFType = c.rxFType := rfl
@[simp] theorem Channel.callStart_rxTime (duid : Byte) (e : Bool) (st sr ds : U32) (t : U64) (c : Channel) : (c.callStart duid e st sr ds t).rxTime = c.rxTime := rfl
@[simp] theorem Channel.callStart_imbeErrs (duid : Byte) (e : Bool) (st sr ds : U32) (t : U64) (c : Channel) : (c.callStart duid e st sr ds t).imbeErrs = c.imbeErrs := rfl
@[simp] theorem Channel.callStart_frameErr (duid : Byte) (e : Bool) (st sr ds : U32) (t : U64) (c : Channel) : (c.callStart duid e st sr ds t).frameErr = false := rfl
@[simp] theorem Channel.callStart_selected (duid : Byte) (e : Bool) (st sr ds : U32) (t : U64) (c : Channel) : (c.callStart duid e st sr ds t).selected = c.selected := rfl
@[simp] theorem Channel.callStart_txEnc (duid : Byte) (e : Bool) (st sr ds : U32) (t : U64) (c : Channel) : (c.callStart duid e st sr ds t).txEnc = c.txEnc := rfl

/-! ### CallEnd (44_call_tracker.md R223) -/

@[simp] theorem Channel.callEnd_ctxAlg (t : U64) (c : Channel) : (c.callEnd t).ctxAlg = 0 := rfl
@[simp] theorem Channel.callEnd_ctxKeyId (t : U64) (c : Channel) : (c.callEnd t).ctxKeyId = 0 := rfl
@[simp] theorem Channel.callEnd_ctxPhase (t : U64) (c : Channel) : (c.callEnd t).ctxPhase = .phase1 := rfl
@[simp] theorem Channel.callEnd_ctxMi (t : U64) (c : Channel) : (c.callEnd t).ctxMi = zeros 9 := rfl
@[simp] theorem Channel.callEnd_ks (t : U64) (c : Channel) : (c.callEnd t).ks = Memory.clear := rfl
@[simp] theorem Channel.callEnd_ksLen (t : U64) (c : Channel) : (c.callEnd t).ksLen = 0 := rfl
@[simp] theorem Channel.callEnd_ctxStatus (t : U64) (c : Channel) : (c.callEnd t).ctxStatus = .notPrepared := rfl
@[simp] theorem Channel.callEnd_cursor (t : U64) (c : Channel) : (c.callEnd t).cursor = 0 := rfl
@[simp] theorem Channel.callEnd_p25n (t : U64) (c : Channel) : (c.callEnd t).p25n = 0 := rfl
@[simp] theorem Channel.callEnd_seqNo (t : U64) (c : Channel) : (c.callEnd t).seqNo = c.seqNo := rfl
@[simp] theorem Channel.callEnd_ldu1 (t : U64) (c : Channel) : (c.callEnd t).ldu1 = Memory.clear := rfl
@[simp] theorem Channel.callEnd_ldu2 (t : U64) (c : Channel) : (c.callEnd t).ldu2 = Memory.clear := rfl
@[simp] theorem Channel.callEnd_callState (t : U64) (c : Channel) : (c.callEnd t).callState = .idle := rfl
@[simp] theorem Channel.callEnd_sSrc (t : U64) (c : Channel) : (c.callEnd t).sSrc = c.sSrc := rfl
@[simp] theorem Channel.callEnd_sDst (t : U64) (c : Channel) : (c.callEnd t).sDst = c.sDst := rfl
@[simp] theorem Channel.callEnd_sStream (t : U64) (c : Channel) : (c.callEnd t).sStream = c.sStream := rfl
@[simp] theorem Channel.callEnd_sStart (t : U64) (c : Channel) : (c.callEnd t).sStart = c.sStart := rfl
@[simp] theorem Channel.callEnd_sDuration (t : U64) (c : Channel) : (c.callEnd t).sDuration = t - c.sStart := rfl
@[simp] theorem Channel.callEnd_sFType (t : U64) (c : Channel) : (c.callEnd t).sFType = c.sFType := rfl
@[simp] theorem Channel.callEnd_sEnc (t : U64) (c : Channel) : (c.callEnd t).sEnc = c.sEnc := rfl
@[simp] theorem Channel.callEnd_sEmerg (t : U64) (c : Channel) : (c.callEnd t).sEmerg = c.sEmerg := rfl
@[simp] theorem Channel.callEnd_rxStream (t : U64) (c : Channel) : (c.callEnd t).rxStream = c.rxStream := rfl
@[simp] theorem Channel.callEnd_rxFType (t : U64) (c : Channel) : (c.callEnd t).rxFType = c.rxFType := rfl
@[simp] theorem Channel.callEnd_rxTime (t : U64) (c : Channel) : (c.callEnd t).rxTime = c.rxTime := rfl
@[simp] theorem Channel.callEnd_imbeErrs (t : U64) (c : Channel) : (c.callEnd t).imbeErrs = 0 := rfl
@[simp] theorem Channel.callEnd_frameErr (t : U64) (c : Channel) : (c.callEnd t).frameErr = false := rfl
@[simp] theorem Channel.callEnd_selected (t : U64) (c : Channel) : (c.callEnd t).selected = c.selected := rfl
@[simp] theorem Channel.callEnd_txEnc (t : U64) (c : Channel) : (c.callEnd t).txEnc = c.txEnc := rfl

/-! ### the slot status (44_call_tracker.md R224) -/

@[simp] theorem Channel.slotStatus_ctxAlg (duid : Byte) (st : U32) (t : U64) (c : Channel) : (c.slotStatus duid st t).ctxAlg = c.ctxAlg := rfl
@[simp] theorem Channel.slotStatus_ctxKeyId (duid : Byte) (st : U32) (t : U64) (c : Channel) : (c.slotStatus duid st t).ctxKeyId = c.ctxKeyId := rfl
@[simp] theorem Channel.slotStatus_ctxPhase (duid : Byte) (st : U32) (t : U64) (c : Channel) : (c.slotStatus duid st t).ctxPhase = c.ctxPhase := rfl
@[simp] theorem Channel.slotStatus_ctxMi (duid : Byte) (st : U32) (t : U64) (c : Channel) : (c.slotStatus duid st t).ctxMi = c.ctxMi := rfl
@[simp] theorem Channel.slotStatus_ks (duid : Byte) (st : U32) (t : U64) (c : Channel) : (c.slotStatus duid st t).ks = c.ks := rfl
@[simp] theorem Channel.slotStatus_ksLen (duid : Byte) (st : U32) (t : U64) (c : Channel) : (c.slotStatus duid st t).ksLen = c.ksLen := rfl
@[simp] theorem Channel.slotStatus_ctxStatus (duid : Byte) (st : U32) (t : U64) (c : Channel) : (c.slotStatus duid st t).ctxStatus = c.ctxStatus := rfl
@[simp] theorem Channel.slotStatus_cursor (duid : Byte) (st : U32) (t : U64) (c : Channel) : (c.slotStatus duid st t).cursor = c.cursor := rfl
@[simp] theorem Channel.slotStatus_p25n (duid : Byte) (st : U32) (t : U64) (c : Channel) : (c.slotStatus duid st t).p25n = c.p25n := rfl
@[simp] theorem Channel.slotStatus_seqNo (duid : Byte) (st : U32) (t : U64) (c : Channel) : (c.slotStatus duid st t).seqNo = c.seqNo := rfl
@[simp] theorem Channel.slotStatus_ldu1 (duid : Byte) (st : U32) (t : U64) (c : Channel) : (c.slotStatus duid st t).ldu1 = c.ldu1 := rfl
@[simp] theorem Channel.slotStatus_ldu2 (duid : Byte) (st : U32) (t : U64) (c : Channel) : (c.slotStatus duid st t).ldu2 = c.ldu2 := rfl
@[simp] theorem Channel.slotStatus_callState (duid : Byte) (st : U32) (t : U64) (c : Channel) : (c.slotStatus duid st t).callState = c.callState := rfl
@[simp] theorem Channel.slotStatus_sSrc (duid : Byte) (st : U32) (t : U64) (c : Channel) : (c.slotStatus duid st t).sSrc = c.sSrc := rfl
@[simp] theorem Channel.slotStatus_sDst (duid : Byte) (st : U32) (t : U64) (c : Channel) : (c.slotStatus duid st t).sDst = c.sDst := rfl
@[simp] theorem Channel.slotStatus_sStream (duid : Byte) (st : U32) (t : U64) (c : Channel) : (c.slotStatus duid st t).sStream = c.sStream := rfl
@[simp] theorem Channel.slotStatus_sStart (duid : Byte) (st : U32) (t : U64) (c : Channel) : (c.slotStatus duid st t).sStart = c.sStart := rfl
@[simp] theorem Channel.slotStatus_sDuration (duid : Byte) (st : U32) (t : U64) (c : Channel) : (c.slotStatus duid st t).sDuration = c.sDuration := rfl
@[simp] theorem Channel.slotStatus_sFType (duid : Byte) (st : U32) (t : U64) (c : Channel) : (c.slotStatus duid st t).sFType = c.sFType := rfl
@[simp] theorem Channel.slotStatus_sEnc (duid : Byte) (st : U32) (t : U64) (c : Channel) : (c.slotStatus duid st t).sEnc = c.sEnc := rfl
@[simp] theorem Channel.slotStatus_sEmerg (duid : Byte) (st : U32) (t : U64) (c : Channel) : (c.slotStatus duid st t).sEmerg = c.sEmerg := rfl
@[simp] theorem Channel.slotStatus_rxStream (duid : Byte) (st : U32) (t : U64) (c : Channel) : (c.slotStatus duid st t).rxStream = st := rfl
@[simp] theorem Channel.slotStatus_rxFType (duid : Byte) (st : U32) (t : U64) (c : Channel) : (c.slotStatus duid st t).rxFType = duid := rfl
@[simp] theorem Channel.slotStatus_rxTime (duid : Byte) (st : U32) (t : U64) (c : Channel) : (c.slotStatus duid st t).rxTime = t := rfl
@[simp] theorem Channel.slotStatus_imbeErrs (duid : Byte) (st : U32) (t : U64) (c : Channel) : (c.slotStatus duid st t).imbeErrs = c.imbeErrs := rfl
@[simp] theorem Channel.slotStatus_frameErr (duid : Byte) (st : U32) (t : U64) (c : Channel) : (c.slotStatus duid st t).frameErr = c.frameErr := rfl
@[simp] theorem Channel.slotStatus_selected (duid : Byte) (st : U32) (t : U64) (c : Channel) : (c.slotStatus duid st t).selected = c.selected := rfl
@[simp] theorem Channel.slotStatus_txEnc (duid : Byte) (st : U32) (t : U64) (c : Channel) : (c.slotStatus duid st t).txEnc = c.txEnc := rfl

/-! ### Prepare (40_keystream.md R113) -/

@[simp] theorem Channel.prepare_ctxAlg (keys : KeyStore) (alg : Byte) (keyId : U16) (ph : Phase) (mi : List Byte) (c : Channel) :
    (c.prepare keys alg keyId ph mi).ctxAlg = alg := rfl
@[simp] theorem Channel.prepare_ctxKeyId (keys : KeyStore) (alg : Byte) (keyId : U16) (ph : Phase) (mi : List Byte) (c : Channel) :
    (c.prepare keys alg keyId ph mi).ctxKeyId = keyId := rfl
@[simp] theorem Channel.prepare_ctxPhase (keys : KeyStore) (alg : Byte) (keyId : U16) (ph : Phase) (mi : List Byte) (c : Channel) :
    (c.prepare keys alg keyId ph mi).ctxPhase = ph := rfl
@[simp] theorem Channel.prepare_ctxMi (keys : KeyStore) (alg : Byte) (keyId : U16) (ph : Phase) (mi : List Byte) (c : Channel) :
    (c.prepare keys alg keyId ph mi).ctxMi = loadMi mi := rfl
@[simp] theorem Channel.prepare_ks (keys : KeyStore) (alg : Byte) (keyId : U16) (ph : Phase) (mi : List Byte) (c : Channel) :
    (c.prepare keys alg keyId ph mi).ks =
    Memory.ofBytes (if prepareStatus keys alg keyId = .ok then keystream alg (keys.bytesOf keyId) (loadMi mi) else []) := rfl
@[simp] theorem Channel.prepare_ksLen (keys : KeyStore) (alg : Byte) (keyId : U16) (ph : Phase) (mi : List Byte) (c : Channel) :
    (c.prepare keys alg keyId ph mi).ksLen =
    if prepareStatus keys alg keyId = .ok then (if alg = algAdp then BitVec.ofNat 16 ksLenAdp else BitVec.ofNat 16 ksLenAes) else 0 := rfl
@[simp] theorem Channel.prepare_ctxStatus (keys : KeyStore) (alg : Byte) (keyId : U16) (ph : Phase) (mi : List Byte) (c : Channel) :
    (c.prepare keys alg keyId ph mi).ctxStatus =
    prepareStatus keys alg keyId := rfl
@[simp] theorem Channel.prepare_cursor (keys : KeyStore) (alg : Byte) (keyId : U16) (ph : Phase) (mi : List Byte) (c : Channel) :
    (c.prepare keys alg keyId ph mi).cursor = 0 := rfl
@[simp] theorem Channel.prepare_p25n (keys : KeyStore) (alg : Byte) (keyId : U16) (ph : Phase) (mi : List Byte) (c : Channel) :
    (c.prepare keys alg keyId ph mi).p25n = c.p25n := rfl
@[simp] theorem Channel.prepare_seqNo (keys : KeyStore) (alg : Byte) (keyId : U16) (ph : Phase) (mi : List Byte) (c : Channel) :
    (c.prepare keys alg keyId ph mi).seqNo = c.seqNo := rfl
@[simp] theorem Channel.prepare_ldu1 (keys : KeyStore) (alg : Byte) (keyId : U16) (ph : Phase) (mi : List Byte) (c : Channel) :
    (c.prepare keys alg keyId ph mi).ldu1 = c.ldu1 := rfl
@[simp] theorem Channel.prepare_ldu2 (keys : KeyStore) (alg : Byte) (keyId : U16) (ph : Phase) (mi : List Byte) (c : Channel) :
    (c.prepare keys alg keyId ph mi).ldu2 = c.ldu2 := rfl
@[simp] theorem Channel.prepare_callState (keys : KeyStore) (alg : Byte) (keyId : U16) (ph : Phase) (mi : List Byte) (c : Channel) :
    (c.prepare keys alg keyId ph mi).callState = c.callState := rfl
@[simp] theorem Channel.prepare_sSrc (keys : KeyStore) (alg : Byte) (keyId : U16) (ph : Phase) (mi : List Byte) (c : Channel) :
    (c.prepare keys alg keyId ph mi).sSrc = c.sSrc := rfl
@[simp] theorem Channel.prepare_sDst (keys : KeyStore) (alg : Byte) (keyId : U16) (ph : Phase) (mi : List Byte) (c : Channel) :
    (c.prepare keys alg keyId ph mi).sDst = c.sDst := rfl
@[simp] theorem Channel.prepare_sStream (keys : KeyStore) (alg : Byte) (keyId : U16) (ph : Phase) (mi : List Byte) (c : Channel) :
    (c.prepare keys alg keyId ph mi).sStream = c.sStream := rfl
@[simp] theorem Channel.prepare_sStart (keys : KeyStore) (alg : Byte) (keyId : U16) (ph : Phase) (mi : List Byte) (c : Channel) :
    (c.prepare keys alg keyId ph mi).sStart = c.sStart := rfl
@[simp] theorem Channel.prepare_sDuration (keys : KeyStore) (alg : Byte) (keyId : U16) (ph : Phase) (mi : List Byte) (c : Channel) :
    (c.prepare keys alg keyId ph mi).sDuration = c.sDuration := rfl
@[simp] theorem Channel.prepare_sFType (keys : KeyStore) (alg : Byte) (keyId : U16) (ph : Phase) (mi : List Byte) (c : Channel) :
    (c.prepare keys alg keyId ph mi).sFType = c.sFType := rfl
@[simp] theorem Channel.prepare_sEnc (keys : KeyStore) (alg : Byte) (keyId : U16) (ph : Phase) (mi : List Byte) (c : Channel) :
    (c.prepare keys alg keyId ph mi).sEnc = c.sEnc := rfl
@[simp] theorem Channel.prepare_sEmerg (keys : KeyStore) (alg : Byte) (keyId : U16) (ph : Phase) (mi : List Byte) (c : Channel) :
    (c.prepare keys alg keyId ph mi).sEmerg = c.sEmerg := rfl
@[simp] theorem Channel.prepare_rxStream (keys : KeyStore) (alg : Byte) (keyId : U16) (ph : Phase) (mi : List Byte) (c : Channel) :
    (c.prepare keys alg keyId ph mi).rxStream = c.rxStream := rfl
@[simp] theorem Channel.prepare_rxFType (keys : KeyStore) (alg : Byte) (keyId : U16) (ph : Phase) (mi : List Byte) (c : Channel) :
    (c.prepare keys alg keyId ph mi).rxFType = c.rxFType := rfl
@[simp] theorem Channel.prepare_rxTime (keys : KeyStore) (alg : Byte) (keyId : U16) (ph : Phase) (mi : List Byte) (c : Channel) :
    (c.prepare keys alg keyId ph mi).rxTime = c.rxTime := rfl
@[simp] theorem Channel.prepare_imbeErrs (keys : KeyStore) (alg : Byte) (keyId : U16) (ph : Phase) (mi : List Byte) (c : Channel) :
    (c.prepare keys alg keyId ph mi).imbeErrs = c.imbeErrs := rfl
@[simp] theorem Channel.prepare_frameErr (keys : KeyStore) (alg : Byte) (keyId : U16) (ph : Phase) (mi : List Byte) (c : Channel) :
    (c.prepare keys alg keyId ph mi).frameErr = c.frameErr := rfl
@[simp] theorem Channel.prepare_selected (keys : KeyStore) (alg : Byte) (keyId : U16) (ph : Phase) (mi : List Byte) (c : Channel) :
    (c.prepare keys alg keyId ph mi).selected = c.selected := rfl
@[simp] theorem Channel.prepare_txEnc (keys : KeyStore) (alg : Byte) (keyId : U16) (ph : Phase) (mi : List Byte) (c : Channel) :
    (c.prepare keys alg keyId ph mi).txEnc = c.txEnc := rfl

/-! ### place (43_frame_packer.md R192) -/

@[simp] theorem Channel.place_ctxAlg (c : Channel) (cw : List Byte) : (c.place cw).ctxAlg = c.ctxAlg := by
  unfold Channel.place; split <;> rfl
@[simp] theorem Channel.place_ctxKeyId (c : Channel) (cw : List Byte) : (c.place cw).ctxKeyId = c.ctxKeyId := by
  unfold Channel.place; split <;> rfl
@[simp] theorem Channel.place_ctxPhase (c : Channel) (cw : List Byte) : (c.place cw).ctxPhase = c.ctxPhase := by
  unfold Channel.place; split <;> rfl
@[simp] theorem Channel.place_ctxMi (c : Channel) (cw : List Byte) : (c.place cw).ctxMi = c.ctxMi := by
  unfold Channel.place; split <;> rfl
@[simp] theorem Channel.place_ks (c : Channel) (cw : List Byte) : (c.place cw).ks = c.ks := by
  unfold Channel.place; split <;> rfl
@[simp] theorem Channel.place_ksLen (c : Channel) (cw : List Byte) : (c.place cw).ksLen = c.ksLen := by
  unfold Channel.place; split <;> rfl
@[simp] theorem Channel.place_ctxStatus (c : Channel) (cw : List Byte) : (c.place cw).ctxStatus = c.ctxStatus := by
  unfold Channel.place; split <;> rfl
@[simp] theorem Channel.place_cursor (c : Channel) (cw : List Byte) : (c.place cw).cursor = c.cursor := by
  unfold Channel.place; split <;> rfl
@[simp] theorem Channel.place_p25n (c : Channel) (cw : List Byte) : (c.place cw).p25n = c.p25n := by
  unfold Channel.place; split <;> rfl
@[simp] theorem Channel.place_seqNo (c : Channel) (cw : List Byte) : (c.place cw).seqNo = c.seqNo := by
  unfold Channel.place; split <;> rfl
@[simp] theorem Channel.place_callState (c : Channel) (cw : List Byte) : (c.place cw).callState = c.callState := by
  unfold Channel.place; split <;> rfl
@[simp] theorem Channel.place_sSrc (c : Channel) (cw : List Byte) : (c.place cw).sSrc = c.sSrc := by
  unfold Channel.place; split <;> rfl
@[simp] theorem Channel.place_sDst (c : Channel) (cw : List Byte) : (c.place cw).sDst = c.sDst := by
  unfold Channel.place; split <;> rfl
@[simp] theorem Channel.place_sStream (c : Channel) (cw : List Byte) : (c.place cw).sStream = c.sStream := by
  unfold Channel.place; split <;> rfl
@[simp] theorem Channel.place_sStart (c : Channel) (cw : List Byte) : (c.place cw).sStart = c.sStart := by
  unfold Channel.place; split <;> rfl
@[simp] theorem Channel.place_sDuration (c : Channel) (cw : List Byte) : (c.place cw).sDuration = c.sDuration := by
  unfold Channel.place; split <;> rfl
@[simp] theorem Channel.place_sFType (c : Channel) (cw : List Byte) : (c.place cw).sFType = c.sFType := by
  unfold Channel.place; split <;> rfl
@[simp] theorem Channel.place_sEnc (c : Channel) (cw : List Byte) : (c.place cw).sEnc = c.sEnc := by
  unfold Channel.place; split <;> rfl
@[simp] theorem Channel.place_sEmerg (c : Channel) (cw : List Byte) : (c.place cw).sEmerg = c.sEmerg := by
  unfold Channel.place; split <;> rfl
@[simp] theorem Channel.place_rxStream (c : Channel) (cw : List Byte) : (c.place cw).rxStream = c.rxStream := by
  unfold Channel.place; split <;> rfl
@[simp] theorem Channel.place_rxFType (c : Channel) (cw : List Byte) : (c.place cw).rxFType = c.rxFType := by
  unfold Channel.place; split <;> rfl
@[simp] theorem Channel.place_rxTime (c : Channel) (cw : List Byte) : (c.place cw).rxTime = c.rxTime := by
  unfold Channel.place; split <;> rfl
@[simp] theorem Channel.place_imbeErrs (c : Channel) (cw : List Byte) : (c.place cw).imbeErrs = c.imbeErrs := by
  unfold Channel.place; split <;> rfl
@[simp] theorem Channel.place_frameErr (c : Channel) (cw : List Byte) : (c.place cw).frameErr = c.frameErr := by
  unfold Channel.place; split <;> rfl
@[simp] theorem Channel.place_selected (c : Channel) (cw : List Byte) : (c.place cw).selected = c.selected := by
  unfold Channel.place; split <;> rfl
@[simp] theorem Channel.place_txEnc (c : Channel) (cw : List Byte) : (c.place cw).txEnc = c.txEnc := by
  unfold Channel.place; split <;> rfl

theorem Channel.place_ldu1_of_first (c : Channel) (cw : List Byte) (h : c.inLdu2 = false) :
    (c.place cw).ldu1 = (if c.p25n.toNat = 0 then Memory.clear else c.ldu1).writeBytes (lduOff (c.p25n.toNat % 9)) cw := by
  simp [Channel.place, h]

theorem Channel.place_ldu2_of_first (c : Channel) (cw : List Byte) (h : c.inLdu2 = false) :
    (c.place cw).ldu2 = c.ldu2 := by
  simp [Channel.place, h]

theorem Channel.place_ldu1_of_second (c : Channel) (cw : List Byte) (h : c.inLdu2 = true) :
    (c.place cw).ldu1 = c.ldu1 := by
  simp [Channel.place, h]

theorem Channel.place_ldu2_of_second (c : Channel) (cw : List Byte) (h : c.inLdu2 = true) :
    (c.place cw).ldu2 = (if c.p25n.toNat = 9 then Memory.clear else c.ldu2).writeBytes (lduOff (c.p25n.toNat % 9)) cw := by
  simp [Channel.place, h]

/-! ### EndSuperframe (43_frame_packer.md R196): the fields no part of it writes -/

@[simp] theorem Channel.endSuperframe_ctxAlg (keys : KeyStore) (g : Bool) (c : Channel) :
    (c.endSuperframe keys g).ctxAlg = c.ctxAlg := by
  cases g <;> rfl
@[simp] theorem Channel.endSuperframe_ctxKeyId (keys : KeyStore) (g : Bool) (c : Channel) :
    (c.endSuperframe keys g).ctxKeyId = c.ctxKeyId := by
  cases g <;> rfl
@[simp] theorem Channel.endSuperframe_ctxPhase (keys : KeyStore) (g : Bool) (c : Channel) :
    (c.endSuperframe keys g).ctxPhase = c.ctxPhase := by
  cases g <;> rfl
@[simp] theorem Channel.endSuperframe_p25n (keys : KeyStore) (g : Bool) (c : Channel) :
    (c.endSuperframe keys g).p25n = c.p25n := by
  cases g <;> rfl
@[simp] theorem Channel.endSuperframe_seqNo (keys : KeyStore) (g : Bool) (c : Channel) :
    (c.endSuperframe keys g).seqNo = c.seqNo := by
  cases g <;> rfl
@[simp] theorem Channel.endSuperframe_ldu1 (keys : KeyStore) (g : Bool) (c : Channel) :
    (c.endSuperframe keys g).ldu1 = c.ldu1 := by
  cases g <;> rfl
@[simp] theorem Channel.endSuperframe_ldu2 (keys : KeyStore) (g : Bool) (c : Channel) :
    (c.endSuperframe keys g).ldu2 = c.ldu2 := by
  cases g <;> rfl
@[simp] theorem Channel.endSuperframe_callState (keys : KeyStore) (g : Bool) (c : Channel) :
    (c.endSuperframe keys g).callState = c.callState := by
  cases g <;> rfl
@[simp] theorem Channel.endSuperframe_sSrc (keys : KeyStore) (g : Bool) (c : Channel) :
    (c.endSuperframe keys g).sSrc = c.sSrc := by
  cases g <;> rfl
@[simp] theorem Channel.endSuperframe_sDst (keys : KeyStore) (g : Bool) (c : Channel) :
    (c.endSuperframe keys g).sDst = c.sDst := by
  cases g <;> rfl
@[simp] theorem Channel.endSuperframe_sStream (keys : KeyStore) (g : Bool) (c : Channel) :
    (c.endSuperframe keys g).sStream = c.sStream := by
  cases g <;> rfl
@[simp] theorem Channel.endSuperframe_sStart (keys : KeyStore) (g : Bool) (c : Channel) :
    (c.endSuperframe keys g).sStart = c.sStart := by
  cases g <;> rfl
@[simp] theorem Channel.endSuperframe_sDuration (keys : KeyStore) (g : Bool) (c : Channel) :
    (c.endSuperframe keys g).sDuration = c.sDuration := by
  cases g <;> rfl
@[simp] theorem Channel.endSuperframe_sFType (keys : KeyStore) (g : Bool) (c : Channel) :
    (c.endSuperframe keys g).sFType = c.sFType := by
  cases g <;> rfl
@[simp] theorem Channel.endSuperframe_sEnc (keys : KeyStore) (g : Bool) (c : Channel) :
    (c.endSuperframe keys g).sEnc = c.sEnc := by
  cases g <;> rfl
@[simp] theorem Channel.endSuperframe_sEmerg (keys : KeyStore) (g : Bool) (c : Channel) :
    (c.endSuperframe keys g).sEmerg = c.sEmerg := by
  cases g <;> rfl
@[simp] theorem Channel.endSuperframe_rxStream (keys : KeyStore) (g : Bool) (c : Channel) :
    (c.endSuperframe keys g).rxStream = c.rxStream := by
  cases g <;> rfl
@[simp] theorem Channel.endSuperframe_rxFType (keys : KeyStore) (g : Bool) (c : Channel) :
    (c.endSuperframe keys g).rxFType = c.rxFType := by
  cases g <;> rfl
@[simp] theorem Channel.endSuperframe_rxTime (keys : KeyStore) (g : Bool) (c : Channel) :
    (c.endSuperframe keys g).rxTime = c.rxTime := by
  cases g <;> rfl
@[simp] theorem Channel.endSuperframe_imbeErrs (keys : KeyStore) (g : Bool) (c : Channel) :
    (c.endSuperframe keys g).imbeErrs = c.imbeErrs := by
  cases g <;> rfl
@[simp] theorem Channel.endSuperframe_frameErr (keys : KeyStore) (g : Bool) (c : Channel) :
    (c.endSuperframe keys g).frameErr = c.frameErr := by
  cases g <;> rfl
@[simp] theorem Channel.endSuperframe_selected (keys : KeyStore) (g : Bool) (c : Channel) :
    (c.endSuperframe keys g).selected = c.selected := by
  cases g <;> rfl
@[simp] theorem Channel.endSuperframe_txEnc (keys : KeyStore) (g : Bool) (c : Channel) :
    (c.endSuperframe keys g).txEnc = c.txEnc := by
  cases g <;> rfl

end Sys2Proof.Machine
end

