-- ==== Sys2Proof/Laws/Keystream.lean ====
section
/-! SUPPORT. The laws of the keystream engine (40_keystream.md): lengths, the AES chain, what `Prepare` can answer. -/

namespace Sys2Proof.Machine

@[simp] theorem rc4Prga_length (n : Nat) (perm : List Byte) (i j : Byte) : (rc4Prga n perm i j).length = n := by
  induction n generalizing perm i j with
  | zero => rfl
  | succ n ih => simp [rc4Prga, ih]

@[simp] theorem rc4Keystream_length (seed : List Byte) (n : Nat) : (rc4Keystream seed n).length = n := by
  simp [rc4Keystream]

@[simp] theorem nextKeyWord_length {w : List (List Byte)} (h8 : 8 ≤ w.length) (h4 : ∀ x ∈ w, x.length = 4) :
    (nextKeyWord w).length = 4 := by
  have get : ∀ k, k < w.length → (w.getD k []).length = 4 := fun k hk => by
    rw [List.getD_eq_getElem _ _ hk]; exact h4 _ (List.getElem_mem hk)
  have hp := get (w.length - 1) (by omega)
  have ho := get (w.length - 8) (by omega)
  simp only [nextKeyWord, xorBytes_length, ho]
  split_ifs <;> simp [-List.getD_eq_getElem?_getD, subBytes, rotWord, hp]

theorem expandKeyWords_lengths (n : Nat) {w : List (List Byte)} (h8 : 8 ≤ w.length) (h4 : ∀ x ∈ w, x.length = 4) :
    (expandKeyWords n w).length = w.length + n ∧ ∀ x ∈ expandKeyWords n w, x.length = 4 := by
  induction n generalizing w with
  | zero => exact ⟨rfl, h4⟩
  | succ n ih =>
    have hn : ∀ x ∈ w ++ [nextKeyWord w], x.length = 4 := by
      intro x hx
      rcases List.mem_append.1 hx with hx | hx
      · exact h4 x hx
      · rw [List.mem_singleton.1 hx]; exact nextKeyWord_length h8 h4
    obtain ⟨hl, hx⟩ := ih (w := w ++ [nextKeyWord w]) (by simp; omega) hn
    exact ⟨by simp only [expandKeyWords, hl, List.length_append, List.length_singleton]; omega, hx⟩

/-- `KeyExpansion256` gives 60 words of four bytes (40_keystream.md R122). -/
theorem keyExpansion256_lengths (key : List Byte) :
    (keyExpansion256 key).length = 60 ∧ ∀ x ∈ keyExpansion256 key, x.length = 4 := by
  have := expandKeyWords_lengths 52 (w := (List.range 8).map fun i => slice key (4 * i) 4) (by simp) (by simp)
  simpa [keyExpansion256] using this

/-- A round key has 16 bytes. -/
theorem roundKey_length (key : List Byte) (r : Nat) (h : r ≤ 14) : (roundKey (keyExpansion256 key) r).length = 16 := by
  obtain ⟨hl, h4⟩ := keyExpansion256_lengths key
  have get : ∀ k, k < 60 → ((keyExpansion256 key).getD k []).length = 4 := fun k hk => by
    rw [List.getD_eq_getElem _ _ (by omega)]; exact h4 _ (List.getElem_mem _)
  simp [-List.getD_eq_getElem?_getD, roundKey, get (4 * r) (by omega), get (4 * r + 1) (by omega), get (4 * r + 2) (by omega),
    get (4 * r + 3) (by omega)]

/-- An encrypted block has 16 bytes (40_keystream.md R126). -/
@[simp] theorem aesEncryptBlock_length (key x : List Byte) : (aesEncryptBlock key x).length = 16 := by
  simp [aesEncryptBlock, aesCipher, addRoundKey, roundKey_length key 14 (by omega), shiftRows]

@[simp] theorem aesChain_length (key : List Byte) (n : Nat) (x : List Byte) :
    (aesChain (keyExpansion256 key) n x).length = 16 * n := by
  induction n generalizing x with
  | zero => rfl
  | succ n ih =>
    have := aesEncryptBlock_length key x
    rw [aesEncryptBlock] at this
    simp [aesChain, ih, this]; omega

/-- Each further block of the chain is the encryption of the block before it (40_keystream.md R117). -/
theorem aesChain_block {w : List (List Byte)} (hl : ∀ x, (aesCipher w x).length = 16) (n : Nat) (x : List Byte) (k : Nat)
    (hk : k + 1 < n) :
    ((aesChain w n x).drop (16 * (k + 1))).take 16 = aesCipher w (((aesChain w n x).drop (16 * k)).take 16) := by
  induction n generalizing x k with
  | zero => omega
  | succ n ih =>
    have hd : ∀ m, (aesCipher w x ++ aesChain w n (aesCipher w x)).drop (16 * (m + 1)) =
        (aesChain w n (aesCipher w x)).drop (16 * m) := by
      intro m
      rw [List.drop_append, List.drop_eq_nil_of_le (by rw [hl]; omega), List.nil_append, hl]
      congr 1
    simp only [aesChain, hd]
    cases k with
    | succ k => rw [hd]; exact ih _ k (by omega)
    | zero =>
      obtain ⟨n, rfl⟩ : ∃ m, n = m + 1 := ⟨n - 1, by omega⟩
      simp only [aesChain, Nat.mul_zero, List.drop_zero]
      rw [List.take_append_of_le_length (by rw [hl]), List.take_append_of_le_length (by rw [hl]),
        List.take_of_length_le (by rw [hl]), List.take_of_length_le (by rw [hl])]

@[simp] theorem aesKeystream_length (key mi : List Byte) : (aesKeystream key mi).length = 240 := by
  simp [aesKeystream]

/-- A keystream has 469 bytes under RC4-ADP and 240 otherwise. -/
theorem keystream_length (alg : Byte) (key mi : List Byte) :
    (keystream alg key mi).length = if alg = algAdp then 469 else 240 := by
  unfold keystream; split_ifs <;> simp [ksLenAdp]

theorem slice_zero_of_length {mi : List Byte} (h : 8 ≤ mi.length) : slice mi 0 8 = mi.take 8 := by
  rw [slice_eq _ _ _ (by omega)]; simp

@[simp] theorem loadMi_length (mi : List Byte) : (loadMi mi).length = 9 := by simp [loadMi]

@[simp] theorem loadMi_last (mi : List Byte) : (loadMi mi)[8]? = some 0 := by
  rw [loadMi, List.getElem?_append_right (by simp)]; simp

@[simp] theorem cycleMi_length (mi : List Byte) : (cycleMi mi).length = 9 := by simp [cycleMi]

@[simp] theorem cycleMi_last (mi : List Byte) : (cycleMi mi)[8]? = some 0 := by
  rw [cycleMi, List.getElem?_append_right (by simp)]; simp

/-- Loading an MI whose byte 8 is zero leaves it as it is. -/
theorem loadMi_of_inv {mi : List Byte} (h : mi.length = 9) (h8 : mi[8]? = some 0) : loadMi mi = mi := by
  rw [loadMi, slice_zero_of_length (by omega)]
  have : mi.drop 8 = [0] := by
    apply List.ext_getElem?
    intro i
    cases i with
    | zero => simp [h8]
    | succ i => simp; omega
  rw [← this, List.take_append_drop]

/-- Everything `Prepare` can answer (40_keystream.md R113), in the order of its checks. -/
theorem prepareStatus_cases (keys : KeyStore) (alg : Byte) (keyId : U16) :
    (alg ≠ algAdp ∧ alg ≠ algAes ∧ prepareStatus keys alg keyId = .unsupportedAlgorithm) ∨
    ((alg = algAdp ∨ alg = algAes) ∧ keys.find keyId = none ∧ prepareStatus keys alg keyId = .unknownKey) ∨
    (alg = algAes ∧ ∃ r, keys.find keyId = some r ∧ r.keyBytes.length ≠ 32 ∧
      prepareStatus keys alg keyId = .badKeyLength) ∨
    (∃ r, keys.find keyId = some r ∧ (alg = algAdp ∨ (alg = algAes ∧ r.keyBytes.length = 32)) ∧
      prepareStatus keys alg keyId = .ok) := by
  by_cases h1 : alg = algAdp
  · subst h1
    cases hk : keys.find keyId with
    | none => simp [prepareStatus, hk]
    | some r => simp [prepareStatus, hk, algAdp, algAes]
  · by_cases h2 : alg = algAes
    · subst h2
      cases hk : keys.find keyId with
      | none => simp [prepareStatus, hk]
      | some r =>
        by_cases hl : r.keyBytes.length = 32
        · simp [prepareStatus, hk, hl]
        · simp [prepareStatus, hk, hl]
    · simp [prepareStatus, h1, h2]

end Sys2Proof.Machine
end

