-- ==== Sys2Proof/Laws/Invariant.lean ====
section
/-! SUPPORT. Every procedure keeps the invariant of its channel (Safety.lean). -/

namespace Sys2Proof.Machine

theorem Channel.reset_inv : Channel.reset.Inv where
  mi_bytes := rfl
  mi_last := rfl
  ks_wf := Memory.wf_nil
  ks_within := by simp [Channel.reset]
  status_len := .inr (.inr ⟨.inl rfl, rfl⟩)
  genuine := by intro h; cases h
  p25n_range := by decide
  ldu1_wf := Memory.wf_nil
  ldu2_wf := Memory.wf_nil
  ldu1_fields := by simp [Channel.reset]
  ldu2_fields := by simp [Channel.reset]

theorem Channel.cycleMi_inv {c : Channel} (h : c.Inv) : c.cycleMi.Inv :=
  { h with mi_bytes := cycleMi_length _, mi_last := cycleMi_last _ }

/-- A register that the invariant does not speak of can take any value. -/
theorem Channel.Inv.with_registers {c : Channel} (h : c.Inv) (cursor : U32) (imbe : U32) (ferr : Bool) :
    { c with cursor := cursor, imbeErrs := imbe, frameErr := ferr }.Inv :=
  { h with }

theorem Channel.Inv.with_p25n {c : Channel} (h : c.Inv) {n : Byte} (hn : n.toNat < 18) : { c with p25n := n }.Inv :=
  { h with p25n_range := hn }

theorem Channel.sessionReset_inv (c : Channel) : c.sessionReset.Inv :=
  { mi_bytes := rfl, mi_last := rfl, ks_wf := Memory.wf_clear, ks_within := by simp [Memory.clear]
    status_len := .inr (.inr ⟨.inl rfl, rfl⟩), genuine := by intro h; cases h
    p25n_range := by simp
    ldu1_wf := Memory.wf_clear, ldu2_wf := Memory.wf_clear
    ldu1_fields := by simp [Memory.clear], ldu2_fields := by simp [Memory.clear] }

theorem Channel.callStart_inv {c : Channel} (duid : Byte) (e : Bool) (st sr ds : U32) (t : U64) (h : c.Inv) :
    (c.callStart duid e st sr ds t).Inv :=
  { h with
    mi_bytes := rfl, mi_last := rfl
    status_len := .inr (.inr ⟨.inl rfl, rfl⟩), genuine := by intro h; cases h }

theorem Channel.slotStatus_inv {c : Channel} (duid : Byte) (st : U32) (t : U64) (h : c.Inv) :
    (c.slotStatus duid st t).Inv := { h with }

theorem Channel.callEnd_inv {c : Channel} (t : U64) : (c.callEnd t).Inv := Channel.sessionReset_inv _

/-- `Prepare` gives a keystream exactly when it answers OK, generated by the key it found (10_state.md R25). -/
theorem Channel.prepare_inv {c : Channel} (keys : KeyStore) (alg : Byte) (keyId : U16) (ph : Phase) (mi : List Byte)
    (h : c.Inv) : (c.prepare keys alg keyId ph mi).Inv where
  mi_bytes := loadMi_length _
  mi_last := loadMi_last _
  ks_wf := by simpa using Memory.ofBytes_wf _
  ks_within := by
    intro x hx
    have hb := Memory.ofBytes_within _ x (by simpa using hx)
    split_ifs at hb with hst
    · rw [keystream_length] at hb; split_ifs at hb <;> omega
    · simp at hb
  status_len := by
    rcases prepareStatus_cases keys alg keyId with ⟨-, -, hst⟩ | ⟨-, -, hst⟩ | ⟨-, r, -, -, hst⟩ | ⟨r, -, ha, hst⟩
    · exact .inr (.inr ⟨by simp [hst], by simp [hst]⟩)
    · exact .inr (.inr ⟨by simp [hst], by simp [hst]⟩)
    · exact .inr (.inr ⟨by simp [hst], by simp [hst]⟩)
    · rcases ha with ha | ⟨ha, -⟩
      · subst ha; exact .inl ⟨by simp [hst], rfl, by simp [hst]; rfl⟩
      · subst ha; exact .inr (.inl ⟨by simp [hst], rfl, by simp [hst]; rfl⟩)
  genuine := by
    intro hok
    rcases prepareStatus_cases keys alg keyId with ⟨-, -, hst⟩ | ⟨-, -, hst⟩ | ⟨-, r, -, -, hst⟩ | ⟨r, hr, ha, hst⟩
    · simp [hst] at hok
    · simp [hst] at hok
    · simp [hst] at hok
    · refine ⟨keys.bytesOf keyId, loadMi mi, ?_, by simp, ?_⟩
      · intro he
        rcases ha with ha | ⟨-, hl⟩
        · simp [ha, algAdp] at he
        · simpa [KeyStore.bytesOf, hr] using hl
      · have hk := Memory.readBytes_ofBytes (keystream alg (keys.bytesOf keyId) (loadMi mi))
        rw [keystream_length] at hk
        rw [Channel.prepare_ks, Channel.prepare_ksLen, Channel.prepare_ctxAlg, hst, if_pos rfl, if_pos rfl]
        rcases ha with ha | ⟨ha, -⟩
        · rw [if_pos ha] at hk ⊢
          rw [show (BitVec.ofNat 16 ksLenAdp).toNat = 469 from rfl, hk, keystream, if_pos ha]
          rw [if_pos (show alg = 0xAA from ha)]
          rfl
        · have hn : alg ≠ algAdp := by rw [ha]; decide
          rw [if_neg hn] at hk ⊢
          rw [show (BitVec.ofNat 16 ksLenAes).toNat = 240 from rfl, hk, keystream, if_neg hn]
          rw [if_neg (show ¬ alg = 0xAA from hn)]
  p25n_range := by simpa using h.p25n_range
  ldu1_wf := by simpa using h.ldu1_wf
  ldu2_wf := by simpa using h.ldu2_wf
  ldu1_fields := by simpa using h.ldu1_fields
  ldu2_fields := by simpa using h.ldu2_fields

theorem Channel.endSuperframe_inv {c : Channel} (keys : KeyStore) (g : Bool) (h : c.Inv) :
    (c.endSuperframe keys g).Inv := by
  cases g
  · exact Channel.cycleMi_inv h
  · exact Channel.prepare_inv _ _ _ _ _ (Channel.cycleMi_inv h)

/-- The cells of a placed codeword lie in its field. -/
theorem placed_in_field {m : Memory} {k : Nat} (hk : k < 9) {cw : List Byte} (hl : cw.length = 11)
    (hm : ∀ x ∈ m, InCodewordField x.1) : ∀ x ∈ m.writeBytes (lduOff k) cw, InCodewordField x.1 := by
  intro x hx
  rcases Memory.mem_writeBytes hx with h | h
  · exact hm x h
  · exact ⟨k, hk, by omega⟩

theorem Channel.place_inv {c : Channel} {cw : List Byte} (hl : cw.length = 11) (h : c.Inv) : (c.place cw).Inv := by
  have hk : c.p25n.toNat % 9 < 9 := Nat.mod_lt _ (by omega)
  cases hs : c.inLdu2
  · have he : c.place cw = { c with
        ldu1 := Memory.writeBytes (if c.p25n.toNat = 0 then Memory.clear else c.ldu1) (lduOff (c.p25n.toNat % 9)) cw } := by
      simp [Channel.place, hs]
    rw [he]
    refine { h with ldu1_wf := ?_, ldu1_fields := ?_ }
    · apply Memory.writeBytes_wf; split_ifs
      · exact Memory.wf_clear
      · exact h.ldu1_wf
    · apply placed_in_field hk hl; split_ifs
      · simp [Memory.clear]
      · exact h.ldu1_fields
  · have he : c.place cw = { c with
        ldu2 := Memory.writeBytes (if c.p25n.toNat = 9 then Memory.clear else c.ldu2) (lduOff (c.p25n.toNat % 9)) cw } := by
      simp [Channel.place, hs]
    rw [he]
    refine { h with ldu2_wf := ?_, ldu2_fields := ?_ }
    · apply Memory.writeBytes_wf; split_ifs
      · exact Memory.wf_clear
      · exact h.ldu2_wf
    · apply placed_in_field hk hl; split_ifs
      · simp [Memory.clear]
      · exact h.ldu2_fields

theorem p25n_next (n : Nat) : (BitVec.ofNat 8 ((n + 1) % 18)).toNat = (n + 1) % 18 := by
  rw [BitVec.toNat_ofNat]; omega

theorem Channel.finishPack_inv {c : Channel} (keys : KeyStore) (st : Status) (h : c.Inv) :
    (c.finishPack keys st).1.Inv := by
  have hn : (BitVec.ofNat 8 ((c.p25n.toNat + 1) % 18)).toNat < 18 := by rw [p25n_next]; omega
  simp only [Channel.finishPack]
  split_ifs
  · exact h.with_p25n hn
  · exact (Channel.endSuperframe_inv _ _ h).with_p25n hn
  · exact h.with_p25n hn

/-- `Crypt` writes `CURSOR` only (42_crypto_processor.md R171). -/
theorem Channel.crypt_chan (c : Channel) (ft : FrameType) (idx : Nat) (cw : List Byte) :
    ∃ n, (c.crypt ft idx cw).2.1 = { c with cursor := n } := by
  simp only [Channel.crypt]
  split_ifs
  · exact ⟨_, rfl⟩
  · exact ⟨c.cursor, rfl⟩

theorem Channel.cryptBytes_length (c : Channel) (ft : FrameType) (idx : Nat) (cw : List Byte) :
    (c.cryptBytes ft idx cw).length = min cw.length ft.len := by
  cases h : ft.phase <;> simp [Channel.cryptBytes, h]

/-- `Crypt` keeps the length of a codeword of its frame type. -/
theorem Channel.crypt_length (c : Channel) (ft : FrameType) (idx : Nat) (cw : List Byte) (h : cw.length = ft.len) :
    (c.crypt ft idx cw).2.2.length = ft.len := by
  simp only [Channel.crypt]
  split_ifs
  · simp [Channel.cryptBytes_length, h]
  · exact h

theorem Channel.crypt_inv {c : Channel} (ft : FrameType) (idx : Nat) (cw : List Byte) (h : c.Inv) :
    (c.crypt ft idx cw).2.1.Inv := by
  obtain ⟨n, hn⟩ := c.crypt_chan ft idx cw
  rw [hn]
  exact { h with }

theorem Channel.packFrame_len (c : Channel) : c.packFrame.len = 11 := by
  unfold Channel.packFrame; split_ifs <;> rfl

/-- `PackOne` keeps the invariant. -/
theorem Channel.packOne_inv {c : Channel} {keys : KeyStore} {cw : List Byte} {f : Bool} {x : Channel × Response}
    (hl : cw.length = 11) (h : c.Inv) (hx : c.packOne keys cw f = .ok x) : x.1.Inv := by
  simp only [Channel.packOne] at hx
  split_ifs at hx
  · cases hx
    apply Channel.finishPack_inv
    refine Channel.place_inv ?_ (Channel.crypt_inv _ _ _ h)
    rw [Channel.crypt_length _ _ _ _ (by rw [hl, c.packFrame_len]), c.packFrame_len]
  · cases hx
    exact Channel.finishPack_inv _ _ (Channel.place_inv hl h)

theorem unpackOne_inv {ft : FrameType} {buf : List Byte} {voc : List VocAnswer} {u : UnpackState} (k : Nat)
    (h : u.chan.Inv) : (unpackOne ft buf voc u k).chan.Inv := by
  have hc : (if u.chan.sEnc then (u.chan.crypt ft k (lduCodeword buf k)).2
      else (u.chan, lduCodeword buf k)).1.Inv := by
    split_ifs
    · exact Channel.crypt_inv _ _ _ h
    · exact h
  simp only [unpackOne]
  by_cases he : (voc.getD k { pcm := [], errs := 0 }).errs = 0
  · rw [if_pos he]; exact hc
  · rw [if_neg he]; exact { hc with }

theorem unpack_fold_inv {ft : FrameType} {buf : List Byte} {voc : List VocAnswer} (ks : List Nat) {u : UnpackState}
    (h : u.chan.Inv) : (ks.foldl (unpackOne ft buf voc) u).chan.Inv := by
  induction ks generalizing u with
  | nil => exact h
  | cons k ks ih => exact ih (unpackOne_inv k h)

theorem Channel.finishUnpack_inv {c : Channel} (keys : KeyStore) (ft : FrameType) (h : c.Inv) :
    (c.finishUnpack keys ft).1.Inv := by
  simp only [Channel.finishUnpack]
  split_ifs
  · exact h.with_p25n (by decide)
  · exact h.with_p25n (by decide)
  · exact Channel.endSuperframe_inv _ _ (h.with_p25n (by decide))

theorem Channel.unpackAll_inv {c : Channel} (keys : KeyStore) (ft : FrameType) (cs : Status) (buf : List Byte)
    (voc : List VocAnswer) (h : c.Inv) : (c.unpackAll keys ft cs buf voc).1.Inv := by
  simp only [Channel.unpackAll]
  apply Channel.finishUnpack_inv
  apply unpack_fold_inv
  split_ifs
  · exact { h with }
  · exact h

theorem Channel.rxFrame_inv {c : Channel} (duid : Byte) (e : Bool) (st sr ds : U32) (t : U64) (h : c.Inv) :
    (c.rxFrame duid e st sr ds t).1.Inv := by
  simp only [Channel.rxFrame]
  split_ifs
  · exact h
  · exact Channel.slotStatus_inv _ _ _ (Channel.callStart_inv _ _ _ _ _ _ h)
  · exact Channel.slotStatus_inv _ _ _ (Channel.callEnd_inv _)
  · exact Channel.slotStatus_inv _ _ _ h

/-- A command of one channel keeps the invariant if its meaning on the channel does. -/
theorem State.onChannel_inv {s : State} {ch : Byte} {f : Channel → Channel × Response} (h : s.Inv)
    (hf : ∀ c, c.Inv → (f c).1.Inv) : (s.onChannel ch f).Inv := by
  rcases s.onChannel_cases ch f with ⟨-, he⟩ | ⟨c, hc, he⟩
  · rw [he]; exact { h with }
  · rw [he]
    refine { h with nch_pos := ?_, nch_max := ?_, chan := ?_ }
    · simpa [State.answered] using h.nch_pos
    · simpa [State.answered] using h.nch_max
    · intro d hd
      rcases List.mem_or_eq_of_mem_set hd with hd | rfl
      · exact h.chan d hd
      · exact hf c (h.chan c (List.mem_of_getElem? hc))

end Sys2Proof.Machine
end

