-- ==== Sys2Proof/Laws/Packer.lean ====
section
/-! SUPPORT. What the crypto processor and the packer can do (42_crypto_processor.md R171, R175; 43_frame_packer.md R192,
R197): one lemma per shared operation. -/

namespace Sys2Proof.Machine

/-- The check passes: XOR, `CURSOR` advanced. -/
theorem Channel.crypt_of_ok {c : Channel} {ft : FrameType} {idx : Nat} (cw : List Byte)
    (h : c.cryptCheck ft idx = .ok) :
    c.crypt ft idx cw = (.ok, { c with cursor := c.cursor + 1 }, c.cryptBytes ft idx cw) := by
  simp [Channel.crypt, h]

/-- The check fails: pass-through. -/
theorem Channel.crypt_of_not_ok {c : Channel} {ft : FrameType} {idx : Nat} (cw : List Byte)
    (h : c.cryptCheck ft idx ≠ .ok) : c.crypt ft idx cw = (c.cryptCheck ft idx, c, cw) := by
  simp [Channel.crypt, h]

/-- A Phase 1 codeword is XORed byte by byte. -/
theorem Channel.cryptBytes_phase1 {c : Channel} {ft : FrameType} {idx : Nat} {cw : List Byte} (hp : ft.phase = .phase1)
    (hl : cw.length = ft.len) (i : Nat) (hi : i < ft.len) :
    (c.cryptBytes ft idx cw)[i]? = some (cw.getD i 0 ^^^ c.ks.read (offset c.ctxAlg ft idx + i)) := by
  simp only [Channel.cryptBytes, hp, xorBytes, List.getElem?_zipWith, Memory.readBytes_getElem?]
  rw [if_pos hi, List.getElem?_eq_getElem (by omega), List.getD_eq_getElem _ _ (by omega)]

/-- A Phase 1 check looks at the stored outcome and the phase only, once the index is in range. -/
theorem Channel.cryptCheck_phase1 (c : Channel) {ft : FrameType} {idx : Nat} (hp : ft.phase = .phase1) (hi : idx ≤ 8) :
    c.cryptCheck ft idx =
      if c.ctxStatus ≠ .ok then c.ctxStatus else if c.ctxPhase = .phase2 then .badOperand else .ok := by
  have hm : ft.maxIdx = 8 := by cases ft <;> first | rfl | cases hp
  simp only [Channel.cryptCheck, hm, hp, show ¬ 8 < idx by omega, if_false]
  split_ifs with h1 h2 h3 h3
  · rfl
  · rfl
  · exact absurd (by cases hc : c.ctxPhase <;> simp_all) h3
  · rw [h3] at h2; exact absurd (by simp) h2
  · rfl

theorem Channel.packFrame_phase (c : Channel) : c.packFrame.phase = .phase1 := by
  unfold Channel.packFrame; split_ifs <;> rfl

/-- The check of `PackOne` in an encrypting channel gives the status that `packStatus` names. -/
theorem Channel.cryptCheck_pack {c : Channel} (h : c.txEnc = true) :
    c.cryptCheck c.packFrame (c.p25n.toNat % 9) = c.packStatus := by
  rw [c.cryptCheck_phase1 c.packFrame_phase (by omega)]
  simp [Channel.packStatus, h]

/-- The codeword `PackOne` places (43_frame_packer.md R192). -/
theorem Channel.packOne_cases (c : Channel) (keys : KeyStore) (cw : List Byte) (f : Bool) :
    (c.txEnc = true ∧ c.packStatus ≠ .ok ∧ f = true ∧ c.packOne keys cw f = .error c.packStatus) ∨
    ((f = true → c.packStatus = .ok) ∧ c.txEnc = true ∧ c.packStatus = .ok ∧ c.packOne keys cw f =
      .ok (({ c with cursor := c.cursor + 1 }.place (c.cryptBytes c.packFrame (c.p25n.toNat % 9) cw)).finishPack keys
        .ok)) ∨
    ((f = true → c.packStatus = .ok) ∧ (c.txEnc = false ∨ c.packStatus ≠ .ok) ∧
      c.packOne keys cw f = .ok ((c.place cw).finishPack keys c.packStatus)) := by
  cases ht : c.txEnc
  · exact .inr (.inr ⟨fun _ => by simp [Channel.packStatus, ht], .inl rfl, by
      simp [Channel.packOne, ht, Channel.packStatus]⟩)
  · have hc := Channel.cryptCheck_pack ht
    by_cases hs : c.packStatus = .ok
    · refine .inr (.inl ⟨fun _ => hs, rfl, hs, ?_⟩)
      rw [hs] at hc
      simp [Channel.packOne, ht, hc, Channel.crypt_of_ok]
    · cases f
      · refine .inr (.inr ⟨fun h => (by cases h), .inr hs, ?_⟩)
        have hn : c.cryptCheck c.packFrame (c.p25n.toNat % 9) ≠ .ok := by rw [hc]; exact hs
        rw [Channel.packOne, ht, if_pos rfl]
        simp only [Channel.crypt_of_not_ok cw hn, hc, Bool.false_eq_true, and_false, if_false]
      · exact .inl ⟨rfl, hs, rfl, by simp [Channel.packOne, ht, hc, hs]⟩

/-- The first LDU buffer after a codeword is placed (43_frame_packer.md R190, R193). -/
theorem Channel.place_ldu1_read {c : Channel} {cw : List Byte} (h : c.Inv) (hl : cw.length = 11) (a : Nat) :
    (c.place cw).ldu1.read a =
      if c.p25n.toNat < 9 then
        if lduOff c.p25n.toNat ≤ a ∧ a < lduOff c.p25n.toNat + 11 then cw.getD (a - lduOff c.p25n.toNat) 0
        else if c.p25n.toNat = 0 then 0 else c.ldu1.read a
      else c.ldu1.read a := by
  by_cases h9 : c.p25n.toNat < 9
  · have hin : c.inLdu2 = false := by simp [Channel.inLdu2]; omega
    have hw : (if c.p25n.toNat = 0 then Memory.clear else c.ldu1).wf := by
      split_ifs
      · exact Memory.wf_clear
      · exact h.ldu1_wf
    rw [Channel.place_ldu1_of_first _ _ hin, Memory.read_writeBytes _ _ _ hw, if_pos h9, hl, Nat.mod_eq_of_lt h9]
    split_ifs <;> rfl
  · have hin : c.inLdu2 = true := by simp [Channel.inLdu2]; omega
    rw [Channel.place_ldu1_of_second _ _ hin, if_neg h9]

/-- The second LDU buffer after a codeword is placed (43_frame_packer.md R190, R193). -/
theorem Channel.place_ldu2_read {c : Channel} {cw : List Byte} (h : c.Inv) (hl : cw.length = 11) (a : Nat) :
    (c.place cw).ldu2.read a =
      if 9 ≤ c.p25n.toNat then
        if lduOff (c.p25n.toNat - 9) ≤ a ∧ a < lduOff (c.p25n.toNat - 9) + 11 then
          cw.getD (a - lduOff (c.p25n.toNat - 9)) 0
        else if c.p25n.toNat = 9 then 0 else c.ldu2.read a
      else c.ldu2.read a := by
  have hr := h.p25n_range
  by_cases h9 : 9 ≤ c.p25n.toNat
  · have hin : c.inLdu2 = true := by simp [Channel.inLdu2]; omega
    have hm : c.p25n.toNat % 9 = c.p25n.toNat - 9 := by omega
    have hw : (if c.p25n.toNat = 9 then Memory.clear else c.ldu2).wf := by
      split_ifs
      · exact Memory.wf_clear
      · exact h.ldu2_wf
    rw [Channel.place_ldu2_of_second _ _ hin, Memory.read_writeBytes _ _ _ hw, if_pos h9, hl, hm]
    split_ifs <;> rfl
  · have hin : c.inLdu2 = false := by simp [Channel.inLdu2]; omega
    rw [Channel.place_ldu2_of_first _ _ hin, if_neg h9]

@[simp] theorem Channel.finishPack_status (c : Channel) (keys : KeyStore) (st : Status) :
    (c.finishPack keys st).2.status = st := by
  simp only [Channel.finishPack]; split_ifs <;> rfl

theorem Channel.finishPack_p25n (c : Channel) (keys : KeyStore) (st : Status) :
    (c.finishPack keys st).1.p25n.toNat = (c.p25n.toNat + 1) % 18 := by
  rw [← p25n_next c.p25n.toNat]
  simp only [Channel.finishPack]; split_ifs <;> rfl

@[simp] theorem Channel.finishPack_ldu1 (c : Channel) (keys : KeyStore) (st : Status) :
    (c.finishPack keys st).1.ldu1 = c.ldu1 := by
  simp only [Channel.finishPack]; split_ifs <;> simp

@[simp] theorem Channel.finishPack_ldu2 (c : Channel) (keys : KeyStore) (st : Status) :
    (c.finishPack keys st).1.ldu2 = c.ldu2 := by
  simp only [Channel.finishPack]; split_ifs <;> simp

/-- Away from the ends of the two buffers `PackOne` hands nothing over. -/
theorem Channel.finishPack_inside {c : Channel} (keys : KeyStore) (st : Status) (h8 : c.p25n.toNat ≠ 8)
    (h17 : c.p25n.toNat ≠ 17) :
    c.finishPack keys st =
      ({ c with p25n := BitVec.ofNat 8 ((c.p25n.toNat + 1) % 18) }, { status := st, events := 0, payload := [] }) := by
  simp [Channel.finishPack, h8, h17]

/-- The end of the first buffer. -/
theorem Channel.finishPack_ldu1_end {c : Channel} (keys : KeyStore) (st : Status) (h8 : c.p25n.toNat = 8) :
    c.finishPack keys st =
      ({ c with p25n := 9 }, { status := st, events := 0x01, payload := lduPayload c.ldu1 c.seqNo }) := by
  simp [Channel.finishPack, h8, evLdu1Ready]

/-- The end of the second buffer and of the superframe. -/
theorem Channel.finishPack_ldu2_end {c : Channel} (keys : KeyStore) (st : Status) (h17 : c.p25n.toNat = 17) :
    c.finishPack keys st =
      ({ c.endSuperframe keys c.txEnc with p25n := 0 },
        { status := st, events := 0x22, payload := lduPayload c.ldu2 c.seqNo }) := by
  simp [Channel.finishPack, h17, evLdu2Ready, evMiCycled]

/-- What UNPACK has gathered after its first `n` codewords, with `xor` the keystream in use (43_frame_packer.md R197). -/
structure Unpacked (ft : FrameType) (buf : List Byte) (voc : List VocAnswer) (c : Channel) (xor : Bool)
    (u : UnpackState) (n : Nat) : Prop where
  /-- The codewords so far. -/
  cws_length : u.cws.length = 11 * n
  cws_bytes : ∀ k i, k < n → i < 11 → u.cws[11 * k + i]? =
    some (buf.getD (lduOff k + i) 0 ^^^ (if xor then c.ks.read (offset c.ctxAlg ft k + i) else 0))
  /-- The mask marks the codewords whose answer reports errors. -/
  mask_bits : ∀ k, u.mask.getLsbD k = decide (k < n ∧ ∃ x ∈ voc[k]?, x.errs ≠ 0)
  /-- Only the error registers and `CURSOR` were written. -/
  chan : u.chan = { c with
    frameErr := c.frameErr || decide (u.mask ≠ 0)
    imbeErrs := c.imbeErrs + ((voc.take n).map VocAnswer.errs).sum
    cursor := c.cursor + (if xor then BitVec.ofNat 32 n else 0) }

theorem lduCodeword_getD {buf : List Byte} (k i : Nat) (hi : i < 11) :
    (lduCodeword buf k).getD i 0 = buf.getD (lduOff k + i) 0 := by
  rw [List.getD_eq_getElem?_getD, lduCodeword, slice_getElem?, if_pos (by simpa [cwLen] using hi)]
  rfl

/-- The codeword that `unpackOne` hands over, and the channel after its decryption. -/
theorem unpackOne_crypt (c : Channel) {ft : FrameType} (hp : ft.phase = .phase1) (buf : List Byte) {k : Nat}
    (hk : k < 9) (xor : Bool) (hx : xor = (c.sEnc && decide (c.rxStatus = .ok))) :
    (if c.sEnc then (c.crypt ft k (lduCodeword buf k)).2 else (c, lduCodeword buf k)) =
      ({ c with cursor := c.cursor + (if xor then 1 else 0) },
        if xor then c.cryptBytes ft k (lduCodeword buf k) else lduCodeword buf k) := by
  by_cases hs : c.sEnc = true
  · have hc := c.cryptCheck_phase1 hp (idx := k) (by omega)
    have hr : c.rxStatus = c.cryptCheck ft k := by rw [hc]; simp [Channel.rxStatus, hs]
    rw [if_pos hs]
    by_cases ho : c.cryptCheck ft k = .ok
    · have : xor = true := by rw [hx, hs, hr, ho]; rfl
      simp [this, Channel.crypt_of_ok _ ho]
    · have : xor = false := by rw [hx, hs, hr, decide_eq_false ho]; rfl
      simp [this, Channel.crypt_of_not_ok _ ho]
  · have : xor = false := by rw [hx, Bool.eq_false_iff.2 hs]; rfl
    rw [if_neg hs]
    simp [this]

theorem unpacked_step {ft : FrameType} (hp : ft.phase = .phase1) {buf : List Byte} {voc : List VocAnswer} {c : Channel}
    {xor : Bool} (hx : xor = (c.sEnc && decide (c.rxStatus = .ok))) {u : UnpackState} {n : Nat} (hn : n < 9)
    (hv : n < voc.length) (h : Unpacked ft buf voc c xor u n) :
    Unpacked ft buf voc c xor (unpackOne ft buf voc u n) (n + 1) := by
  have hl : ft.len = 11 := by cases ft <;> first | rfl | cases hp
  have hux : xor = (u.chan.sEnc && decide (u.chan.rxStatus = .ok)) := by rw [h.chan, hx]; rfl
  have hcr := unpackOne_crypt u.chan hp buf hn xor hux
  have hlen : (if xor then u.chan.cryptBytes ft n (lduCodeword buf n) else lduCodeword buf n).length = 11 := by
    split_ifs
    · rw [Channel.cryptBytes_length, hl]; simp [lduCodeword, cwLen]
    · simp [lduCodeword, cwLen]
  have hbyte : ∀ i, i < 11 → (if xor then u.chan.cryptBytes ft n (lduCodeword buf n) else lduCodeword buf n)[i]? =
      some (buf.getD (lduOff n + i) 0 ^^^ (if xor then c.ks.read (offset c.ctxAlg ft n + i) else 0)) := by
    intro i hi
    cases xor
    · rw [if_neg (by simp), if_neg (by simp), show (0 : Byte) = 0#8 from rfl, BitVec.xor_zero, lduCodeword,
        slice_getElem?, if_pos (by simpa [cwLen] using hi)]
      rfl
    · rw [if_pos rfl, if_pos rfl, Channel.cryptBytes_phase1 hp (by simp [hl, lduCodeword, cwLen]) i (by omega),
        lduCodeword_getD n i hi, h.chan]
  have hget : voc.getD n { pcm := [], errs := 0 } = voc[n] := List.getD_eq_getElem _ _ hv
  have hmask : (unpackOne ft buf voc u n).mask = if voc[n].errs = 0 then u.mask else u.mask ||| 1#16 <<< n := by
    simp only [unpackOne, hget]
  have hcws : (unpackOne ft buf voc u n).cws =
      u.cws ++ (if xor then u.chan.cryptBytes ft n (lduCodeword buf n) else lduCodeword buf n) := by
    simp only [unpackOne, hcr]
  have hchan : (unpackOne ft buf voc u n).chan =
      if voc[n].errs = 0 then { u.chan with cursor := u.chan.cursor + (if xor then 1 else 0) }
      else { u.chan with
        cursor := u.chan.cursor + (if xor then 1 else 0)
        imbeErrs := u.chan.imbeErrs + voc[n].errs, frameErr := true } := by
    simp only [unpackOne, hcr, hget]
  have hsum : ((voc.take (n + 1)).map VocAnswer.errs).sum = ((voc.take n).map VocAnswer.errs).sum + voc[n].errs := by
    rw [List.take_succ_eq_append_getElem hv, List.map_append, List.sum_append, List.map_singleton, List.sum_singleton]
  have hcur : c.cursor + (if xor then BitVec.ofNat 32 (n + 1) else 0) =
      c.cursor + (if xor then BitVec.ofNat 32 n else 0) + (if xor then 1 else 0) := by
    cases xor
    · simp
    · simp only [if_true, BitVec.add_assoc]; congr 1; exact BitVec.ofNat_add n 1
  refine ⟨?_, ?_, ?_, ?_⟩
  · rw [hcws, List.length_append, h.cws_length, hlen]; ring
  · intro k i hk hi
    rw [hcws]
    by_cases hkn : k < n
    · rw [List.getElem?_append_left (by rw [h.cws_length]; omega)]; exact h.cws_bytes k i hkn hi
    · obtain rfl : k = n := by omega
      rw [List.getElem?_append_right (by rw [h.cws_length]; omega), h.cws_length,
        show 11 * k + i - 11 * k = i by omega]
      exact hbyte i hi
  · intro k
    rw [hmask]
    by_cases hkn : k = n
    · subst hkn
      split_ifs with he
      · rw [h.mask_bits, decide_eq_false (by omega), decide_eq_false]
        rintro ⟨-, x, hx', hne⟩
        rw [List.getElem?_eq_getElem hv] at hx'
        cases hx'; exact hne he
      · have hb : (1#16 <<< k).getLsbD k = true := by
          rw [BitVec.getLsbD_shiftLeft, BitVec.getLsbD_one]; simp; omega
        rw [BitVec.getLsbD_or, hb, Bool.or_true, decide_eq_true]
        exact ⟨by omega, _, List.getElem?_eq_getElem hv, he⟩
    · have hb : (1#16 <<< n).getLsbD k = false := by
        rw [BitVec.getLsbD_shiftLeft, BitVec.getLsbD_one]; simp; omega
      have hm := h.mask_bits k
      split_ifs with he
      · rw [hm]; congr 1; apply propext; constructor <;> rintro ⟨h1, h2⟩ <;> exact ⟨by omega, h2⟩
      · rw [BitVec.getLsbD_or, hb, Bool.or_false, hm]
        congr 1; apply propext; constructor <;> rintro ⟨h1, h2⟩ <;> exact ⟨by omega, h2⟩
  · rw [hchan, hmask, hsum, hcur]
    by_cases he : voc[n].errs = 0
    · rw [if_pos he, if_pos he, he, show (0 : U32) = 0#32 from rfl, BitVec.add_zero, h.chan]
      rfl
    · have hne : u.mask ||| 1#16 <<< n ≠ 0 := by
        intro hz
        have := congrArg (·.getLsbD n) hz
        simp [BitVec.getLsbD_or, BitVec.getLsbD_shiftLeft] at this
        omega
      rw [if_neg he, if_neg he, decide_eq_true hne, Bool.or_true, ← BitVec.add_assoc, h.chan]

/-- Everything the nine codewords of UNPACK do (43_frame_packer.md R197, R199). -/
theorem unpack_fold {ft : FrameType} (hp : ft.phase = .phase1) {buf : List Byte} {voc : List VocAnswer} {c : Channel}
    (h9 : voc.length = 9) (n : Nat) (hn : n ≤ 9) :
    Unpacked ft buf voc c (c.sEnc && decide (c.rxStatus = .ok))
      ((List.range n).foldl (unpackOne ft buf voc) { chan := c, mask := 0, cws := [] }) n := by
  induction n with
  | zero => exact ⟨rfl, fun k i hk => absurd hk (Nat.not_lt_zero k), fun k => by simp, by simp⟩
  | succ n ih =>
    rw [List.range_succ, List.foldl_append]
    exact unpacked_step hp rfl (by omega) (by omega) (ih (by omega))

end Sys2Proof.Machine
end

