-- ==== Sys2Proof/Laws/PerInstr.lean ====
section
/-! SUPPORT. Statements for all commands, proved command by command. -/

namespace Sys2Proof.Laws

open Sys2Proof.Machine

/-- The encoding of a well-formed command is its word and a payload of the length that 30_encoding.md R84 reads off the
word, and its vocoder answers have the length of R85. -/
def EncodeLength.Statement (i : Instr) : Prop :=
  i.wf = true → ∃ (op ch a b : Byte) (p : List Byte), encode i = op :: ch :: a :: b :: p ∧
    payloadLen op a p = some p.length ∧ (encodeVoc i).length = vocLen op

/-! One lemma per constructor. -/

theorem EncodeLength.nop : EncodeLength.Statement .nop := fun _ => ⟨_, _, _, _, _, rfl, rfl, rfl⟩

theorem EncodeLength.addkey (keyId : U16) (alg : Byte) (key : List Byte) :
    EncodeLength.Statement (.addkey keyId alg key) := by
  intro h
  have hk : key.length ≤ Config.keyLenMax := by simpa only [Instr.wf, decide_eq_true_eq] using h
  have hm : key.length % 256 = key.length := Nat.mod_eq_of_lt (by unfold Config.keyLenMax at hk; omega)
  refine ⟨_, _, _, _, alg :: BitVec.ofNat 8 key.length :: key, rfl, ?_, rfl⟩
  show some (2 + key.length % 256) = some (key.length + 1 + 1)
  rw [hm, Nat.add_comm]

theorem EncodeLength.prepare (ch alg : Byte) (keyId : U16) (phase : Byte) (mi : List Byte) :
    EncodeLength.Statement (.prepare ch alg keyId phase mi) := by
  intro h
  have hm : mi.length = 9 := by simpa only [Instr.wf, beq_iff_eq] using h
  refine ⟨_, _, _, _, _, rfl, ?_, rfl⟩
  simp [payloadLen, hm]

theorem EncodeLength.cyclemi (ch : Byte) : EncodeLength.Statement (.cyclemi ch) :=
  fun _ => ⟨_, _, _, _, _, rfl, rfl, rfl⟩

theorem EncodeLength.expandiv (mi : List Byte) : EncodeLength.Statement (.expandiv mi) := by
  intro h
  have hm : mi.length = 8 := by simpa only [Instr.wf, beq_iff_eq] using h
  exact ⟨_, _, _, _, mi, rfl, by rw [hm]; rfl, rfl⟩

theorem EncodeLength.process (ch ft idx : Byte) (cw : List Byte) : EncodeLength.Statement (.process ch ft idx cw) := by
  intro h
  have hc : cw.length = cwLenOf ft := by simpa only [Instr.wf, beq_iff_eq] using h
  exact ⟨_, _, _, _, cw, rfl, by rw [hc]; rfl, rfl⟩

theorem EncodeLength.pack (ch : Byte) (f : Bool) (cw : List Byte) : EncodeLength.Statement (.pack ch f cw) := by
  intro h
  have hc : cw.length = cwLen := by simpa only [Instr.wf, beq_iff_eq] using h
  exact ⟨_, _, _, _, cw, rfl, by rw [hc]; rfl, rfl⟩

theorem EncodeLength.unpack (ch ft : Byte) (v f : Bool) (buf : List Byte) (voc : List VocAnswer) :
    EncodeLength.Statement (.unpack ch ft v f buf voc) := by
  intro h
  simp only [Instr.wf, Bool.and_eq_true, beq_iff_eq] at h
  obtain ⟨⟨hb, h9⟩, hw⟩ := h
  refine ⟨_, _, _, _, buf, rfl, by rw [hb]; rfl, encodeVoc_unpack_length h9 fun x hx => ?_⟩
  simpa only [VocAnswer.wf, beq_iff_eq] using List.all_eq_true.1 hw x hx

theorem EncodeLength.tone (pcm : List Byte) : EncodeLength.Statement (.tone pcm) := by
  intro h
  have hp : pcm.length = pcmLen := by simpa only [Instr.wf, beq_iff_eq] using h
  exact ⟨_, _, _, _, pcm, rfl, by rw [hp]; rfl, rfl⟩

theorem EncodeLength.txpcm (ch : Byte) (f : Bool) (pcm voc : List Byte) :
    EncodeLength.Statement (.txpcm ch f pcm voc) := by
  intro h
  simp only [Instr.wf, Bool.and_eq_true, beq_iff_eq] at h
  exact ⟨_, _, _, _, pcm, rfl, by rw [h.1]; rfl, h.2⟩

theorem EncodeLength.rxframe (ch duid : Byte) (e : Bool) (streamId srcId dstId : U32) (time : U64) :
    EncodeLength.Statement (.rxframe ch duid e streamId srcId dstId time) := by
  intro _
  refine ⟨_, _, _, _, _, rfl, ?_, rfl⟩
  simp [payloadLen]

theorem EncodeLength.esync (ch alg : Byte) (keyId : U16) (phase : Byte) (mi : List Byte) :
    EncodeLength.Statement (.esync ch alg keyId phase mi) := by
  intro h
  have hm : mi.length = 9 := by simpa only [Instr.wf, beq_iff_eq] using h
  refine ⟨_, _, _, _, _, rfl, ?_, rfl⟩
  simp [payloadLen, hm]

theorem EncodeLength.select (ch : Byte) (value : Bool) : EncodeLength.Statement (.select ch value) :=
  fun _ => ⟨_, _, _, _, _, rfl, rfl, rfl⟩

theorem EncodeLength.enccfg (ch : Byte) (value : Bool) : EncodeLength.Statement (.enccfg ch value) :=
  fun _ => ⟨_, _, _, _, _, rfl, rfl, rfl⟩

theorem EncodeLength.wrseq (ch : Byte) (seqNo : U32) : EncodeLength.Statement (.wrseq ch seqNo) := by
  intro _
  refine ⟨_, _, _, _, _, rfl, ?_, rfl⟩
  simp [payloadLen]

theorem EncodeLength.chreset (ch : Byte) : EncodeLength.Statement (.chreset ch) :=
  fun _ => ⟨_, _, _, _, _, rfl, rfl, rfl⟩

theorem EncodeLength.rdstat (ch : Byte) : EncodeLength.Statement (.rdstat ch) :=
  fun _ => ⟨_, _, _, _, _, rfl, rfl, rfl⟩

end Sys2Proof.Laws
end

