-- ==== Sys2Proof/Tests/Slice0.lean ====
section
/-! SUPPORT. Tests. Every expected value comes from the vectors of 95_test_vectors.md (V1 to V66), the examples of the
rules, or the FIPS 197 and RC4 vectors that 40_keystream.md quotes; the source stands beside each test. The theorems named
`witness_…` show that the hypotheses of the statements can be met. -/

namespace Sys2Proof.Tests

open Sys2Proof.Machine

/-! ## Helpers -/

/-- Four channels, channel 0 as given. -/
def on (c : Channel) : State := { State.reset with chans := [c, Channel.reset, Channel.reset, Channel.reset] }

/-- What a command leaves of a state, read by `f`. -/
def after {α : Type} (o : Host.Outcome State Fault Refusal) (f : State → α) : Option α :=
  match o with
  | .next s => some (f s)
  | .fault _ => none
  | .refused _ => none

/-- The response a command gives. -/
def answer (o : Host.Outcome State Fault Refusal) : Option Response := (after o State.resp).join

/-- A field of channel 0 after a command. -/
def field {α : Type} (o : Host.Outcome State Fault Refusal) (f : Channel → α) : Option α :=
  (after o fun s => s.chans[0]?.map f).join

def keys7 : KeyStore := [(7, { alg := 0xAA, keyBytes := [1, 2, 3, 4, 5] })]

def mi1 : List Byte := [1, 2, 3, 4, 5, 6, 7, 8, 0]

/-- The MI after one cycle (95_test_vectors.md V10). -/
def mi2 : List Byte := [0xb7, 0xdf, 0x8d, 0xb9, 0xcf, 0x61, 0x93, 0x98, 0]

/-- The codeword 00 .. 0a. -/
def cw1 : List Byte := [0, 1, 2, 3, 4, 5, 6, 7, 8, 9, 10]

/-- The context registers of a Phase 1 RC4-ADP context, its keystream left zero. -/
def adpRegs : Channel := { Channel.reset with ctxAlg := 0xAA, ctxKeyId := 7, ksLen := 469, ctxStatus := .ok, ctxMi := mi1 }

/-- A context of 95_test_vectors.md V20, in either phase. -/
def adp (ph : Phase) : Channel := Channel.reset.prepare keys7 0xAA 7 ph mi1

theorem adp_inv (ph : Phase) : (adp ph).Inv := Channel.prepare_inv _ _ _ _ _ Channel.reset_inv

theorem adp_ok (ph : Phase) : (adp ph).ctxStatus = .ok := by cases ph <;> decide

theorem adp_phase (ph : Phase) : (adp ph).ctxPhase = ph := rfl

/-- Nine vocoder answers with the error counts given for codewords 0, 2 and 8. -/
def answers (e0 e2 e8 : U32) : List VocAnswer :=
  [e0, 0, e2, 0, 0, 0, 0, 0, e8].map fun e => { pcm := zeros 320, errs := e }

theorem on_inv {c : Channel} (h : c.Inv) : (on c).Inv where
  keys_wf := by simp [on, State.reset, State.resetWith]
  keys_len := by simp [on, State.reset, State.resetWith]
  nch_pos := by simp [on]
  nch_max := by simp [on]
  chan := by
    intro d hd
    simp only [on, List.mem_cons, List.not_mem_nil, or_false] at hd
    rcases hd with rfl | rfl | rfl | rfl
    · exact h
    all_goals exact Channel.reset_inv

/-! ## WellFormed: every check refuses an ill-formed term -/

theorem test_wf_addkey : (Instr.addkey 7 0xAA (zeros 256)).wf = false := by decide +kernel
theorem test_wf_prepare : (Instr.prepare 0 0xAA 7 0 (zeros 8)).wf = false := by decide
theorem test_wf_expandiv : (Instr.expandiv (zeros 9)).wf = false := by decide
theorem test_wf_process_phase1 : (Instr.process 0 0 0 (zeros 7)).wf = false := by decide
theorem test_wf_process_phase2 : (Instr.process 0 2 0 (zeros 11)).wf = false := by decide
theorem test_wf_process_reserved : (Instr.process 0 7 0 (zeros 1)).wf = false := by decide
theorem test_wf_pack : (Instr.pack 0 false (zeros 10)).wf = false := by decide
theorem test_wf_unpack_buffer : (Instr.unpack 0 0 true false (zeros 224) (answers 0 0 0)).wf = false := by
  decide +kernel
theorem test_wf_unpack_count : (Instr.unpack 0 0 true false (zeros 225) []).wf = false := by decide +kernel
theorem test_wf_unpack_answer :
    (Instr.unpack 0 0 true false (zeros 225) (List.replicate 9 { pcm := zeros 319, errs := 0 })).wf = false := by
  decide +kernel
theorem test_wf_tone : (Instr.tone (zeros 319)).wf = false := by decide +kernel
theorem test_wf_txpcm_pcm : (Instr.txpcm 0 false (zeros 321) (zeros 11)).wf = false := by decide +kernel
theorem test_wf_txpcm_voc : (Instr.txpcm 0 false (zeros 320) (zeros 10)).wf = false := by decide +kernel
theorem test_wf_esync : (Instr.esync 0 0xAA 7 0 (zeros 10)).wf = false := by decide

/-! ## Decoding: the words of 95_test_vectors.md V1 (written there from 30_encoding.md), every command, and V2 -/

theorem test_decode_nop : decode [0x00, 0x00, 0x00, 0x00] [] = .command .nop [] 0 := by decide

theorem test_decode_addkey : decode [0x01, 0x00, 0x00, 0x07, 0xaa, 0x05, 0x01, 0x02, 0x03, 0x04, 0x05] [] =
    .command (.addkey 7 0xAA [1, 2, 3, 4, 5]) [] 0 := by decide

/-- `keyId` is read from both fields, `a` the high byte. -/
theorem test_decode_addkey_wide : decode [0x01, 0x00, 0x01, 0x02, 0x84, 0x02, 0x00, 0x01, 0x99] [] =
    .command (.addkey 0x0102 0x84 [0, 1]) [0x99] 0 := by decide

theorem test_decode_prepare : decode [0x02, 0x01, 0x00, 0x00, 0x84, 0x01, 0x02, 0x01, 1, 2, 3, 4, 5, 6, 7, 8, 0] [] =
    .command (.prepare 1 0x84 0x0102 1 mi1) [] 0 := by decide

theorem test_decode_cyclemi : decode [0x03, 0x00, 0x00, 0x00] [] = .command (.cyclemi 0) [] 0 := by decide

theorem test_decode_expandiv : decode [0x04, 0x00, 0x00, 0x00, 1, 2, 3, 4, 5, 6, 7, 8] [] =
    .command (.expandiv [1, 2, 3, 4, 5, 6, 7, 8]) [] 0 := by decide

theorem test_decode_process : decode [0x05, 0x00, 0x01, 0x08, 0, 1, 2, 3, 4, 5, 6, 7, 8, 9, 10] [] =
    .command (.process 0 1 8 cw1) [] 0 := by decide

theorem test_decode_process_phase2 :
    decode [0x05, 0x01, 0x05, 0x01, 0x10, 0x21, 0x32, 0x43, 0x54, 0x65, 0xff, 0x03] [] =
      .command (.process 1 5 1 [0x10, 0x21, 0x32, 0x43, 0x54, 0x65, 0xff]) [0x03] 0 := by decide

theorem test_decode_pack : decode [0x06, 0x00, 0x01, 0x00, 0, 1, 2, 3, 4, 5, 6, 7, 8, 9, 10] [] =
    .command (.pack 0 true cw1) [] 0 := by decide

/-- UNPACK: the fields, and a vocoder answer of its own for the first and the last codeword. -/
theorem test_decode_unpack :
    (match decode ([0x07, 0x01, 0x01, 0x03] ++ zeros 225)
        (zeros 320 ++ [0, 0, 0x01, 0x02] ++ zeros (7 * 324) ++ [0x55] ++ zeros 319 ++ [0, 0, 0, 3, 0x77]) with
      | .command (.unpack ch ft v f buf voc) rest n =>
        (ch, ft, v, f, buf.length, voc.map (fun x => (x.pcm.headD 1, x.errs)), rest, n) ==
          (1, 1, true, true, 225, (0, 0x102) :: List.replicate 7 (0, 0) ++ [(0x55, 3)], [], 2916)
      | _ => false) = true := by decide +kernel

theorem test_decode_tone : decode ([0x08, 0x00, 0x00, 0x00] ++ zeros 320) [] = .command (.tone (zeros 320)) [] 0 := by
  decide +kernel

theorem test_decode_txpcm : decode ([0x09, 0x00, 0x01, 0x00] ++ zeros 320) (cw1 ++ [0x77]) =
    .command (.txpcm 0 true (zeros 320) cw1) [] 11 := by decide +kernel

theorem test_decode_rxframe :
    decode [0x0a, 0x02, 0x03, 0x00, 0, 0, 0x11, 0x11, 0, 0, 0x03, 0xe9, 0, 0, 0x07, 0xd1, 0, 0, 0, 0, 0, 0, 0x23, 0x28]
      [] = .command (.rxframe 2 3 false 0x1111 1001 2001 9000) [] 0 := by decide

theorem test_decode_esync : decode [0x0b, 0x02, 0x00, 0x00, 0xaa, 0x00, 0x07, 0x00, 1, 2, 3, 4, 5, 6, 7, 8, 0] [] =
    .command (.esync 2 0xAA 7 0 mi1) [] 0 := by decide

theorem test_decode_select : decode [0x0c, 0x02, 0x00, 0x01] [] = .command (.select 2 true) [] 0 := by decide

/-- Only bit 0 of `b` counts (V2). -/
theorem test_decode_select_junk : decode [0x0c, 0x02, 0xff, 0xfe] [] = .command (.select 2 false) [] 0 := by decide

theorem test_decode_enccfg : decode [0x0d, 0x00, 0x00, 0x01] [] = .command (.enccfg 0 true) [] 0 := by decide

theorem test_decode_wrseq : decode [0x0e, 0x00, 0x00, 0x00, 0x00, 0x00, 0x01, 0x02] [] =
    .command (.wrseq 0 0x102) [] 0 := by decide

theorem test_decode_chreset : decode [0x0f, 0x00, 0x00, 0x00] [] = .command (.chreset 0) [] 0 := by decide

theorem test_decode_rdstat : decode [0x10, 0x00, 0x00, 0x00] [] = .command (.rdstat 0) [] 0 := by decide

theorem test_decode_reserved : decode [0x11, 0x00, 0x00, 0x00] [] = .illegalCommand [] ∧
    decode [0xff, 0xff, 0xff, 0xff, 0x03] [] = .illegalCommand [0x03] := by decide

/-- A payload that is not there yet (log entry 1). -/
theorem test_decode_incomplete : decode [0x0e, 0x00, 0x00, 0x00, 0x00] [] = .incomplete ∧ decode [] [] = .incomplete ∧
    decode [0x01, 0x00, 0x00, 0x07, 0xaa] [] = .incomplete := by decide

/-- PROCESS with a reserved frame type takes no payload (V2). -/
theorem test_decode_process_reserved : decode [0x05, 0x00, 0x07, 0x00, 0x0c] [] = .command (.process 0 7 0 []) [0x0c] 0 := by
  decide

/-- The table numbers the word's bits from its least significant byte. -/
theorem test_decodeTableWord : decodeTableWord 32 0x0C020001 = some (.select 2 true) ∧
    decodeTableWord 32 0x01000007 = some (.addkey 7 0 []) ∧ decodeTableWord 32 0x11000000 = none := by decide +kernel

theorem test_withFetchWord : answer (step (State.reset.withFetchWord 32 0x03010000)) =
    some { status := .ok, events := 0x20, payload := zeros 9 } := by decide +kernel

/-! ## The keystream engine -/

/-- The first three exchanges of the key scheduling for the seed "Key" (calculated by hand from 40_keystream.md R115:
`j` is 0x4b, then 0x4b + 1 + 0x65, then that + 2 + 0x79 modulo 256). -/
theorem test_rc4_schedule :
    (rc4KsaFrom [0x4b, 0x65, 0x79] 3 0 ((List.range 256).map (BitVec.ofNat 8)) 0).take 3 = [0x4b, 0xb1, 0x2c] := by
  decide +kernel

/-- The first three bytes of the generation from the identity (calculated by hand from 40_keystream.md R115). -/
theorem test_rc4_generation : rc4Prga 3 ((List.range 256).map (BitVec.ofNat 8)) 0 0 = [2, 5, 7] := by decide +kernel

/-- V21. -/
theorem test_adpSeed : adpSeed [0xab, 0xcd] mi1 = [0, 0, 0, 0xab, 0xcd, 1, 2, 3, 4, 5, 6, 7, 8] ∧
    adpSeed [1, 2, 3, 4, 5, 6, 7, 8] mi1 = [1, 2, 3, 4, 5, 1, 2, 3, 4, 5, 6, 7, 8] := by decide

/-- V31: the FIPS 197 vector, and words of the key schedule. -/
theorem test_aes_fips : aesEncryptBlock ((List.range 32).map (BitVec.ofNat 8))
      [0x00, 0x11, 0x22, 0x33, 0x44, 0x55, 0x66, 0x77, 0x88, 0x99, 0xaa, 0xbb, 0xcc, 0xdd, 0xee, 0xff] =
    [0x8e, 0xa2, 0xb7, 0xca, 0x51, 0x67, 0x45, 0xbf, 0xea, 0xfc, 0x49, 0x90, 0x4b, 0x49, 0x60, 0x89] := by
  decide +kernel

theorem test_aes_schedule : ([8, 12, 59].map fun i => (keyExpansion256 ((List.range 32).map (BitVec.ofNat 8))).getD i []) =
    [[0xa5, 0x73, 0xc2, 0x9f], [0x16, 0x51, 0xa8, 0xcd], [0x6d, 0x68, 0xde, 0x36]] := by decide +kernel

/-- V24: byte 8 of the MI is forced to zero, the keystream has its length. -/
theorem test_prepare :
    field (exec (.prepare 0 0xAA 7 0 [1, 2, 3, 4, 5, 6, 7, 8, 0xff]) { on Channel.reset with keys := keys7 })
      (fun c => (c.ctxAlg, c.ctxKeyId, c.ctxMi, c.ksLen, c.ctxStatus)) = some (0xAA, 7, mi1, 469, .ok) := by
  decide +kernel

/-- V24: the algorithm is checked before the key; the arguments are stored. -/
theorem test_prepare_fails : field (exec (.prepare 0 0x81 999 0 mi1) { on (adp .phase1) with keys := keys7 })
    (fun c => (c.ctxAlg, c.ctxKeyId, c.ctxStatus, c.ks)) = some (0x81, 999, .unsupportedAlgorithm, []) := by
  decide +kernel

/-- V33: the record is replaced whole. -/
theorem test_addkey : after (exec (.addkey 7 0x84 []) { State.reset with keys := keys7 }) (fun s => s.keys) =
    some [(7, { alg := 0x84, keyBytes := [] })] := by decide

/-! ## The MI sequencer -/

/-- V16. -/
theorem test_lfsrStep : lfsrStep 0x4000 = (0x8001, false) ∧ lfsrStep 0x8000000000000000 = (1, true) ∧
    lfsrStep 0x0102030405060708 = (0x020406080a0c0e11, false) := by decide

/-- V10. -/
theorem test_cyclemi : field (exec (.cyclemi 0) (on { Channel.reset with ctxMi := mi1 })) (fun c => c.ctxMi) = some mi2 := by
  decide +kernel

/-- V17. -/
theorem test_expandiv : answer (exec (.expandiv [1, 2, 3, 4, 5, 6, 7, 8]) State.reset) =
    some { status := .ok, events := 0, payload := [1, 2, 3, 4, 5, 6, 7, 8] ++ mi2.take 8 } := by decide +kernel

/-! ## The crypto processor -/

/-- V40, LDU2 and index 8: the last keystream bytes of V20. -/
theorem test_process :
    answer (exec (.process 0 1 8 cw1) (on { adpRegs with
      ks := Memory.clear.writeBytes 458 [0x6a, 0xd7, 0x71, 0x6d, 0xd7, 0x31, 0x9e, 0xfd, 0xb0, 0x10, 0x99] })) =
    some { status := .ok, events := 0
           payload := [0x6a, 0xd6, 0x73, 0x6e, 0xd3, 0x34, 0x98, 0xfa, 0xb8, 0x19, 0x93] } := by decide +kernel

/-- V42, V2 and index 1: the seventh byte keeps its bit 7 only. -/
theorem test_process_phase2 :
    answer (exec (.process 0 2 1 [0x10, 0x21, 0x32, 0x43, 0x54, 0x65, 0xff]) (on { adpRegs with
      ctxPhase := .phase2
      ks := Memory.clear.writeBytes 375 [0x84, 0xa2, 0x98, 0x6b, 0xc5, 0x7f, 0x2b] })) =
    some { status := .ok, events := 0, payload := [0x94, 0x83, 0xaa, 0x28, 0x91, 0x1a, 0x80] } := by decide +kernel

/-! ## The packer -/

/-- V50, the ninth PACK: the buffer's last field and the events. -/
theorem test_pack : (answer (exec (.pack 0 false cw1) (on { Channel.reset with p25n := 8, seqNo := 0x102 }))).map
    (fun r => (r.events, slice r.payload 203 13, slice r.payload 225 4)) =
    some (0x01, [0] ++ cw1 ++ [0], [0, 0, 1, 2]) := by decide +kernel

/-- V55: fail-closed under an unprepared context. -/
theorem test_pack_fail_closed : answer (exec (.pack 0 true cw1) (on { Channel.reset with txEnc := true })) =
    some { status := .notPrepared, events := 0, payload := [] } := by decide

/-- V53: error counts, mask and `FRAME_ERR`. -/
theorem test_unpack_errors :
    field (exec (.unpack 0 0 true false (zeros 225) (answers 0 3 1)) (on Channel.reset))
      (fun c => (c.imbeErrs, c.frameErr, c.p25n)) = some (4, true, 9) ∧
    (answer (exec (.unpack 0 0 true false (zeros 225) (answers 0 3 1)) (on Channel.reset))).map
      (fun r => (r.status, r.events, slice r.payload 0 3)) = some (.vocoderDecodeError, 0x10, [0, 1, 4]) := by
  decide +kernel

/-- V52: an error-free LDU2 cycles the MI. -/
theorem test_unpack_cycles :
    field (exec (.unpack 0 1 true false (zeros 225) (answers 0 0 0)) (on { Channel.reset with ctxMi := mi1 }))
      (fun c => (c.ctxMi, c.p25n)) = some (mi2, 0) := by decide +kernel

/-! ## The tone classifier and the transmit path -/

theorem test_tone (pcm : List Byte) : answer (exec (.tone pcm) State.reset) =
    some { status := .ok, events := 0, payload := tobe 2 (Config.toneDetect pcm).toNat } := rfl

/-- V72: with a tone the vocoder's answer has no influence. -/
theorem test_txpcm_tone (pcm voc : List Byte) (h : Config.toneDetect pcm ≠ 0) :
    exec (.txpcm 0 false pcm voc) State.reset = exec (.txpcm 0 false pcm []) State.reset := by
  have e : txCodeword pcm voc = txCodeword pcm [] := by rw [txCodeword, txCodeword, if_pos h, if_pos h]
  simp only [exec, execTxpcm, e]

/-! ## The call tracker -/

/-- V60, row 3. -/
theorem test_rxframe_start : field (exec (.rxframe 0 5 true 0x1111 1001 2001 1000) (on { Channel.reset with selected := true }))
    (fun c => (c.callState, c.sStart, c.sFType, c.sEmerg, c.rxStream)) = some (.receiving, 1000, 5, true, 0x1111) := by
  decide

/-- V60, row 6. -/
theorem test_rxframe_end : answer (exec (.rxframe 0 0x0F false 0x2222 1002 2001 2000)
      (on { Channel.reset with callState := .receiving, sStart := 1360, rxStream := 0x2222 })) =
    some { status := .ok, events := 0x08, payload := [0, 0, 0, 0, 0, 0, 2, 0x80] } := by decide

/-- V63: an unsupported algorithm with a key id is an encrypted session. -/
theorem test_esync : field (exec (.esync 0 0x80 5 0 mi1) (on Channel.reset)) (fun c => (c.sEnc, c.ctxStatus)) =
    some (true, .unsupportedAlgorithm) := by decide +kernel

theorem test_esync_clear : field (exec (.esync 0 0x80 0 0 mi1) (on Channel.reset)) (fun c => (c.sEnc, c.ctxAlg)) =
    some (false, 0) := by decide

theorem test_select : field (exec (.select 0 true) (on Channel.reset)) (fun c => c.selected) = some true := by decide

theorem test_enccfg : field (exec (.enccfg 0 true) (on Channel.reset)) (fun c => c.txEnc) = some true := by decide

theorem test_wrseq : field (exec (.wrseq 0 0x102) (on Channel.reset)) (fun c => c.seqNo) = some 0x102 := by decide

/-- V66. -/
theorem test_chreset : field (exec (.chreset 0) (on { Channel.reset with p25n := 5, seqNo := 0x102, txEnc := true }))
    (fun c => (c.p25n, c.seqNo, c.txEnc)) = some (0, 0x102, true) := by decide

/-- V64: flags 12 for `S_ENC` and `SELECTED`. -/
theorem test_rdstat : (answer (exec (.rdstat 0) (on { Channel.reset with sEnc := true, selected := true, sStart := 5000 }))).map
    (fun r => (slice r.payload 0 1, slice r.payload 25 1, slice r.payload 38 8)) =
    some ([5], [0x12], [0, 0, 0, 0, 0, 0, 0x13, 0x88]) := by decide +kernel

theorem test_nop : answer (exec .nop State.reset) = some { status := .ok, events := 0, payload := [] } := by decide

/-- V2: BadChannel. -/
theorem test_badChannel : answer (exec (.cyclemi 4) State.reset) =
    some { status := .badChannel, events := 0, payload := [] } := by decide

/-- V18: a whole response on the wire. -/
theorem test_wire : (answer (exec (.cyclemi 0) State.reset)).map Response.wire =
    some ([0x00, 0x20, 0x00, 0x09] ++ zeros 9) := by decide +kernel

/-- The byte spaces of the reset state are in canonical form. -/
theorem test_reset_memory : ∀ c ∈ State.reset.chans, c.ks.wf ∧ c.ldu1.wf ∧ c.ldu2.wf := by decide

/-! ## Witnesses: the hypotheses of each statement can be met, clause by clause -/

/-- A channel's transmit and receive gates and its position do not touch the rest of the invariant. -/
theorem gates_inv {c : Channel} (h : c.Inv) (tx rx : Bool) (n : Byte) (hn : n.toNat < 18) :
    ({ c with txEnc := tx, sEnc := rx, p25n := n } : Channel).Inv :=
  ⟨h.1, h.2, h.3, h.4, h.5, h.6, hn, h.8, h.9, h.10, h.11⟩

/-- Channel 0 holds a V20 context with the given gates and position. -/
def gated (ph : Phase) (tx rx : Bool) (n : Byte) : Channel := { adp ph with txEnc := tx, sEnc := rx, p25n := n }

/-- Channel 0 is unprepared, with the given gates and position. -/
def bare (tx rx : Bool) (n : Byte) : Channel := { Channel.reset with txEnc := tx, sEnc := rx, p25n := n }

theorem gated_inv (ph : Phase) (tx rx : Bool) {n : Byte} (hn : n.toNat < 18) : (gated ph tx rx n).Inv :=
  gates_inv (adp_inv ph) tx rx n hn

theorem bare_inv (tx rx : Bool) {n : Byte} (hn : n.toNat < 18) : (bare tx rx n).Inv :=
  gates_inv Channel.reset_inv tx rx n hn

/-- One well-formed instance of every command. -/
def samples : List Instr :=
  [.nop, .addkey 7 0xAA (zeros 255), .prepare 0 0xAA 7 1 mi1, .cyclemi 0, .expandiv (zeros 8), .process 0 1 8 cw1,
    .pack 0 true cw1, .unpack 0 1 true true (zeros 225) (answers 0 3 1), .tone (zeros 320),
    .txpcm 0 true (zeros 320) cw1, .rxframe 0 5 true 1 2 3 4, .esync 0 0x84 7 0 mi1, .select 0 true, .enccfg 0 true,
    .wrseq 0 0x102, .chreset 0, .rdstat 0]

/-- The word and payload bytes begin with a command. -/
def startsCommand (bytes : List Byte) : Bool :=
  match decode bytes tableVoc with
  | .command _ _ _ => true
  | .illegalCommand _ => false
  | .incomplete => false

theorem witness_DecodeEncodeRoundTrip :
    (∀ i ∈ samples, i.wf = true) ∧ (Instr.addkey 0xffff 0 []).wf = true ∧ (Instr.process 255 2 255 (zeros 7)).wf = true ∧
      (Instr.process 0 7 0 []).wf = true := by decide +kernel

/-- Every opcode; ADDKEY with the shortest and the longest key; PROCESS where its clauses meet. -/
theorem witness_DecodedCommandsAreWellFormed :
    (∀ op ∈ (List.range 17).map (BitVec.ofNat 8), startsCommand ([op, 0, 0, 0] ++ zeros 325) = true) ∧
    startsCommand ([1, 0, 0, 0, 0, 0xff] ++ zeros 255) = true ∧
    ∀ a ∈ [(1 : Byte), 2, 6, 7, 255], startsCommand ([5, 0, a, 0] ++ zeros 11) = true := by decide +kernel

theorem witness_DecodeTakesWordAndPayload :
    decode [0x01, 0, 0, 7, 0xaa, 0] [] = .command (.addkey 7 0xaa []) [] 0 ∧
    decode ([0x05, 0, 1, 8] ++ cw1) [] = .command (.process 0 1 8 cw1) [] 0 ∧
    decode ([0x05, 0, 2, 8] ++ zeros 7) [] = .command (.process 0 2 8 (zeros 7)) [] 0 ∧
    decode ([0x05, 0, 6, 8] ++ zeros 7) [] = .command (.process 0 6 8 (zeros 7)) [] 0 ∧
    decode [0x05, 0, 7, 8, 9] [] = .command (.process 0 7 8 []) [9] 0 ∧
    decode [0x05, 0, 255, 8, 9] [] = .command (.process 0 255 8 []) [9] 0 ∧
    decode [0x0c, 2, 0, 1, 9] [] = .command (.select 2 true) [9] 0 := by decide

/-- UNPACK, whose flag bits count, and NOP, whose fields do not. -/
theorem witness_UnusedFieldsSelectNothing :
    ((0x07 : Byte) ≠ 0x00 → (0x07 : Byte) ≠ 0x01 → (0x07 : Byte) ≠ 0x04 → (0x07 : Byte) ≠ 0x08 → (1 : Byte) = 1) ∧
    ((0x07 : Byte) = 0x01 ∨ (0x07 : Byte) = 0x05 ∨ (0x07 : Byte) = 0x07 ∨ (0x07 : Byte) = 0x0A → (1 : Byte) = 1) ∧
    ((0x07 : Byte) = 0x06 ∨ (0x07 : Byte) = 0x09 → (1 : Byte).getLsbD 0 = (1 : Byte).getLsbD 0) ∧
    ((0x07 : Byte) = 0x01 ∨ (0x07 : Byte) = 0x05 → (0x03 : Byte) = 0xff) ∧
    ((0x07 : Byte) = 0x07 ∨ (0x07 : Byte) = 0x0A ∨ (0x07 : Byte) = 0x0C ∨ (0x07 : Byte) = 0x0D →
      (0x03 : Byte).getLsbD 0 = (0xff : Byte).getLsbD 0) ∧
    ((0x07 : Byte) = 0x07 → (0x03 : Byte).getLsbD 1 = (0xff : Byte).getLsbD 1) ∧
    decode [0, 1, 2, 3] [] = decode [0, 9, 8, 7] [] := by decide

theorem witness_StepRunsDecodedCommand :
    decode { State.reset with port := [0x0c, 0, 0, 1, 9] }.port { State.reset with port := [0x0c, 0, 0, 1, 9] }.vocSupply =
      .command (.select 0 true) [9] 0 := by rfl

theorem witness_StepRunsEncodedCommand :
    (Instr.txpcm 0 true (zeros 320) cw1).wf = true ∧
    ({ State.reset with port := encode (.txpcm 0 true (zeros 320) cw1) ++ [9], vocPort := cw1 ++ [8] } : State).port =
      encode (.txpcm 0 true (zeros 320) cw1) ++ [9] ∧
    ({ State.reset with port := encode (.txpcm 0 true (zeros 320) cw1) ++ [9], vocPort := cw1 ++ [8] } : State).vocPort =
      encodeVoc (.txpcm 0 true (zeros 320) cw1) ++ [8] := ⟨by decide +kernel, rfl, rfl⟩

theorem witness_NoCommandNoChange : decode State.reset.port State.reset.vocSupply = .incomplete := rfl

theorem witness_ReservedOpcodeAnswered :
    0x11 ≤ (0x11 : Byte).toNat ∧ 0x11 ≤ (0xff : Byte).toNat ∧
    ({ State.reset with port := [0x11, 1, 2, 3, 4] } : State).port = 0x11 :: 1 :: 2 :: 3 :: [4] ∧
    ({ State.reset with port := [0xff, 1, 2, 3, 4] } : State).port = 0xff :: 1 :: 2 :: 3 :: [4] := by decide

theorem witness_ResetState : Channel.reset ∈ (State.resetWith 1).chans := by decide

theorem witness_ResetMeetsInvariant : (1 ≤ 1 ∧ 1 ≤ 256) ∧ (1 ≤ 256 ∧ 256 ≤ 256) := by decide

theorem witness_StepKeepsInvariant :
    ({ on (adp .phase1) with port := [0x03, 0, 0, 0] } : State).Inv ∧
    ∃ t, step { on (adp .phase1) with port := [0x03, 0, 0, 0] } = .next t :=
  have h := on_inv (adp_inv .phase1)
  ⟨⟨h.1, h.2, h.3, h.4, h.5⟩, _, rfl⟩

/-- A state of a run: a command is issued after reset, the vocoder answers, CORE steps. -/
theorem witness_ReachableStatesMeetInvariant :
    ∃ t, step { State.resetWith 256 with port := [0x03, 0, 0, 0], vocPort := [1] } = .next t ∧ Reachable t :=
  ⟨_, rfl, .step _ _ (.answer _ [1] (.issue _ [0x03, 0, 0, 0] (.reset 256 (by decide) (by decide)))) rfl⟩

theorem witness_CommandsStayInTheirChannel :
    channelOf (.cyclemi 0) = some 0 ∧ channelOf (.expandiv mi1) = none ∧
    (∃ t, exec (.cyclemi 0) (on Channel.reset) = .next t) ∧
    (∃ t, exec (.cyclemi 0) { on Channel.reset with port := [1], draw := 3 } = .next t) ∧
    (∃ t, exec (.expandiv mi1) (on Channel.reset) = .next t) ∧
    (∃ t, exec (.expandiv mi1) (on (adp .phase1)) = .next t) ∧
    (on Channel.reset).keys = { on Channel.reset with port := [1], draw := 3 }.keys ∧
    (on Channel.reset).keys = (on (adp .phase1)).keys :=
  ⟨rfl, rfl, ⟨_, rfl⟩, ⟨_, rfl⟩, ⟨_, rfl⟩, ⟨_, rfl⟩, rfl, rfl⟩

theorem witness_BadChannelAnswered :
    channelOf (.pack 4 true cw1) = some 4 ∧ State.reset.chans.length ≤ (4 : Byte).toNat ∧
    channelOf (.rdstat 255) = some 255 ∧ State.reset.chans.length ≤ (255 : Byte).toNat := by decide

theorem witness_ReservedFieldsAnswered :
    (0 : Byte).toNat < State.reset.chans.length ∧ (3 : Byte).toNat < State.reset.chans.length ∧ 2 ≤ (2 : Byte).toNat ∧
    2 ≤ (255 : Byte).toNat ∧ 7 ≤ (7 : Byte).toNat ∧ 7 ≤ (255 : Byte).toNat := by decide

/-- Every command answers on a state that meets the invariant. -/
theorem witness_StatusesOfEachCommand :
    (on Channel.reset).Inv ∧ ∀ i ∈ samples, (answer (exec i (on Channel.reset))).isSome = true :=
  ⟨on_inv Channel.reset_inv, by decide +kernel⟩

theorem witness_EventsOfEachCommand : ∀ i ∈ samples, (answer (exec i (on Channel.reset))).isSome = true :=
  witness_StatusesOfEachCommand.2

theorem witness_StatusCodesDistinct : Status.badChannel.code = Status.badChannel.code := rfl

theorem witness_ResponseWireLayout : (zeros 0).length < 65536 ∧ (List.replicate 65535 (0 : Byte)).length < 65536 :=
  ⟨by decide, by rw [List.length_replicate]; omega⟩

theorem witness_MemoryReadsWhatWasWritten :
    0 < 1 ∧ 224 < 225 ∧ Memory.wf [(10, 1), (26, 2)] ∧
    (∀ a, Memory.read [(10, 1)] a = Memory.read (Memory.clear.writeBytes 10 [1]) a) ∧
    Memory.wf [(10, 1)] ∧ Memory.wf (Memory.clear.writeBytes 10 [1]) ∧
    (9 < 10 ∨ 10 + [(1 : Byte)].length ≤ 9) ∧ (11 < 10 ∨ 10 + [(1 : Byte)].length ≤ 11) :=
  ⟨by decide, by decide, by decide, fun _ => rfl, by decide, by decide, by decide, by decide⟩

theorem witness_MiRegisterIsBigEndian : mi1.length = 9 ∧ 0 < 8 ∧ 7 < 8 := by decide

theorem witness_CodewordFieldsLayout : 0 < 9 ∧ 8 < 9 ∧ 0 < 1 ∧ 1 < 9 ∧ 7 < 8 := by decide

theorem witness_AddkeyReplacesRecord :
    ([] : List Byte).length = (0 : Byte).toNat ∧ (zeros 255).length = (255 : Byte).toNat ∧ (8 : U16) ≠ 7 ∧
    KeyStore.wf keys7 := by decide +kernel

def key7 : KeyRecord := { alg := 0xAA, keyBytes := [1, 2, 3, 4, 5] }

/-- A 32-byte key under the largest key id. -/
def keysAes : KeyStore := [(0xffff, { alg := 0x84, keyBytes := zeros 32 })]

theorem witness_PrepareAdpGenerates : keys7.find 7 = some key7 ∧ mi1.length = 9 := by decide

theorem witness_PrepareAesGenerates :
    keysAes.find 0xffff = some { alg := 0x84, keyBytes := zeros 32 } ∧ (zeros 32).length = 32 ∧ mi1.length = 9 ∧
    0 < 14 ∧ 13 < 14 := by decide

theorem witness_PrepareFailureClears :
    mi1.length = 9 ∧ ((0 : Byte) ≠ 0xAA ∧ (0 : Byte) ≠ 0x84) ∧ keys7.find 8 = none ∧ keys7.find 7 = some key7 ∧
    key7.keyBytes.length ≠ 32 := by decide

theorem witness_PrepareCommandRunsPrepare :
    (on Channel.reset).chans[(0 : Byte).toNat]? = some Channel.reset ∧ (0 : Byte).toNat < 2 ∧ (1 : Byte).toNat < 2 ∧
    2 ≤ (2 : Byte).toNat ∧ 2 ≤ (255 : Byte).toNat := by decide

/-- A key of five bytes against a longer one, and a padded key against the five bytes it stands for. -/
theorem witness_AdpKeystreamDependsOnFiveKeyBytes :
    (keys7.find 7 = some key7 ∧
      KeyStore.find [(9, { alg := 0, keyBytes := [1, 2, 3, 4, 5, 6] })] 9 = some { alg := 0, keyBytes := [1, 2, 3, 4, 5, 6] } ∧
      List.replicate (5 - key7.keyBytes.length) 0 ++ key7.keyBytes.take 5 =
        List.replicate (5 - [(1 : Byte), 2, 3, 4, 5, 6].length) 0 ++ [(1 : Byte), 2, 3, 4, 5, 6].take 5) ∧
    (KeyStore.find [(7, { alg := 0, keyBytes := [1, 2, 3] })] 7 = some { alg := 0, keyBytes := [1, 2, 3] } ∧
      KeyStore.find [(9, { alg := 0, keyBytes := [0, 0, 1, 2, 3] })] 9 = some { alg := 0, keyBytes := [0, 0, 1, 2, 3] } ∧
      List.replicate (5 - [(1 : Byte), 2, 3].length) 0 ++ [(1 : Byte), 2, 3].take 5 =
        List.replicate (5 - [(0 : Byte), 0, 1, 2, 3].length) 0 ++ [(0 : Byte), 0, 1, 2, 3].take 5) ∧
    mi1.length = 9 ∧ (mi1.set 8 0xff).length = 9 ∧ mi1.take 8 = (mi1.set 8 0xff).take 8 := by decide

/-- The inverse pair of FIPS 197 4.2, `53` and `ca`, and zero. -/
theorem witness_SboxIsAffineOfInverse : gmul 0x53 0xca = 1 ∧ (0 : Byte) = 0 := by decide

theorem witness_CyclemiReplacesMi : (on (adp .phase1)).chans[(0 : Byte).toNat]? = some (adp .phase1) := rfl

theorem witness_ExpandivAnswersIv : (mi1.take 8).length = 8 := rfl

theorem witness_LfsrStepShiftsAndTaps : 0 < 63 ∧ 62 < 63 := by decide

theorem witness_LfsrTraceLinearInjective :
    (lfsr64 5).1 = (lfsr64 5).1 ∧ mi1.length = 9 ∧ (mi1.set 8 0xff).length = 9 ∧
    cycleMi mi1 = cycleMi (mi1.set 8 0xff) := by decide +kernel

theorem witness_KeystreamOffsets : (0 : Nat) ≤ 3 ∧ (3 : Nat) ≤ 3 := by decide

theorem witness_KeystreamReadsInBounds :
    (adp .phase1).Inv ∧ (adp .phase1).cryptCheck .ldu2 8 = .ok ∧ (adp .phase2).Inv ∧
    (adp .phase2).cryptCheck .v2 1 = .ok ∧ (8 ≤ FrameType.ldu1.maxIdx ∧ 0 ≤ FrameType.ldu2.maxIdx) ∧
    FrameType.ldu1.phase = FrameType.ldu2.phase ∧ (3 ≤ (FrameType.v4 3).maxIdx ∧ 1 ≤ FrameType.v2.maxIdx) ∧
    (FrameType.v4 3).phase = FrameType.v2.phase :=
  ⟨adp_inv _, rfl, adp_inv _, rfl, by decide, rfl, by decide, rfl⟩

/-- Both phases, at the largest index of a frame type. -/
theorem witness_ProcessXorsKeystream :
    ((on (adp .phase1)).chans[(0 : Byte).toNat]? = some (adp .phase1) ∧ frameType 1 = some .ldu2 ∧
      (8 : Byte).toNat ≤ FrameType.ldu2.maxIdx ∧ cw1.length = FrameType.ldu2.len ∧ (adp .phase1).ctxStatus = .ok ∧
      FrameType.ldu2.phase = (adp .phase1).ctxPhase) ∧
    ((on (adp .phase2)).chans[(0 : Byte).toNat]? = some (adp .phase2) ∧ frameType 2 = some .v2 ∧
      (1 : Byte).toNat ≤ FrameType.v2.maxIdx ∧ (zeros 7).length = FrameType.v2.len ∧ (adp .phase2).ctxStatus = .ok ∧
      FrameType.v2.phase = (adp .phase2).ctxPhase) :=
  ⟨⟨rfl, rfl, by decide, rfl, rfl, rfl⟩, ⟨rfl, rfl, by decide, rfl, rfl, rfl⟩⟩

/-- Each of the three reasons. -/
theorem witness_ProcessPassesThrough :
    ((on (adp .phase1)).chans[(0 : Byte).toNat]? = some (adp .phase1) ∧ frameType 0 = some .ldu1 ∧
      FrameType.ldu1.maxIdx < (9 : Byte).toNat ∧ FrameType.v2.maxIdx < (2 : Byte).toNat ∧
      (FrameType.v4 0).maxIdx < (4 : Byte).toNat) ∧
    ((on Channel.reset).chans[(0 : Byte).toNat]? = some Channel.reset ∧ (8 : Byte).toNat ≤ FrameType.ldu1.maxIdx ∧
      Channel.reset.ctxStatus ≠ .ok) ∧
    ((on (adp .phase1)).chans[(0 : Byte).toNat]? = some (adp .phase1) ∧ frameType 2 = some .v2 ∧
      (1 : Byte).toNat ≤ FrameType.v2.maxIdx ∧ (adp .phase1).ctxStatus = .ok ∧
      FrameType.v2.phase ≠ (adp .phase1).ctxPhase) :=
  ⟨⟨rfl, rfl, by decide, by decide, by decide⟩, ⟨rfl, by decide, by decide⟩, ⟨rfl, rfl, by decide, rfl, by decide⟩⟩

theorem witness_ProcessTwiceRestores :
    ((on (adp .phase1)).chans[(0 : Byte).toNat]? = some (adp .phase1) ∧ frameType 1 = some .ldu2 ∧
      cw1.length = FrameType.ldu2.len ∧ (adp .phase1).cryptCheck .ldu2 (8 : Byte).toNat = .ok ∧
      (adp .phase1).ctxAlg = (adp .phase1).ctxAlg ∧ ∀ a, (adp .phase1).ks.read a = (adp .phase1).ks.read a) ∧
    ((on (adp .phase2)).chans[(0 : Byte).toNat]? = some (adp .phase2) ∧ frameType 6 = some (.v4 3) ∧
      (zeros 7).length = (FrameType.v4 3).len ∧ (adp .phase2).cryptCheck (.v4 3) (3 : Byte).toNat = .ok) :=
  ⟨⟨rfl, rfl, rfl, rfl, rfl, fun _ => rfl⟩, ⟨rfl, rfl, rfl, rfl⟩⟩

theorem gated_packStatus (rx : Bool) (n : Byte) : (gated .phase1 true rx n).packStatus = .ok := rfl

/-- Every position at which the clauses meet, encrypted and clear, with and without the fail-closed flag. -/
theorem witness_PackPlacesCodeword :
    (∀ n ∈ [(0 : Byte), 8, 9, 17], (gated .phase1 true false n).Inv ∧ (bare false false n).Inv) ∧
    (on (gated .phase1 true false 17)).chans[(0 : Byte).toNat]? = some (gated .phase1 true false 17) ∧
    cw1.length = 11 ∧ (gated .phase1 true false 17).packStatus = .ok ∧ (bare false false 8).packStatus = .ok := by
  refine ⟨?_, rfl, rfl, rfl, rfl⟩
  intro n hn
  simp only [List.mem_cons, List.not_mem_nil, or_false] at hn
  rcases hn with rfl | rfl | rfl | rfl <;> exact ⟨gated_inv _ _ _ (by decide), bare_inv _ _ (by decide)⟩

/-- An unprepared context, and a Phase 2 context. -/
theorem witness_FailClosedWritesNothing :
    ((on (bare true true 0)).chans[(0 : Byte).toNat]? = some (bare true true 0) ∧ (bare true true 0).Inv ∧
      (bare true true 0).packStatus ≠ .ok ∧ (bare true true 0).rxStatus ≠ .ok ∧ (0 : Byte).toNat < 2 ∧
      (1 : Byte).toNat < 2) ∧
    ((gated .phase2 true true 0).Inv ∧ (gated .phase2 true true 0).packStatus ≠ .ok ∧
      (gated .phase2 true true 0).rxStatus ≠ .ok) :=
  ⟨⟨rfl, bare_inv _ _ (by decide), by decide, by decide, by decide, by decide⟩,
    gated_inv _ _ _ (by decide), by decide, by decide⟩

theorem witness_MalformedFrameDiscarded :
    (0 : Byte).toNat < State.reset.chans.length ∧ (0 : Byte).toNat < 2 ∧ (1 : Byte).toNat < 2 := by decide

theorem answers_wf :
    (Instr.unpack 0 1 true true (zeros 225) (answers 0 3 0)).wf = true ∧
    (Instr.unpack 0 0 true true (zeros 225) (answers 0 0 0)).wf = true := by decide +kernel

theorem witness_UnpackExtractsCodewords :
    ((on (gated .phase1 false true 0)).chans[(0 : Byte).toNat]? = some (gated .phase1 false true 0) ∧
      (gated .phase1 false true 0).Inv ∧ (1 : Byte).toNat < 2 ∧
      (Instr.unpack 0 1 true true (zeros 225) (answers 0 3 0)).wf = true ∧
      (gated .phase1 false true 0).rxStatus = .ok) ∧
    ((on (bare false false 17)).chans[(0 : Byte).toNat]? = some (bare false false 17) ∧ (bare false false 17).Inv ∧
      (0 : Byte).toNat < 2 ∧ (Instr.unpack 0 0 true true (zeros 225) (answers 0 0 0)).wf = true ∧
      (bare false false 17).rxStatus = .ok) :=
  ⟨⟨rfl, gated_inv _ _ _ (by decide), by decide, answers_wf.1, rfl⟩,
    rfl, bare_inv _ _ (by decide), by decide, answers_wf.2, rfl⟩

/-- Both halves of a superframe, clear and encrypted. -/
theorem witness_LduRoundTrip :
    (∀ second : Bool, (bare false false (if second then 9 else 0)).Inv ∧
      (on (bare false false (if second then 9 else 0))).chans[(0 : Byte).toNat]? =
        some (bare false false (if second then 9 else 0)) ∧
      (gated .phase1 true true (if second then 9 else 0)).Inv ∧
      (on (gated .phase1 true true (if second then 9 else 0))).chans[(0 : Byte).toNat]? =
        some (gated .phase1 true true (if second then 9 else 0)) ∧
      (gated .phase1 true true (if second then 9 else 0)).p25n = if second then 9 else 0) ∧
    (List.replicate 9 cw1).length = 9 ∧ (∀ cw ∈ List.replicate 9 cw1, cw.length = 11) ∧
    ((bare false false 9).txEnc = false ∧ (bare false false 9).sEnc = false) ∧
    ((gated .phase1 true true 9).txEnc = true ∧ (gated .phase1 true true 9).sEnc = true) ∧
    (gated .phase1 true true 9).ctxStatus = .ok ∧ (gated .phase1 true true 9).ctxPhase = .phase1 ∧
    ∀ a, (gated .phase1 true true 9).ks.read a = (gated .phase1 true true 9).ks.read a := by
  refine ⟨?_, rfl, by decide, ⟨rfl, rfl⟩, ⟨rfl, rfl⟩, rfl, rfl, fun _ => rfl⟩
  intro second
  cases second <;>
    exact ⟨bare_inv _ _ (by decide), rfl, gated_inv _ _ _ (by decide), rfl, rfl⟩

theorem witness_ToneAnswersClass : (zeros 320).length = 320 := by decide +kernel

theorem witness_TxpcmPacksToneOrVocoder :
    (on (gated .phase1 true false 17)).chans[(0 : Byte).toNat]? = some (gated .phase1 true false 17) ∧
    (gated .phase1 true false 17).Inv ∧ (gated .phase1 true false 17).packStatus = .ok ∧
    (on (bare true false 8)).chans[(0 : Byte).toNat]? = some (bare true false 8) ∧ (bare true false 8).Inv :=
  ⟨rfl, gated_inv _ _ _ (by decide), rfl, rfl, bare_inv _ _ (by decide)⟩

def sel (st : CallState) (b : Bool) : Channel := { Channel.reset with selected := b, callState := st, rxStream := 0x2222 }

/-- A state and operands for each row of the table; the two terminators and their neighbours. -/
theorem witness_RxframeTransitions :
    (∀ b st, (on (sel st b)).chans[(0 : Byte).toNat]? = some (sel st b)) ∧
    ((sel .idle false).selected = false ∧ (sel .idle false).callState = .idle) ∧
    (((sel .idle true).selected = true ∨ (sel .idle true).callState = .receiving) ∧
      ((0x1111 : U32) != (sel .idle true).rxStream) = true ∧ ((0x05 : Byte) == 0x03 || (0x05 : Byte) == 0x0F) = false) ∧
    (((sel .receiving false).selected = true ∨ (sel .receiving false).callState = .receiving) ∧
      ((0x1111 : U32) != (sel .receiving false).rxStream) = true ∧
      ((0x0E : Byte) == 0x03 || (0x0E : Byte) == 0x0F) = false) ∧
    ((sel .receiving false).callState = .receiving ∧ ((0x0F : Byte) == 0x03 || (0x0F : Byte) == 0x0F) = true ∧
      ((0x03 : Byte) == 0x03 || (0x03 : Byte) == 0x0F) = true) ∧
    ((sel .receiving false).callState = .receiving ∧ ((0x2222 : U32) != (sel .receiving false).rxStream) = false) ∧
    ((sel .idle true).selected = true ∧ (sel .idle true).callState = .idle ∧
      ((0x2222 : U32) != (sel .idle true).rxStream) = false) :=
  ⟨fun _ _ => rfl, by decide, by decide, by decide, by decide, by decide, by decide⟩

theorem witness_SessionBoundaries :
    (on { Channel.reset with selected := true }).chans[(0 : Byte).toNat]? = some { Channel.reset with selected := true } ∧
    ({ Channel.reset with selected := true } : Channel).rxStream = 0 ∧ (1 : U32) ≠ 0 ∧ (2 : U32) ≠ 1 := by decide

theorem witness_EsyncClassifiesAndPrepares :
    (on Channel.reset).chans[(0 : Byte).toNat]? = some Channel.reset ∧ (0 : Byte).toNat < 2 ∧ (1 : Byte).toNat < 2 ∧
    ((0x80 : Byte) ≠ 0 ∧ (1 : U16) ≠ 0) ∧ ((0x00 : Byte) = 0 ∨ (1 : U16) = 0) ∧ ((0x80 : Byte) = 0 ∨ (0 : U16) = 0) := by
  decide

/-- The last channel there is, and the first there is not: for SELECT, ENCCFG, WRSEQ, CHRESET and RDSTAT. -/
theorem witness_SelectWritesSelected :
    State.reset.chans[(3 : Byte).toNat]? = some Channel.reset ∧ State.reset.chans.length ≤ (4 : Byte).toNat := by decide

theorem witness_EnccfgWritesTxenc :
    State.reset.chans[(3 : Byte).toNat]? = some Channel.reset ∧ State.reset.chans.length ≤ (4 : Byte).toNat := by decide

theorem witness_WrseqWritesSeqno :
    State.reset.chans[(3 : Byte).toNat]? = some Channel.reset ∧ State.reset.chans.length ≤ (4 : Byte).toNat := by decide

theorem witness_ChresetResetsSession :
    State.reset.chans[(3 : Byte).toNat]? = some Channel.reset ∧ State.reset.chans.length ≤ (4 : Byte).toNat ∧
    (on (adp .phase1)).chans[(0 : Byte).toNat]? = some (adp .phase1) := ⟨by decide, by decide, rfl⟩

theorem witness_RdstatAnswersBlock :
    State.reset.chans[(3 : Byte).toNat]? = some Channel.reset ∧ Channel.reset.ctxMi.length = 9 ∧
    slice Channel.reset.statusBlock 25 1 = [0] := by decide

/-- The first and the last channel; the largest index of each kind of frame type; both buffers; both phases. -/
theorem witness_ResetStateInUse :
    (0 : Byte).toNat < 1 ∧ (255 : Byte).toNat < 256 ∧ (frameType 0 = some .ldu1 ∧ (8 : Byte).toNat ≤ FrameType.ldu1.maxIdx) ∧
    (frameType 1 = some .ldu2 ∧ (8 : Byte).toNat ≤ FrameType.ldu2.maxIdx) ∧
    (frameType 2 = some .v2 ∧ (1 : Byte).toNat ≤ FrameType.v2.maxIdx) ∧
    (frameType 6 = some (.v4 3) ∧ (3 : Byte).toNat ≤ (FrameType.v4 3).maxIdx) ∧ cw1.length = 11 ∧
    (0 : Byte).toNat < 2 ∧ (1 : Byte).toNat < 2 ∧
    (Instr.unpack 0 1 true true (zeros 225) (answers 0 3 0)).wf = true ∧
    (Instr.unpack 0 0 true true (zeros 225) (answers 0 0 0)).wf = true :=
  ⟨by decide, by decide, by decide, by decide, by decide, by decide, rfl, by decide, by decide, answers_wf⟩

end Sys2Proof.Tests
end

section
/-! The step and the command port (00_scope.md R7): what the decoder gives for an encoded command, and what a step does
with what the decoder gives. -/

namespace Sys2Proof.Proofs

open Sys2Proof Sys2Proof.Machine Sys2Proof.Laws

/-! ### The decoder on an encoded command (30_encoding.md R80, R84 to R86) -/

/-- A well-formed command is encoded as its word and the payload its word asks for. -/
theorem encodeLength : ∀ i : Instr, EncodeLength.Statement i
  | .nop => EncodeLength.nop
  | .addkey keyId alg key => EncodeLength.addkey keyId alg key
  | .prepare ch alg keyId phase mi => EncodeLength.prepare ch alg keyId phase mi
  | .cyclemi ch => EncodeLength.cyclemi ch
  | .expandiv mi => EncodeLength.expandiv mi
  | .process ch ft idx cw => EncodeLength.process ch ft idx cw
  | .pack ch f cw => EncodeLength.pack ch f cw
  | .unpack ch ft v f buf voc => EncodeLength.unpack ch ft v f buf voc
  | .tone pcm => EncodeLength.tone pcm
  | .txpcm ch f pcm voc => EncodeLength.txpcm ch f pcm voc
  | .rxframe ch duid e streamId srcId dstId time => EncodeLength.rxframe ch duid e streamId srcId dstId time
  | .esync ch alg keyId phase mi => EncodeLength.esync ch alg keyId phase mi
  | .select ch value => EncodeLength.select ch value
  | .enccfg ch value => EncodeLength.enccfg ch value
  | .wrseq ch seqNo => EncodeLength.wrseq ch seqNo
  | .chreset ch => EncodeLength.chreset ch
  | .rdstat ch => EncodeLength.rdstat ch

/-- A payload length that is known stays the same when more bytes arrive: only ADDKEY reads one, its `len` byte. -/
theorem payloadLen_append {op a : Byte} {p : List Byte} {n : Nat} (h : payloadLen op a p = some n) (rest : List Byte) :
    payloadLen op a (p ++ rest) = some n := by
  unfold payloadLen at h ⊢
  split at h
  case h_1 =>
    obtain ⟨len, hlen, rfl⟩ := Option.map_eq_some_iff.1 h
    have hlt : 1 < p.length := (List.getElem?_eq_some_iff.1 hlen).1
    rw [List.getElem?_append_left hlt, hlen, Option.map_some]
  all_goals exact h

/-- Key identifier and MI in the payload that PREPARE and ESYNC share. -/
theorem slice_context_payload (alg phase : Byte) (keyId : U16) {mi : List Byte} (h : mi.length = 9) :
    BitVec.ofNat 16 (be (slice ([alg] ++ tobe 2 keyId.toNat ++ [phase] ++ mi) 1 2)) = keyId ∧
      slice ([alg] ++ tobe 2 keyId.toNat ++ [phase] ++ mi) 4 9 = mi := by
  have hk : slice ([alg] ++ tobe 2 keyId.toNat ++ [phase] ++ mi) 1 2 = tobe 2 keyId.toNat := by
    rw [List.append_assoc]
    exact slice_field rfl (tobe_length _ _)
  exact ⟨by rw [hk, ofNat_be_tobe (n := 2) _ rfl], slice_all h⟩

/-- The four numbers in the payload of RXFRAME. -/
theorem slice_rxframe_payload {streamId srcId dstId : U32} {time : U64} {p : List Byte}
    (hp : p = tobe 4 streamId.toNat ++ tobe 4 srcId.toNat ++ tobe 4 dstId.toNat ++ tobe 8 time.toNat) :
    BitVec.ofNat 32 (be (slice p 0 4)) = streamId ∧ BitVec.ofNat 32 (be (slice p 4 4)) = srcId ∧
      BitVec.ofNat 32 (be (slice p 8 4)) = dstId ∧ BitVec.ofNat 64 (be (slice p 12 8)) = time := by
  have hstream : slice p 0 4 = tobe 4 streamId.toNat := by
    rw [hp, List.append_assoc, List.append_assoc]
    exact slice_head (tobe_length 4 _)
  have hsrc : slice p 4 4 = tobe 4 srcId.toNat := by
    rw [hp, List.append_assoc]
    exact slice_field (tobe_length 4 _) (tobe_length 4 _)
  have hdst : slice p 8 4 = tobe 4 dstId.toNat := by
    rw [hp]
    exact slice_field (by simp) (tobe_length 4 _)
  have htime : slice p 12 8 = tobe 8 time.toNat := by
    rw [hp]
    exact slice_all (tobe_length 8 _)
  rw [hstream, hsrc, hdst, htime]
  exact ⟨ofNat_be_tobe (n := 4) _ rfl, ofNat_be_tobe (n := 4) _ rfl, ofNat_be_tobe (n := 4) _ rfl,
    ofNat_be_tobe (n := 8) _ rfl⟩

/-- A number that is the whole payload reads back. -/
theorem ofNat_be_slice_tobe (x : U32) : BitVec.ofNat 32 (be (slice (tobe 4 x.toNat) 0 4)) = x := by
  rw [slice_all (tobe_length 4 _), ofNat_be_tobe (n := 4) _ rfl]

/-- The 16-bit immediate of the word is its fields `a` and `b` (30_encoding.md R80). -/
theorem append_bytes_of_toNat (x : U16) : BitVec.ofNat 8 (x.toNat >>> 8) ++ BitVec.ofNat 8 x.toNat = x := by
  apply BitVec.eq_of_toNat_eq
  have hx : x.toNat < 2 ^ 16 := x.isLt
  rw [BitVec.toNat_append, BitVec.toNat_ofNat, BitVec.toNat_ofNat, Nat.shiftRight_eq_div_pow,
    ← Nat.shiftLeft_add_eq_or_of_lt (Nat.mod_lt _ (by decide)), Nat.shiftLeft_eq]
  omega

/-- The word, payload and vocoder answers of an encoded command give the command back, field by field (30_encoding.md
R86), whatever follows the answers on the vocoder port. -/
theorem commandOf_encode {i : Instr} (hw : i.wf = true) {op ch a b : Byte} {p : List Byte}
    (he : encode i = op :: ch :: a :: b :: p) (vrest : List Byte) :
    commandOf op ch a b p (encodeVoc i ++ vrest) = some i := by
  cases i with
  | nop => cases he; rfl
  | addkey keyId alg key =>
    cases he
    exact congrArg₂ (fun k l => some (Instr.addkey k alg l)) (append_bytes_of_toNat keyId) (slice_all rfl)
  | prepare ch alg keyId phase mi =>
    have hm : mi.length = 9 := by simpa only [Instr.wf, beq_iff_eq] using hw
    obtain ⟨hk, hmi⟩ := slice_context_payload alg phase keyId hm
    cases he
    exact congrArg₂ (fun k m => some (Instr.prepare _ alg k phase m)) hk hmi
  | cyclemi ch => cases he; rfl
  | expandiv mi =>
    have hm : mi.length = 8 := by simpa only [Instr.wf, beq_iff_eq] using hw
    cases he
    exact congrArg (fun m => some (Instr.expandiv m)) (slice_all hm)
  | process ch ft idx cw =>
    have hc : cw.length = cwLenOf ft := by simpa only [Instr.wf, beq_iff_eq] using hw
    cases he
    exact congrArg (fun c => some (Instr.process _ _ _ c)) (slice_all hc)
  | pack ch f cw =>
    have hc : cw.length = cwLen := by simpa only [Instr.wf, beq_iff_eq] using hw
    cases he
    exact congrArg₂ (fun g c => some (Instr.pack _ g c)) (bitAt_getLsbD_zero f) (slice_all hc)
  | unpack ch ft v f buf voc =>
    simp only [Instr.wf, Bool.and_eq_true, beq_iff_eq] at hw
    obtain ⟨⟨hb, h9⟩, hvoc⟩ := hw
    have hpcm : ∀ x ∈ voc, x.pcm.length = pcmLen := fun x hx => by
      simpa only [VocAnswer.wf, beq_iff_eq] using List.all_eq_true.1 hvoc x hx
    obtain ⟨hv, hf⟩ := bitAt_or_getLsbD v f
    cases he
    exact congrArg some ((Instr.unpack.injEq ..).mpr
      ⟨rfl, rfl, hv, hf, slice_all hb, vocAnswersOf_encodeVoc h9 hpcm vrest⟩)
  | tone pcm =>
    have hp : pcm.length = pcmLen := by simpa only [Instr.wf, beq_iff_eq] using hw
    cases he
    exact congrArg (fun x => some (Instr.tone x)) (slice_all hp)
  | txpcm ch f pcm voc =>
    simp only [Instr.wf, Bool.and_eq_true, beq_iff_eq] at hw
    obtain ⟨hp, hvoc⟩ := hw
    cases he
    exact congrArg some ((Instr.txpcm.injEq ..).mpr ⟨rfl, bitAt_getLsbD_zero f, slice_all hp, slice_head hvoc⟩)
  | rxframe ch duid e streamId srcId dstId time =>
    obtain ⟨hstream, hsrc, hdst, htime⟩ :=
      slice_rxframe_payload (streamId := streamId) (srcId := srcId) (dstId := dstId) (time := time) rfl
    cases he
    exact congrArg some ((Instr.rxframe.injEq ..).mpr
      ⟨rfl, rfl, bitAt_getLsbD_zero e, hstream, hsrc, hdst, htime⟩)
  | esync ch alg keyId phase mi =>
    have hm : mi.length = 9 := by simpa only [Instr.wf, beq_iff_eq] using hw
    obtain ⟨hk, hmi⟩ := slice_context_payload alg phase keyId hm
    cases he
    exact congrArg₂ (fun k m => some (Instr.esync _ alg k phase m)) hk hmi
  | select ch value =>
    cases he
    exact congrArg (fun v => some (Instr.select _ v)) (bitAt_getLsbD_zero value)
  | enccfg ch value =>
    cases he
    exact congrArg (fun v => some (Instr.enccfg _ v)) (bitAt_getLsbD_zero value)
  | wrseq ch seqNo =>
    cases he
    exact congrArg (fun x => some (Instr.wrseq _ x)) (ofNat_be_slice_tobe seqNo)
  | chreset ch => cases he; rfl
  | rdstat ch => cases he; rfl

/-- An encoded command is decoded to itself, whatever follows on the two ports; it takes exactly its own bytes. -/
theorem decode_encode {i : Instr} (hw : i.wf = true) (rest vrest : List Byte) :
    decode (encode i ++ rest) (encodeVoc i ++ vrest) = .command i rest (encodeVoc i).length := by
  obtain ⟨op, ch, a, b, p, he, hp, hvoc⟩ := encodeLength i hw
  rw [he, hvoc]
  exact decode_of_payload (payloadLen_append hp rest) (commandOf_encode hw he vrest)

/-! ### The step on what the decoder gives (00_scope.md R7) -/

/-- With a command at the head of the command port, the step runs it on the state whose ports gave up its bytes. -/
theorem step_of_decode_command {s : State} {i : Instr} {rest : List Byte} {n : Nat}
    (h : decode s.port s.vocSupply = .command i rest n) : step s = exec i (s.advance rest n) := by
  simp only [step, State.fetch, h]

/-- With no whole command on the command port, the step leaves the state as it is. -/
theorem step_of_decode_incomplete {s : State} (h : decode s.port s.vocSupply = .incomplete) : step s = .next s := by
  simp only [step, State.fetch, h]

/-- Bytes on the vocoder port come first in what a command draws from. -/
theorem vocSupply_of_vocPort {s : State} {v vrest : List Byte} (h : s.vocPort = v ++ vrest) :
    ∃ drawn, s.vocSupply = v ++ drawn :=
  ⟨_, by rw [State.vocSupply, h, List.append_assoc]⟩

/-- A command whose vocoder bytes all stand on the port draws no free value. -/
theorem advance_of_vocPort {s : State} {v vrest : List Byte} (h : s.vocPort = v ++ vrest) (rest : List Byte) :
    s.advance rest v.length = { s with port := rest, vocPort := vrest } := by
  have hdraw : v.length - (v ++ vrest).length = 0 := by simp
  simp only [State.advance, h, List.drop_left, hdraw, Nat.add_zero]

/-! ### The obligations -/

/-- Settles O6: `State.advance` is what the ports give up. -/
theorem stepRunsDecodedCommand : Obligations.StepRunsDecodedCommand :=
  fun _ _ _ _ h => step_of_decode_command h

/-- Settles O8. -/
theorem noCommandNoChange : Obligations.NoCommandNoChange :=
  fun _ h => step_of_decode_incomplete h

/-- Settles O7: the decoder reads the encoded command back (`decode_encode`), the step runs it (as in O6), and its
vocoder answers came from the port alone. -/
theorem stepRunsEncodedCommand : Obligations.StepRunsEncodedCommand := by
  intro s i rest vrest hw hport hvoc
  obtain ⟨drawn, hsupply⟩ := vocSupply_of_vocPort hvoc
  have hdec : decode s.port s.vocSupply = .command i rest (encodeVoc i).length := by
    rw [hport, hsupply, decode_encode hw]
  rw [step_of_decode_command hdec, advance_of_vocPort hvoc]

end Sys2Proof.Proofs
end

section
/-! The invariant of the state (10_state.md R22, R24, R25, R27, R29): it holds at reset, every command keeps it, and so
every reachable state meets it. A command stays in its channel (10_state.md R36). -/

namespace Sys2Proof.Proofs

open Sys2Proof Sys2Proof.Machine

/-! ### What a command without a channel can do -/

/-- Every command that names no channel writes the key store and the response only, both from the key store: the
counterpart of `exec_onChannel`. -/
theorem exec_of_no_channel {i : Instr} (h : channelOf i = none) :
    ∃ g : KeyStore → KeyStore × Response, ∀ s : State,
      exec i s = .next { s with keys := (g s.keys).1, resp := some (g s.keys).2 } := by
  cases i <;> simp only [channelOf, reduceCtorEq] at h
  case nop => exact ⟨fun keys => (keys, Response.done), fun _ => rfl⟩
  case addkey keyId alg key =>
    exact ⟨fun keys => (keys.set keyId { alg := alg, keyBytes := key }, Response.done), fun _ => rfl⟩
  case expandiv mi => exact ⟨fun keys => (keys, ⟨.ok, 0, expandIv mi⟩), fun _ => rfl⟩
  case tone pcm => exact ⟨fun keys => (keys, ⟨.ok, 0, tobe 2 (Config.toneDetect pcm).toNat⟩), fun _ => rfl⟩

/-- What `onChannel` answers and leaves in its channel depends on the state by that channel alone. -/
theorem onChannel_congr {s s' : State} {ch : Byte} (f : Channel → Channel × Response)
    (h : s'.chans[ch.toNat]? = s.chans[ch.toNat]?) :
    (s'.onChannel ch f).resp = (s.onChannel ch f).resp ∧
      (s'.onChannel ch f).chans[ch.toNat]? = (s.onChannel ch f).chans[ch.toNat]? := by
  cases hc : s.chans[ch.toNat]? with
  | none =>
    have hc' := h.trans hc
    rw [State.onChannel_of_none f hc, State.onChannel_of_none f hc']
    exact ⟨rfl, h⟩
  | some c =>
    have hc' := h.trans hc
    rw [State.onChannel_of_some f hc, State.onChannel_of_some f hc', State.answered_chan _ _ hc,
      State.answered_chan _ _ hc']
    exact ⟨rfl, rfl⟩

/-! ### Parts of the state the invariant does not speak of -/

theorem inv_respond {s : State} (h : s.Inv) (r : Response) : (s.respond r).Inv := { h with }

theorem inv_advance {s : State} (h : s.Inv) (rest : List Byte) (n : Nat) : (s.advance rest n).Inv := { h with }

theorem inv_illegal {s : State} (h : s.Inv) (rest : List Byte) : (s.illegal rest).Inv :=
  inv_respond (inv_advance h rest 0) _

/-- Storing a key of at most 255 bytes keeps the key store canonical (10_state.md R22). -/
theorem inv_set_key {s : State} (h : s.Inv) (keyId : U16) {r : KeyRecord} (hr : r.keyBytes.length ≤ 255) :
    { s with keys := s.keys.set keyId r }.Inv :=
  { h with
    keys_wf := KeyStore.set_wf keyId r h.keys_wf
    keys_len := fun e he => by
      rcases KeyStore.mem_set he with he | rfl
      · exact h.keys_len e he
      · exact hr }

/-! ### The operand lengths of a decoded command -/

/-- A command read from a word and the payload its word asks for has operands of the lengths of 30_encoding.md R84 and
R85: every field is cut to its length, and a key is as long as its `len` byte says. -/
theorem wf_of_commandOf {op ch a b : Byte} {p rest voc : List Byte} {i : Instr}
    (hp : payloadLen op a (p ++ rest) = some p.length) (hc : commandOf op ch a b p voc = some i) : i.wf = true := by
  unfold commandOf at hc
  split at hc
  case h_2 hop =>
    cases hc
    simp only [payloadLen, hop] at hp
    obtain ⟨len, -, hlen⟩ := Option.map_eq_some_iff.1 hp
    have hb : len.toNat < 256 := len.isLt
    simp only [Instr.wf, slice_length, Config.keyLenMax, decide_eq_true_eq]
    omega
  case h_18 => cases hc
  all_goals
    cases hc
    simp [Instr.wf, vocAnswersOf, VocAnswer.wf]

/-! ### Every command keeps the invariant -/

/-- The codeword that TXPCM packs is 11 bytes, whether it is the vocoder's or the tone's (45_tone.md R263). -/
theorem txCodeword_length (pcm : List Byte) {voc : List Byte} (h : voc.length = 11) :
    (txCodeword pcm voc).length = 11 := by
  unfold txCodeword
  split_ifs
  · simp
  · exact h

/-- A well-formed command keeps the invariant: ADDKEY by the length of its key, PACK and TXPCM by the length of their
codeword, every other one by what its procedures keep (Laws/Invariant.lean). -/
theorem exec_inv {i : Instr} (hw : i.wf = true) {s : State} (h : s.Inv) : ∃ t, exec i s = .next t ∧ t.Inv := by
  cases i with
  | nop => exact ⟨_, rfl, inv_respond h _⟩
  | addkey keyId alg key =>
    have hk : key.length ≤ Config.keyLenMax := by simpa only [Instr.wf, decide_eq_true_eq] using hw
    exact ⟨_, rfl, inv_respond (inv_set_key h keyId hk) _⟩
  | prepare ch alg keyId phase mi =>
    refine ⟨_, rfl, State.onChannel_inv h fun c hc => ?_⟩
    split_ifs
    · exact hc
    · exact Channel.prepare_inv _ _ _ _ _ hc
  | cyclemi ch => exact ⟨_, rfl, State.onChannel_inv h fun c hc => Channel.cycleMi_inv hc⟩
  | expandiv mi => exact ⟨_, rfl, inv_respond h _⟩
  | process ch ft idx cw =>
    refine ⟨_, rfl, State.onChannel_inv h fun c hc => ?_⟩
    split
    · exact hc
    · exact Channel.crypt_inv _ _ _ hc
  | pack ch f cw =>
    have hl : cw.length = cwLen := by simpa only [Instr.wf, beq_iff_eq] using hw
    refine ⟨_, rfl, State.onChannel_inv h fun c hc => ?_⟩
    split
    · exact hc
    · next hx => exact Channel.packOne_inv hl hc hx
  | unpack ch ft v f buf voc =>
    refine ⟨_, rfl, State.onChannel_inv h fun c hc => ?_⟩
    dsimp only
    generalize (if ft = 0 then FrameType.ldu1 else FrameType.ldu2) = half
    split_ifs
    · exact hc
    · exact hc
    · exact hc
    · exact Channel.unpackAll_inv _ _ _ _ _ hc
  | tone pcm => exact ⟨_, rfl, inv_respond h _⟩
  | txpcm ch f pcm voc =>
    simp only [Instr.wf, Bool.and_eq_true, beq_iff_eq] at hw
    obtain ⟨-, hvoc⟩ := hw
    refine ⟨_, rfl, State.onChannel_inv h fun c hc => ?_⟩
    split
    · exact hc
    · next hx =>
      have hinv := Channel.packOne_inv (txCodeword_length pcm hvoc) hc hx
      exact hinv
  | rxframe ch duid e streamId srcId dstId time =>
    exact ⟨_, rfl, State.onChannel_inv h fun c hc => Channel.rxFrame_inv _ _ _ _ _ _ hc⟩
  | esync ch alg keyId phase mi =>
    refine ⟨_, rfl, State.onChannel_inv h fun c hc => ?_⟩
    dsimp only
    split_ifs
    · exact hc
    · exact Channel.prepare_inv _ _ _ _ _ { hc with }
    · exact { hc with }
  | select ch value => exact ⟨_, rfl, State.onChannel_inv h fun c hc => { hc with }⟩
  | enccfg ch value => exact ⟨_, rfl, State.onChannel_inv h fun c hc => { hc with }⟩
  | wrseq ch seqNo => exact ⟨_, rfl, State.onChannel_inv h fun c hc => { hc with }⟩
  | chreset ch => exact ⟨_, rfl, State.onChannel_inv h fun c _ => c.sessionReset_inv⟩
  | rdstat ch => exact ⟨_, rfl, State.onChannel_inv h fun _ hc => hc⟩

/-- Everything a step can be (30_encoding.md R87): a well-formed command run on the state whose ports gave up its bytes,
the answer to a reserved opcode, or nothing. -/
theorem step_cases (s : State) :
    (∃ i rest n, i.wf = true ∧ step s = exec i (s.advance rest n)) ∨
      (∃ rest, step s = .next (s.illegal rest)) ∨ step s = .next s := by
  cases hd : decode s.port s.vocSupply with
  | command i rest n =>
    obtain ⟨op, ch, a, b, p, -, hp, hc, -⟩ := decode_command hd
    exact .inl ⟨i, rest, n, wf_of_commandOf hp hc, step_of_decode_command hd⟩
  | illegalCommand rest => exact .inr (.inl ⟨rest, by simp only [step, State.fetch, hd]⟩)
  | incomplete => exact .inr (.inr (step_of_decode_incomplete hd))

/-- The state right after reset, with any number of channels that 00_scope.md R6 allows. -/
theorem resetWith_inv {nch : Nat} (hpos : 1 ≤ nch) (hmax : nch ≤ 256) : (State.resetWith nch).Inv where
  keys_wf := .nil
  keys_len := by simp [State.resetWith]
  nch_pos := by simpa [State.resetWith] using hpos
  nch_max := by simpa [State.resetWith] using hmax
  chan := fun c hc => by
    rw [List.eq_of_mem_replicate hc]
    exact Channel.reset_inv

/-! ### The obligations -/

/-- Settles O13, by the three things a step can be. -/
theorem stepKeepsInvariant : Obligations.StepKeepsInvariant := by
  intro s t h hrun
  rcases step_cases s with ⟨i, rest, n, hw, hs⟩ | ⟨rest, hs⟩ | hs
  · obtain ⟨u, hu, hinv⟩ := exec_inv hw (inv_advance h rest n)
    cases hrun.symm.trans (hs.trans hu)
    exact hinv
  · cases hrun.symm.trans hs
    exact inv_illegal h rest
  · cases hrun.symm.trans hs
    exact h

/-- Settles O12; the reset state of the model has four channels (log entry 6). -/
theorem resetMeetsInvariant : Obligations.ResetMeetsInvariant :=
  ⟨resetWith_inv (by decide) (by decide), fun _ hpos hmax => resetWith_inv hpos hmax⟩

/-- Settles O14, by induction on how the state is reached: reset meets the invariant (O12), a step keeps it (O13), and
it does not speak of the two ports. -/
theorem reachableStatesMeetInvariant : Obligations.ReachableStatesMeetInvariant := by
  intro s hs
  induction hs with
  | reset nch hpos hmax => exact resetWith_inv hpos hmax
  | step s t _ hrun ih => exact stepKeepsInvariant s t ih hrun
  | issue s bytes _ ih => exact { ih with }
  | answer s bytes _ ih => exact { ih with }

/-- Settles O15: a command with a channel is `onChannel` of a function of the key store (`exec_onChannel`), one without
a channel a function of the key store (`exec_of_no_channel`). -/
theorem commandsStayInTheirChannel : Obligations.CommandsStayInTheirChannel := by
  constructor
  · intro i ch s t hch hs
    obtain ⟨g, hg⟩ := exec_onChannel hch
    cases hs.symm.trans (hg s)
    refine ⟨s.onChannel_keys .., s.onChannel_port .., s.onChannel_vocPort .., s.onChannel_draw .., s.onChannel_nch ..,
      s.onChannel_other ch _, ?_⟩
    intro s' t' hkeys hchan hs'
    cases hs'.symm.trans (hg s')
    rw [hkeys]
    exact onChannel_congr _ hchan
  · intro i s t hch hs
    obtain ⟨g, hg⟩ := exec_of_no_channel hch
    cases hs.symm.trans (hg s)
    refine ⟨rfl, rfl, rfl, rfl, ?_⟩
    intro s' t' hkeys hs'
    cases hs'.symm.trans (hg s')
    simp only [hkeys, and_self]

end Sys2Proof.Proofs
end

section
/-! The byte spaces of a channel (20_memory.md R60, R61) and the byte order of the MI register (20_memory.md R62). -/

namespace Sys2Proof.Proofs

open Sys2Proof Sys2Proof.Machine

/-! ### Byte spaces (20_memory.md R61) -/

theorem readBytes_getElem?_of_lt (m : Memory) (addr : Nat) {n i : Nat} (h : i < n) :
    (m.readBytes addr n)[i]? = some (m.read (addr + i)) := by
  rw [Memory.readBytes_getElem?, if_pos h]

/-- `MemWrite` changes no byte below or above the range it names. -/
theorem read_writeBytes_outside {m : Memory} (hm : m.wf) {addr a : Nat} {v : List Byte}
    (ha : a < addr ∨ addr + v.length ≤ a) : (m.writeBytes addr v).read a = m.read a := by
  rw [Memory.read_writeBytes addr v a hm, if_neg (by omega)]

/-- Settles O22, from the laws of the byte spaces. -/
theorem memoryReadsWhatWasWritten : Obligations.MemoryReadsWhatWasWritten :=
  ⟨fun m addr n _ => ⟨m.readBytes_length addr n, readBytes_getElem?_of_lt m addr⟩,
    fun _ addr v hm => ⟨Memory.writeBytes_wf addr v hm, Memory.readBytes_writeBytes addr v hm,
      fun _ => read_writeBytes_outside hm⟩,
    fun _ _ => Memory.ext_of_wf⟩

/-! ### The MI register (20_memory.md R62) -/

/-- Byte `k` of a big-endian array of `n` bytes stands above the `n - 1 - k` bytes that follow it. -/
theorem tobe_getElem? {n k : Nat} (v : Nat) (h : k < n) :
    (tobe n v)[k]? = some (BitVec.ofNat 8 (v >>> (8 * (n - 1 - k)))) := by
  induction n generalizing k with
  | zero => omega
  | succ n ih =>
    cases k with
    | zero => rfl
    | succ k =>
      have hpos : n + 1 - 1 - (k + 1) = n - 1 - k := by omega
      rw [tobe, List.getElem?_cons_succ, ih (by omega), hpos]

/-- The bytes written back from the register are its bits, eight at a time from bit 63 down. -/
theorem tobe_register_getElem? (r : U64) {k : Nat} (h : k < 8) :
    (tobe 8 r.toNat)[k]? = some (r.extractLsb' (8 * (7 - k)) 8) :=
  tobe_getElem? r.toNat h

/-- The bytes written back from the register an MI was loaded into are the MI's first eight. -/
theorem tobe_miRegister {mi : List Byte} (h : 8 ≤ mi.length) : tobe 8 (miRegister mi).toNat = mi.take 8 := by
  have hlen : (mi.take 8).length = 8 := List.length_take_of_le h
  have hlt : be (mi.take 8) < 2 ^ 64 := by
    have hbe := be_lt (mi.take 8)
    rw [hlen] at hbe
    exact hbe
  have hreg : (miRegister mi).toNat = be (mi.take 8) := Nat.mod_eq_of_lt hlt
  have hback := tobe_be (mi.take 8)
  rwa [hlen, ← hreg] at hback

/-- Loading what was written back gives the register, whatever bytes follow the eight. -/
theorem miRegister_tobe (r : U64) (rest : List Byte) : miRegister (tobe 8 r.toNat ++ rest) = r := by
  rw [miRegister, List.take_left' (tobe_length 8 _), ofNat_be_tobe (n := 8) r rfl]

/-- Byte `k` of an MI is the `k`-th byte of its register, counted from bit 63 down. -/
theorem mi_getElem?_eq_register {mi : List Byte} (h : 8 ≤ mi.length) {k : Nat} (hk : k < 8) :
    mi[k]? = some ((miRegister mi).extractLsb' (8 * (7 - k)) 8) := by
  rw [← tobe_register_getElem? _ hk, tobe_miRegister h, List.getElem?_take_of_lt hk]

/-- Settles O23: an MI of nine bytes fills the register, and loading inverts the write-back. -/
theorem miRegisterIsBigEndian : Obligations.MiRegisterIsBigEndian := by
  intro mi hmi k hk
  have hlen : 8 ≤ mi.length := by omega
  exact ⟨mi_getElem?_eq_register hlen hk, fun r => ⟨tobe_register_getElem? r hk, miRegister_tobe r [0]⟩⟩

end Sys2Proof.Proofs
end

section
/-! The encoding (30_encoding.md): what the decoder takes from the command port and what it reads nothing from, the
answers to reserved opcodes, channels and field values, and the bytes of a response. -/

namespace Sys2Proof.Proofs

open Sys2Proof Sys2Proof.Machine

/-! ### The payload a word asks for (30_encoding.md R84) -/

/-- The frame-type codes 7..255 are reserved (30_encoding.md R82). -/
theorem frameType_reserved {ft : Byte} (h : 7 ≤ ft.toNat) : frameType ft = none := by
  unfold frameType
  split
  case h_8 => rfl
  all_goals omega

/-- The codeword lengths of 30_encoding.md R84, by ranges of the frame-type code. -/
theorem cwLenOf_eq (ft : Byte) : cwLenOf ft = if ft.toNat ≤ 1 then 11 else if ft.toNat ≤ 6 then 7 else 0 := by
  rcases Nat.lt_or_ge ft.toNat 7 with hlt | hge
  · unfold cwLenOf frameType
    interval_cases ft.toNat <;> rfl
  · rw [cwLenOf, frameType_reserved hge, if_neg (by omega), if_neg (by omega)]

/-- The payload of ADDKEY holds the `len` byte that gives its length. -/
theorem addkey_payload_length {a : Byte} {p rest : List Byte} (h : payloadLen 0x01 a (p ++ rest) = some p.length) :
    ∃ len : Byte, p[1]? = some len ∧ p.length = 2 + len.toNat := by
  obtain ⟨len, hlen, hp⟩ := Option.map_eq_some_iff.1 h
  have hlt : 1 < p.length := by omega
  exact ⟨len, by rwa [List.getElem?_append_left hlt] at hlen, hp.symm⟩

/-- A word of a command has one of the 17 opcodes. -/
theorem opcode_le_of_commandOf {op ch a b : Byte} {p voc : List Byte} {i : Instr}
    (h : commandOf op ch a b p voc = some i) : op.toNat ≤ 0x10 := by
  by_contra hop
  obtain ⟨-, hnone⟩ := reserved_opcode (Nat.lt_of_not_le hop) ch a b p [] voc
  rw [hnone] at h
  cases h

/-! ### The fields a word's opcode uses (30_encoding.md R81, R83, R86) -/

/-- Field `a` gives the payload length of PROCESS only. -/
theorem payloadLen_congr {op a a' : Byte} (h : op = 0x05 → a = a') (rest : List Byte) :
    payloadLen op a rest = payloadLen op a' rest := by
  by_cases hop : op = 0x05
  · rw [h hop]
  · have hne : op.toNat ≠ 0x05 := fun h5 => hop (BitVec.eq_of_toNat_eq h5)
    unfold payloadLen
    split
    case h_4 h5 => exact absurd h5 hne
    all_goals rfl

/-- Only the four commands without a channel do not use field `ch`. -/
theorem commandOf_ch {op ch ch' : Byte} (h : op ≠ 0x00 → op ≠ 0x01 → op ≠ 0x04 → op ≠ 0x08 → ch = ch') (a b : Byte)
    (p voc : List Byte) : commandOf op ch a b p voc = commandOf op ch' a b p voc := by
  by_cases hnone : op = 0x00 ∨ op = 0x01 ∨ op = 0x04 ∨ op = 0x08
  · rcases hnone with rfl | rfl | rfl | rfl <;> rfl
  · simp only [not_or] at hnone
    obtain ⟨hnop, haddkey, hexpandiv, htone⟩ := hnone
    rw [h hnop haddkey hexpandiv htone]

/-- ADDKEY, PROCESS, UNPACK and RXFRAME use field `a` whole, PACK and TXPCM its bit 0, the other commands none of it. -/
theorem commandOf_a {op a a' : Byte} (h : op = 0x01 ∨ op = 0x05 ∨ op = 0x07 ∨ op = 0x0A → a = a')
    (hflag : op = 0x06 ∨ op = 0x09 → a.getLsbD 0 = a'.getLsbD 0) (ch b : Byte) (p voc : List Byte) :
    commandOf op ch a b p voc = commandOf op ch a' b p voc := by
  unfold commandOf
  split
  case h_2 hop => rw [h (.inl (BitVec.eq_of_toNat_eq hop))]
  case h_6 hop => rw [h (.inr (.inl (BitVec.eq_of_toNat_eq hop)))]
  case h_8 hop => rw [h (.inr (.inr (.inl (BitVec.eq_of_toNat_eq hop))))]
  case h_11 hop => rw [h (.inr (.inr (.inr (BitVec.eq_of_toNat_eq hop))))]
  case h_7 hop => rw [hflag (.inl (BitVec.eq_of_toNat_eq hop))]
  case h_10 hop => rw [hflag (.inr (BitVec.eq_of_toNat_eq hop))]
  all_goals rfl

/-- ADDKEY and PROCESS use field `b` whole, UNPACK its bits 0 and 1, RXFRAME, SELECT and ENCCFG its bit 0, the other
commands none of it. -/
theorem commandOf_b {op b b' : Byte} (h : op = 0x01 ∨ op = 0x05 → b = b')
    (hflag0 : op = 0x07 ∨ op = 0x0A ∨ op = 0x0C ∨ op = 0x0D → b.getLsbD 0 = b'.getLsbD 0)
    (hflag1 : op = 0x07 → b.getLsbD 1 = b'.getLsbD 1) (ch a : Byte) (p voc : List Byte) :
    commandOf op ch a b p voc = commandOf op ch a b' p voc := by
  unfold commandOf
  split
  case h_2 hop => rw [h (.inl (BitVec.eq_of_toNat_eq hop))]
  case h_6 hop => rw [h (.inr (BitVec.eq_of_toNat_eq hop))]
  case h_8 hop =>
    have hunpack : op = 0x07 := BitVec.eq_of_toNat_eq hop
    rw [hflag0 (.inl hunpack), hflag1 hunpack]
  case h_11 hop => rw [hflag0 (.inr (.inl (BitVec.eq_of_toNat_eq hop)))]
  case h_13 hop => rw [hflag0 (.inr (.inr (.inl (BitVec.eq_of_toNat_eq hop))))]
  case h_14 hop => rw [hflag0 (.inr (.inr (.inr (BitVec.eq_of_toNat_eq hop))))]
  all_goals rfl

/-- Words of one opcode that ask for the same payload and give the same command with it decode alike. -/
theorem decode_congr {op ch ch' a a' b b' : Byte} {rest voc : List Byte}
    (hlen : payloadLen op a rest = payloadLen op a' rest)
    (hcmd : ∀ p, commandOf op ch a b p voc = commandOf op ch' a' b' p voc) :
    decode (op :: ch :: a :: b :: rest) voc = decode (op :: ch' :: a' :: b' :: rest) voc := by
  simp only [decode, hlen, hcmd]

/-! ### Reserved opcodes (30_encoding.md R90) -/

theorem decode_reserved {op : Byte} (h : 0x11 ≤ op.toNat) (ch a b : Byte) (rest voc : List Byte) :
    decode (op :: ch :: a :: b :: rest) voc = .illegalCommand rest := by
  obtain ⟨hlen, hcmd⟩ := reserved_opcode h ch a b [] rest voc
  simp [decode, hlen, hcmd]

theorem step_of_decode_illegal {s : State} {rest : List Byte} (h : decode s.port s.vocSupply = .illegalCommand rest) :
    step s = .next (s.illegal rest) := by
  simp only [step, State.fetch, h]

/-- The answer to a reserved opcode takes no vocoder byte. -/
theorem illegal_eq (s : State) (rest : List Byte) :
    s.illegal rest = { s with port := rest, resp := some (Response.fail .illegalCommand) } := by
  simp [State.illegal, State.fail, State.respond, State.advance]

/-! ### A command that fails on its channel (30_encoding.md R87 step 3, R90) -/

theorem onChannel_badChannel {s : State} {ch : Byte} (f : Channel → Channel × Response)
    (h : s.chans.length ≤ ch.toNat) : s.onChannel ch f = s.fail .badChannel :=
  State.onChannel_of_none f (List.getElem?_eq_none h)

/-- A command that fails on every channel writes nothing when its channel exists. -/
theorem onChannel_fail {s : State} {ch : Byte} {f : Channel → Channel × Response} {st : Status}
    (h : ch.toNat < s.chans.length) (hf : ∀ c, f c = c.fail st) : s.onChannel ch f = s.fail st := by
  have hc : s.chans[ch.toNat]? = some s.chans[ch.toNat] := List.getElem?_eq_getElem h
  rw [State.onChannel_of_some f hc, hf]
  exact State.answered_same (Response.fail st) hc

/-! ### The payload length on the wire (30_encoding.md R88) -/

/-- A two-byte big-endian field, byte by byte. -/
theorem tobe_two (v : Nat) : ∃ hi lo : Byte, tobe 2 v = [hi, lo] ∧ hi.toNat * 256 + lo.toNat = v % 65536 := by
  refine ⟨_, _, rfl, ?_⟩
  simpa only [tobe, be, List.length_cons, List.length_nil, Nat.pow_one, Nat.pow_zero, Nat.mul_one, Nat.add_zero,
    Nat.reducePow, Nat.reduceAdd] using be_tobe 2 v

/-! ### The obligations -/

/-- Settles O1. -/
theorem decodeEncodeRoundTrip : Obligations.DecodeEncodeRoundTrip :=
  fun _ hw rest vrest => decode_encode hw rest vrest

/-- Settles O2, from the word and the payload the command was read from. -/
theorem decodedCommandsAreWellFormed : Obligations.DecodedCommandsAreWellFormed := by
  intro bytes voc i rest n h
  obtain ⟨op, ch, a, b, p, -, hp, hc, -⟩ := decode_command h
  exact wf_of_commandOf hp hc

/-- Settles O3: each clause is `payloadLen` of its opcodes. -/
theorem decodeTakesWordAndPayload : Obligations.DecodeTakesWordAndPayload := by
  intro bytes voc i rest n h
  obtain ⟨op, ch, a, b, p, hbytes, hp, hc, -⟩ := decode_command h
  have hlen : ∀ {m : Nat}, payloadLen op a (p ++ rest) = some m → p.length = m := fun hm =>
    Option.some.inj (hp.symm.trans hm)
  refine ⟨op, ch, a, b, p, hbytes, opcode_le_of_commandOf hc, ?none, ?addkey, ?context, ?expandiv, ?process, ?pack,
    ?unpack, ?pcm, ?rxframe, ?wrseq⟩
  case none => rintro (rfl | rfl | rfl | rfl | rfl | rfl) <;> exact hlen rfl
  case addkey =>
    rintro rfl
    exact addkey_payload_length hp
  case context => rintro (rfl | rfl) <;> exact hlen rfl
  case process =>
    rintro rfl
    exact (hlen rfl).trans (cwLenOf_eq a)
  case pcm => rintro (rfl | rfl) <;> exact hlen rfl
  all_goals
    rintro rfl
    exact hlen rfl

/-- Settles O4, one field of the word after the other. -/
theorem unusedFieldsSelectNothing : Obligations.UnusedFieldsSelectNothing := by
  intro op ch ch' a a' b b' rest voc hch ha haflag hb hbflag0 hbflag1
  refine decode_congr (payloadLen_congr (fun hop => ha (.inr (.inl hop))) rest) fun p => ?_
  calc commandOf op ch a b p voc
    _ = commandOf op ch' a b p voc := commandOf_ch hch a b p voc
    _ = commandOf op ch' a' b p voc := commandOf_a ha haflag ch' b p voc
    _ = commandOf op ch' a' b' p voc := commandOf_b hb hbflag0 hbflag1 ch' a' p voc

/-- Settles O5: the words of 95_test_vectors.md V1 are the encodings of their commands, and so decode to them (O1). -/
theorem wordsDecodeAsWritten : Obligations.WordsDecodeAsWritten :=
  ⟨decode_encode (i := .addkey 7 0xAA [1, 2, 3, 4, 5]) rfl [] [],
    decode_encode (i := .process 0 1 8 [0, 1, 2, 3, 4, 5, 6, 7, 8, 9, 10]) rfl [] [],
    decode_encode (i := .pack 0 true [0, 1, 2, 3, 4, 5, 6, 7, 8, 9, 10]) rfl [] [],
    decode_encode (i := .select 2 true) rfl [] []⟩

/-- Settles O9. -/
theorem reservedOpcodeAnswered : Obligations.ReservedOpcodeAnswered := by
  intro s op ch a b rest hop hport
  have hdec : decode s.port s.vocSupply = .illegalCommand rest := by rw [hport, decode_reserved hop]
  exact ⟨(step_of_decode_illegal hdec).trans (congrArg _ (illegal_eq s rest)), rfl⟩

/-- Settles O16: every command that names a channel runs through `onChannel`. -/
theorem badChannelAnswered : Obligations.BadChannelAnswered := by
  intro i ch s hch hlen
  obtain ⟨g, hg⟩ := exec_onChannel hch
  rw [hg s, onChannel_badChannel _ hlen]
  rfl

/-- Settles O17: each of the four commands checks its reserved field before it reads its channel. -/
theorem reservedFieldsAnswered : Obligations.ReservedFieldsAnswered := by
  intro s ch hch
  refine ⟨fun alg keyId phase mi hphase => ⟨?prepare, ?esync⟩, fun ft idx cw hft => ?process,
    fun ft v f buf voc hft => ?unpack⟩
  case prepare => exact congrArg Host.Outcome.next (onChannel_fail hch fun _ => if_pos hphase)
  case esync => exact congrArg Host.Outcome.next (onChannel_fail hch fun _ => if_pos hphase)
  case process =>
    refine congrArg Host.Outcome.next (onChannel_fail hch fun c => ?_)
    rw [frameType_reserved hft]
  case unpack => exact congrArg Host.Outcome.next (onChannel_fail hch fun _ => if_pos hft)

/-- Settles O21: a payload length below 65536 is its two bytes. -/
theorem responseWireLayout : Obligations.ResponseWireLayout := by
  intro r hr
  obtain ⟨hi, lo, hbytes, hval⟩ := tobe_two r.payload.length
  refine ⟨hi, lo, ?_, hval.trans (Nat.mod_eq_of_lt hr)⟩
  simp only [Response.wire, hbytes, List.cons_append, List.nil_append]

end Sys2Proof.Proofs
end

section
/-! The keystream engine (40_keystream.md): ADDKEY (R110), PREPARE (R111), the procedure `Prepare` (R113) and the two
keystreams it generates (R114 to R117). -/

namespace Sys2Proof.Proofs

open Sys2Proof Sys2Proof.Machine

/-! ### The outcome of `Prepare`, check by check (40_keystream.md R113) -/

theorem prepareStatus_of_unsupported (keys : KeyStore) {alg : Byte} (keyId : U16) (hadp : alg ≠ algAdp)
    (haes : alg ≠ algAes) : prepareStatus keys alg keyId = .unsupportedAlgorithm :=
  if_pos ⟨hadp, haes⟩

theorem prepareStatus_of_find_none {keys : KeyStore} {alg : Byte} {keyId : U16} (halg : alg = algAdp ∨ alg = algAes)
    (hfind : keys.find keyId = none) : prepareStatus keys alg keyId = .unknownKey := by
  rw [prepareStatus, if_neg (by tauto), hfind]

/-- RC4-ADP takes a key of any length. -/
theorem prepareStatus_adp {keys : KeyStore} {keyId : U16} {r : KeyRecord} (hfind : keys.find keyId = some r) :
    prepareStatus keys algAdp keyId = .ok := by
  rw [prepareStatus, if_neg (by decide), hfind]
  exact if_neg (fun h => absurd h.1 (by decide))

theorem prepareStatus_aes {keys : KeyStore} {keyId : U16} {r : KeyRecord} (hfind : keys.find keyId = some r) :
    prepareStatus keys algAes keyId = if r.keyBytes.length = 32 then .ok else .badKeyLength := by
  rw [prepareStatus, if_neg (by decide), hfind]
  simp only [true_and, ne_eq, ite_not]

/-! ### What `Prepare` writes (40_keystream.md R113) -/

theorem bytesOf_of_find {keys : KeyStore} {keyId : U16} {r : KeyRecord} (hfind : keys.find keyId = some r) :
    keys.bytesOf keyId = r.keyBytes := by
  rw [KeyStore.bytesOf, hfind]

theorem loadMi_eq {mi : List Byte} (h : 8 ≤ mi.length) : loadMi mi = mi.take 8 ++ [0] := by
  rw [loadMi, slice_zero_of_length h]

/-- Loading an MI keeps its eight meaningful bytes (10_state.md R24). -/
theorem take_loadMi {mi : List Byte} (h : 8 ≤ mi.length) : (loadMi mi).take 8 = mi.take 8 := by
  rw [loadMi_eq h, List.take_append_of_le_length (by simp [h]), List.take_take, Nat.min_self]

theorem prepare_of_ok {keys : KeyStore} {alg : Byte} {keyId : U16} (phase : Phase) {mi : List Byte} (c : Channel)
    (hst : prepareStatus keys alg keyId = .ok) (hmi : 8 ≤ mi.length) :
    c.prepare keys alg keyId phase mi =
      { c with ctxAlg := alg, ctxKeyId := keyId, ctxPhase := phase, ctxMi := mi.take 8 ++ [0], cursor := 0
               ks := Memory.ofBytes (keystream alg (keys.bytesOf keyId) (loadMi mi))
               ksLen := if alg = algAdp then 469 else 240, ctxStatus := .ok } := by
  simp only [Channel.prepare, hst, if_true, loadMi_eq hmi]
  rfl

theorem prepare_of_not_ok {keys : KeyStore} {alg : Byte} {keyId : U16} (phase : Phase) {mi : List Byte} (c : Channel)
    (hst : prepareStatus keys alg keyId ≠ .ok) (hmi : 8 ≤ mi.length) :
    c.prepare keys alg keyId phase mi =
      { c with ctxAlg := alg, ctxKeyId := keyId, ctxPhase := phase, ctxMi := mi.take 8 ++ [0], cursor := 0
               ks := Memory.clear, ksLen := 0, ctxStatus := prepareStatus keys alg keyId } := by
  simp only [Channel.prepare, if_neg hst, loadMi_eq hmi]
  rfl

/-! ### The RC4-ADP keystream (40_keystream.md R114 to R116) -/

/-- The seed is the key, cut or padded with zeros on the left to five bytes, then the eight meaningful MI bytes. -/
theorem adpSeed_eq (key mi : List Byte) :
    adpSeed key mi = (List.replicate (5 - key.length) 0 ++ key.take 5) ++ mi.take 8 := by
  rw [adpSeed]
  split_ifs with hlong
  · rw [Nat.sub_eq_zero_of_le hlong, List.replicate_zero, List.nil_append]
  · rw [List.take_of_length_le (l := key) (by omega), zeros]

theorem keystream_adp (key : List Byte) {mi : List Byte} (h : 8 ≤ mi.length) :
    keystream algAdp key (loadMi mi) = rc4Keystream (adpSeed key mi) 469 := by
  rw [keystream, if_pos rfl, adpSeed_eq, adpSeed_eq, take_loadMi h]
  rfl

/-- What a `Prepare` under RC4-ADP writes into the keystream space. -/
theorem prepare_adp_ks {keys : KeyStore} {keyId : U16} {r : KeyRecord} (phase : Phase) {mi : List Byte} (c : Channel)
    (hfind : keys.find keyId = some r) (hmi : 8 ≤ mi.length) :
    (c.prepare keys algAdp keyId phase mi).ks = Memory.ofBytes (rc4Keystream (adpSeed r.keyBytes mi) 469) := by
  rw [prepare_of_ok phase c (prepareStatus_adp hfind) hmi, bytesOf_of_find hfind, keystream_adp _ hmi]

/-! ### The AES-256 keystream (40_keystream.md R117) -/

theorem aesCipher_keyExpansion_length (key x : List Byte) : (aesCipher (keyExpansion256 key) x).length = 16 :=
  aesEncryptBlock_length key x

theorem keystream_aes (key : List Byte) {mi : List Byte} (h : 8 ≤ mi.length) :
    keystream algAes key (loadMi mi) = aesChain (keyExpansion256 key) 15 (expandIv (mi.take 8)) := by
  rw [keystream, if_neg (by decide), aesKeystream, take_loadMi h]

/-- Block `n` of the keystream space that a chain of blocks fills. -/
theorem readBytes_aesChain {key x : List Byte} {m n : Nat} (h : n < m) :
    (Memory.ofBytes (aesChain (keyExpansion256 key) m x)).readBytes (16 * n) 16 =
      ((aesChain (keyExpansion256 key) m x).drop (16 * n)).take 16 :=
  Memory.readBytes_ofBytes_slice _ _ _ (by rw [aesChain_length]; omega)

/-- Block 0 is the encryption of the chain's start, the IV. -/
theorem readBytes_aesChain_first (key x : List Byte) (m : Nat) :
    (Memory.ofBytes (aesChain (keyExpansion256 key) (m + 1) x)).readBytes 0 16 = aesEncryptBlock key x := by
  rw [show (0 : Nat) = 16 * 0 from rfl, readBytes_aesChain (Nat.succ_pos m), Nat.mul_zero, List.drop_zero, aesChain]
  exact List.take_left' (aesCipher_keyExpansion_length key x)

/-- Each further block is the encryption of the one before. -/
theorem readBytes_aesChain_next {key x : List Byte} {m n : Nat} (h : n + 1 < m) :
    (Memory.ofBytes (aesChain (keyExpansion256 key) m x)).readBytes (16 * (n + 1)) 16 =
      aesEncryptBlock key ((Memory.ofBytes (aesChain (keyExpansion256 key) m x)).readBytes (16 * n) 16) := by
  rw [readBytes_aesChain h, readBytes_aesChain (by omega)]
  exact aesChain_block (aesCipher_keyExpansion_length key) m x n h

/-! ### The commands ADDKEY and PREPARE -/

/-- A whole ADDKEY on the command port: key id from the word, algorithm and key from the payload. -/
theorem decode_addkey {ch a b alg len : Byte} {key : List Byte} (rest voc : List Byte) (h : key.length = len.toNat) :
    decode (0x01 :: ch :: a :: b :: alg :: len :: (key ++ rest)) voc = .command (.addkey (a ++ b) alg key) rest 0 := by
  have hlen : payloadLen 0x01 a ((alg :: len :: key) ++ rest) = some (alg :: len :: key).length :=
    congrArg some (show 2 + len.toNat = key.length + 2 by omega)
  have hcmd : commandOf 0x01 ch a b (alg :: len :: key) voc = some (.addkey (a ++ b) alg key) :=
    congrArg (fun k => some (Instr.addkey (a ++ b) alg k)) (slice_all rfl)
  exact decode_of_payload hlen hcmd

/-- The two phase bytes that are not reserved (30_encoding.md R82). -/
theorem phase_ofByte {phase : Byte} (h : phase.toNat < 2) :
    Phase.ofByte phase = if phase = 1 then .phase2 else .phase1 := by
  have hbyte : phase = 0 ∨ phase = 1 := by bv_omega
  rcases hbyte with rfl | rfl <;> rfl

/-! ### The obligations -/

/-- Settles O26. -/
theorem addkeyReplacesRecord : Obligations.AddkeyReplacesRecord := by
  refine ⟨fun ch a b alg len key rest voc h => decode_addkey rest voc h, fun keyId alg key s => ?_⟩
  refine ⟨s.keys.set keyId { alg := alg, keyBytes := key }, rfl, ?_, fun k hk => ?_, KeyStore.set_wf keyId _⟩
  · rw [KeyStore.find_set, if_pos rfl]
  · rw [KeyStore.find_set, if_neg hk]

/-- Settles O27: the status is OK, and `KS` holds the bytes generated from the seed. -/
theorem prepareAdpGenerates : Obligations.PrepareAdpGenerates := by
  intro keys keyId r phase mi c hfind hmi
  have hmi8 : 8 ≤ mi.length := by omega
  have hlen : (keystream algAdp r.keyBytes (loadMi mi)).length = 469 := keystream_length _ _ _
  have hprep := prepare_of_ok phase c (prepareStatus_adp hfind) hmi8
  rw [bytesOf_of_find hfind] at hprep
  refine ⟨_, hprep, Memory.ofBytes_wf _, hlen ▸ Memory.ofBytes_within _, ?_⟩
  have hread := Memory.readBytes_ofBytes (keystream algAdp r.keyBytes (loadMi mi))
  rw [hlen] at hread
  exact hread.trans (keystream_adp r.keyBytes hmi8)

/-- Settles O28: the status is OK, and `KS` holds a chain of 15 blocks from the IV. -/
theorem prepareAesGenerates : Obligations.PrepareAesGenerates := by
  intro keys keyId r phase mi c hfind hkey hmi
  have hmi8 : 8 ≤ mi.length := by omega
  have hst : prepareStatus keys algAes keyId = .ok := by rw [prepareStatus_aes hfind, if_pos hkey]
  have hprep := prepare_of_ok phase c hst hmi8
  rw [bytesOf_of_find hfind, keystream_aes _ hmi8] at hprep
  refine ⟨_, hprep, Memory.ofBytes_wf _, ?_, readBytes_aesChain_first _ _ 14, fun n hn => ?_⟩
  · have hwithin := Memory.ofBytes_within (aesChain (keyExpansion256 r.keyBytes) 15 (expandIv (mi.take 8)))
    rwa [aesChain_length] at hwithin
  · exact readBytes_aesChain_next (by omega)

/-- Settles O29: in each of the three cases the status is the one named, and so `KS` is cleared. -/
theorem prepareFailureClears : Obligations.PrepareFailureClears := by
  intro keys alg keyId phase mi c st hmi hcase
  have hst : prepareStatus keys alg keyId = st ∧ st ≠ .ok := by
    rcases hcase with ⟨hadp, haes, rfl⟩ | ⟨halg, hfind, rfl⟩ | ⟨rfl, ⟨r, hfind, hlen⟩, rfl⟩
    · exact ⟨prepareStatus_of_unsupported keys keyId hadp haes, by decide⟩
    · exact ⟨prepareStatus_of_find_none halg hfind, by decide⟩
    · exact ⟨(prepareStatus_aes hfind).trans (if_neg hlen), by decide⟩
  obtain ⟨rfl, hne⟩ := hst
  exact ⟨Memory.clear, prepare_of_not_ok phase c hne (by omega), Memory.wf_clear, Memory.read_clear⟩

/-- Settles O31: both keystreams are generated from one seed. -/
theorem adpKeystreamDependsOnFiveKeyBytes : Obligations.AdpKeystreamDependsOnFiveKeyBytes := by
  intro keys keys' keyId keyId' r r' phase phase' mi mi' c c' hfind hfind' hkey hmi hmi' hmi8
  have hseed : adpSeed r.keyBytes mi = adpSeed r'.keyBytes mi' := by rw [adpSeed_eq, adpSeed_eq, hkey, hmi8]
  calc (c.prepare keys algAdp keyId phase mi).ks
    _ = Memory.ofBytes (rc4Keystream (adpSeed r.keyBytes mi) 469) := prepare_adp_ks phase c hfind (by omega)
    _ = Memory.ofBytes (rc4Keystream (adpSeed r'.keyBytes mi') 469) := by rw [hseed]
    _ = (c'.prepare keys' algAdp keyId' phase' mi').ks := (prepare_adp_ks phase' c' hfind' (by omega)).symm

/-- Settles O30: on a channel that exists, PREPARE is `Prepare` with the phase its byte names; a reserved phase is
answered as in O17. -/
theorem prepareCommandRunsPrepare : Obligations.PrepareCommandRunsPrepare := by
  intro ch alg keyId phase mi s c hc
  constructor
  · intro hphase
    refine congrArg Host.Outcome.next ((State.onChannel_of_some _ hc).trans ?_)
    rw [if_neg (by omega), phase_ofByte hphase]
  · intro hphase
    have hch : ch.toNat < s.chans.length := (List.getElem?_eq_some_iff.1 hc).1
    exact ((reservedFieldsAnswered s ch hch).1 alg keyId phase mi hphase).1

end Sys2Proof.Proofs
end

section
/-! The S-box (40_keystream.md R124) and the field it is built on (R120). The product of the field is associative, so
that an element has at most one inverse; what is left to the table is one check per entry. -/

namespace Sys2Proof.Proofs

open Sys2Proof Sys2Proof.Machine

/-! ### The product as a sum over bits (40_keystream.md R120) -/

/-- A byte if the bit is set, else zero: the product of a bit and a byte. -/
def bitTimes (f : Bool) (v : Byte) : Byte := if f then v else 0

@[simp] theorem bitTimes_false (v : Byte) : bitTimes false v = 0 := rfl
@[simp] theorem bitTimes_true (v : Byte) : bitTimes true v = v := rfl

@[simp] theorem bitTimes_zero (f : Bool) : bitTimes f 0#8 = 0#8 := by cases f <;> rfl

theorem getElem_bitTimes (f : Bool) (v : Byte) {i : Nat} (hi : i < 8) : (bitTimes f v)[i] = (f && v[i]) := by
  cases f <;> simp

theorem bitTimes_xor (f g : Bool) (v : Byte) : bitTimes (f ^^ g) v = bitTimes f v ^^^ bitTimes g v := by
  cases f <;> cases g <;> simp

theorem xor_bitTimes (f : Bool) (x v : Byte) : (if f then x ^^^ v else x) = x ^^^ bitTimes f v := by
  cases f <;> simp

@[simp] theorem xtimes_zero (a : Byte) : xtimes 0 a = a := rfl

theorem xtimes_succ (n : Nat) (a : Byte) : xtimes (n + 1) a = xtime (xtimes n a) := rfl

theorem xtime_eq (x : Byte) : xtime x = x <<< 1 ^^^ bitTimes (x.getLsbD 7) 0x1B := xor_bitTimes _ _ _

theorem gmul_eq_foldl (a b : Byte) :
    gmul a b = (List.range 8).foldl (fun acc i => if b.getLsbD i then acc ^^^ xtimes i a else acc) 0 := rfl

theorem gmul_eq_sum (a b : Byte) :
    gmul a b =
      bitTimes (b.getLsbD 0) (xtimes 0 a) ^^^ bitTimes (b.getLsbD 1) (xtimes 1 a) ^^^
      bitTimes (b.getLsbD 2) (xtimes 2 a) ^^^ bitTimes (b.getLsbD 3) (xtimes 3 a) ^^^
      bitTimes (b.getLsbD 4) (xtimes 4 a) ^^^ bitTimes (b.getLsbD 5) (xtimes 5 a) ^^^
      bitTimes (b.getLsbD 6) (xtimes 6 a) ^^^ bitTimes (b.getLsbD 7) (xtimes 7 a) := by
  simp only [gmul_eq_foldl, List.range_succ, List.range_zero, List.nil_append, List.cons_append, List.foldl_cons,
    List.foldl_nil, xor_bitTimes, BitVec.ofNat_eq_ofNat, BitVec.zero_xor]

/-! ### `xtime` and the product are linear -/

theorem xtime_xor (x y : Byte) : xtime (x ^^^ y) = xtime x ^^^ xtime y := by
  simp only [xtime_eq, BitVec.shiftLeft_xor_distrib, BitVec.getLsbD_xor, bitTimes_xor]
  ac_rfl

theorem xtime_zero : xtime 0 = 0 := by decide

theorem xtimes_zero_right (n : Nat) : xtimes n 0#8 = 0#8 := by
  induction n with
  | zero => rfl
  | succ n ih => rw [xtimes_succ, ih]; exact xtime_zero

theorem xtime_bitTimes (f : Bool) (v : Byte) : xtime (bitTimes f v) = bitTimes f (xtime v) := by
  cases f with
  | false => exact xtime_zero
  | true => rfl

theorem gmul_xor (a x y : Byte) : gmul a (x ^^^ y) = gmul a x ^^^ gmul a y := by
  simp only [gmul_eq_sum, BitVec.getLsbD_xor, bitTimes_xor]
  ac_rfl

theorem gmul_zero (a : Byte) : gmul a 0 = 0 := by simp [gmul_eq_sum]

theorem gmul_bitTimes (a : Byte) (f : Bool) (v : Byte) : gmul a (bitTimes f v) = bitTimes f (gmul a v) := by
  cases f with
  | false => exact gmul_zero a
  | true => rfl

/-! ### The product is associative -/

/-- The field's reduction: eight times `xtime` is the product with `0x1B`. -/
theorem gmul_reduction : ∀ a : Byte, gmul a 0x1B = xtimes 8 a := by decide

/-- `xtime` comes out of the product: the bits of the factor move up one place, and what bit 7 leaves is reduced. -/
theorem gmul_xtime (a x : Byte) : gmul a (xtime x) = xtime (gmul a x) := by
  have hshift : gmul a (x <<< 1) ^^^ bitTimes (x.getLsbD 7) (xtimes 8 a) = xtime (gmul a x) := by
    simp [gmul_eq_sum, xtime_xor, xtime_bitTimes, xtimes_succ]
  rw [xtime_eq x, gmul_xor, gmul_bitTimes, gmul_reduction, hshift]

theorem gmul_xtimes (a x : Byte) (n : Nat) : gmul a (xtimes n x) = xtimes n (gmul a x) := by
  induction n with
  | zero => rfl
  | succ n ih => rw [xtimes_succ, gmul_xtime, ih, xtimes_succ]

theorem gmul_assoc (a b c : Byte) : gmul (gmul a b) c = gmul a (gmul b c) := by
  rw [gmul_eq_sum b c]
  simp only [gmul_xor, gmul_bitTimes, gmul_xtimes]
  exact gmul_eq_sum (gmul a b) c

theorem gmul_one (a : Byte) : gmul a 1 = a := by simp [gmul_eq_sum]

theorem xtimes_one : ∀ i < 8, xtimes i 1 = BitVec.twoPow 8 i := by decide

/-- A byte is the sum of its bits. -/
theorem one_gmul (b : Byte) : gmul 1 b = b := by
  simp only [gmul_eq_sum, xtimes_one, Nat.reduceLT]
  apply BitVec.eq_of_getElem_eq
  intro i hi
  interval_cases i <;> simp [getElem_bitTimes]

theorem zero_gmul (b : Byte) : gmul 0 b = 0 := by simp [gmul_eq_sum, xtimes_zero_right]

/-- A left inverse is every right inverse. -/
theorem eq_of_gmul_eq_one {a b b' : Byte} (hleft : gmul b' a = 1) (hright : gmul a b = 1) : b = b' := by
  calc b
    _ = gmul (gmul b' a) b := by rw [hleft, one_gmul]
    _ = gmul b' (gmul a b) := gmul_assoc b' a b
    _ = b' := by rw [hright, gmul_one]

/-! ### The table (40_keystream.md R124) -/

/-- The affine map of the S-box. -/
def sboxAffine (b : Byte) : Byte :=
  b ^^^ b.rotateLeft 1 ^^^ b.rotateLeft 2 ^^^ b.rotateLeft 3 ^^^ b.rotateLeft 4 ^^^ 0x63

/-- The affine map undone. -/
def sboxAffineUndo (s : Byte) : Byte := s.rotateLeft 1 ^^^ s.rotateLeft 3 ^^^ s.rotateLeft 6 ^^^ 0x05

theorem sboxAffine_sboxAffineUndo : ∀ s : Byte, sboxAffine (sboxAffineUndo s) = s := by decide

/-- The byte that the table takes for the inverse of `a`. -/
def sboxInverse (a : Byte) : Byte := sboxAffineUndo (sbox a)

/-- Entry by entry, the table's inverse is one. -/
theorem sboxInverse_gmul : ∀ a : Byte, a ≠ 0 → gmul (sboxInverse a) a = 1 := by decide

/-- The table's inverse is the only one. -/
theorem eq_sboxInverse {a b : Byte} (h : gmul a b = 1) : b = sboxInverse a := by
  have hne : a ≠ 0 := by
    rintro rfl
    rw [zero_gmul] at h
    exact absurd h (by decide)
  exact eq_of_gmul_eq_one (sboxInverse_gmul a hne) h

/-- Settles O32: `b` is the table's inverse of `a` (zero for zero), and the table holds its affine map. -/
theorem sboxIsAffineOfInverse : Obligations.SboxIsAffineOfInverse := by
  intro a b hab
  have hb : b = sboxInverse a := by
    rcases hab with ⟨rfl, rfl⟩ | h
    · decide
    · exact eq_sboxInverse h
  calc sbox a
    _ = sboxAffine (sboxInverse a) := (sboxAffine_sboxAffineUndo (sbox a)).symm
    _ = sboxAffine b := by rw [hb]

end Sys2Proof.Proofs
end

section
/-! The MI sequencer (41_mi_lfsr.md): one clock of the register shifts one bit in at the bottom (R152); so the overflow
trace reads the loaded value out from the top, and clocking is linear and injective (R156). -/

namespace Sys2Proof.Proofs

open Sys2Proof Sys2Proof.Machine

/-! ### One clock of the register (41_mi_lfsr.md R152) -/

/-- The feedback bit of one clock. -/
def lfsrFeedback (r : U64) : Bool :=
  r.getLsbD 63 ^^ r.getLsbD 61 ^^ r.getLsbD 45 ^^ r.getLsbD 37 ^^ r.getLsbD 26 ^^ r.getLsbD 14

/-- The register after one clock, without the overflow. -/
def lfsrClock (r : U64) : U64 := (lfsrStep r).1

/-- A register shifted up by one, with a bit entering at the bottom. -/
theorem shiftLeft_or_bit (x : U64) (f : Bool) : x <<< 1 ||| BitVec.ofNat 64 f.toNat = x.shiftConcat f := by
  apply BitVec.eq_of_getLsbD_eq
  intro i hi
  rw [BitVec.getLsbD_shiftConcat]
  cases i with
  | zero => cases f <;> simp
  | succ i => cases f <;> simp [hi, BitVec.getLsbD_eq_getElem (show i < 64 by omega)]

theorem lfsrStep_eq (r : U64) : lfsrStep r = (r.shiftConcat (lfsrFeedback r), r.getLsbD 63) :=
  congrArg (·, r.getLsbD 63) (shiftLeft_or_bit r (lfsrFeedback r))

theorem lfsrClock_getLsbD_zero (r : U64) : (lfsrClock r).getLsbD 0 = lfsrFeedback r := by
  rw [lfsrClock, lfsrStep_eq, BitVec.getLsbD_shiftConcat]
  rfl

theorem lfsrClock_getLsbD_succ (r : U64) {i : Nat} (h : i < 63) : (lfsrClock r).getLsbD (i + 1) = r.getLsbD i := by
  rw [lfsrClock, lfsrStep_eq, BitVec.getLsbD_shiftConcat, decide_eq_true (by omega)]
  rfl

theorem lfsrFeedback_xor (a b : U64) : lfsrFeedback (a ^^^ b) = (lfsrFeedback a ^^ lfsrFeedback b) := by
  have : Std.Commutative Bool.xor := ⟨Bool.xor_comm⟩
  simp only [lfsrFeedback, BitVec.getLsbD_xor]
  ac_rfl

theorem lfsrClock_xor : Function.Semiconj₂ lfsrClock (· ^^^ ·) (· ^^^ ·) := by
  intro a b
  apply BitVec.eq_of_getLsbD_eq
  intro i hi
  rw [BitVec.getLsbD_xor]
  cases i with
  | zero => simp only [lfsrClock_getLsbD_zero, lfsrFeedback_xor]
  | succ i =>
    have h63 : i < 63 := by omega
    simp only [lfsrClock_getLsbD_succ _ h63, BitVec.getLsbD_xor]

/-- The lower 63 bits are still there one place up; bit 63 is what the feedback holds besides the other five taps. -/
theorem lfsrClock_injective : Function.Injective lfsrClock := by
  intro a b hab
  have hlow : ∀ i < 63, a.getLsbD i = b.getLsbD i := fun i hi => by
    rw [← lfsrClock_getLsbD_succ a hi, hab, lfsrClock_getLsbD_succ b hi]
  have hfeedback : lfsrFeedback a = lfsrFeedback b := by
    rw [← lfsrClock_getLsbD_zero, hab, lfsrClock_getLsbD_zero]
  have htop : a.getLsbD 63 = b.getLsbD 63 := by
    simpa only [lfsrFeedback, hlow 61, hlow 45, hlow 37, hlow 26, hlow 14, Nat.reduceLT, Bool.xor_left_inj]
      using hfeedback
  apply BitVec.eq_of_getLsbD_eq
  intro i hi
  rcases Nat.lt_succ_iff_lt_or_eq.1 hi with hi | rfl
  · exact hlow i hi
  · exact htop

/-! ### A run of clocks (41_mi_lfsr.md R152, R156) -/

theorem lfsrRun_succ (n : Nat) (r t : U64) :
    lfsrRun (n + 1) (r, t) = lfsrRun n (lfsrClock r, t.shiftConcat (r.getLsbD 63)) :=
  congrArg (fun t' => lfsrRun n (lfsrClock r, t')) (shiftLeft_or_bit t (r.getLsbD 63))

theorem lfsrRun_fst (n : Nat) (r t : U64) : (lfsrRun n (r, t)).1 = lfsrClock^[n] r := by
  induction n generalizing r t with
  | zero => rfl
  | succ n ih => rw [lfsrRun_succ, ih, Function.iterate_succ_apply]

/-- After `n` clocks the low `n` bits of the trace are the top `n` bits of the loaded register, since no feedback bit
has reached the top yet; the trace before stands above them. -/
theorem lfsrRun_snd_getLsbD {n i : Nat} (hn : n ≤ 64) (hi : i < 64) (r t : U64) :
    (lfsrRun n (r, t)).2.getLsbD i = if i < n then r.getLsbD (64 - n + i) else t.getLsbD (i - n) := by
  induction n generalizing r t with
  | zero => rfl
  | succ n ih =>
    rw [lfsrRun_succ, ih (by omega)]
    rcases Nat.lt_trichotomy i n with hlt | rfl | hgt
    · have hpos : 64 - n + i = 64 - (n + 1) + i + 1 := by omega
      rw [if_pos hlt, if_pos (by omega), hpos, lfsrClock_getLsbD_succ r (by omega)]
    · have hpos : 64 - (i + 1) + i = 63 := by omega
      rw [if_neg (by omega), if_pos (by omega), hpos, Nat.sub_self, BitVec.getLsbD_shiftConcat]
      rfl
    · have hpos : i - n = i - (n + 1) + 1 := by omega
      rw [if_neg (by omega), if_neg (by omega), hpos, BitVec.getLsbD_shiftConcat, decide_eq_true (by omega)]
      rfl

theorem lfsr64_fst (r : U64) : (lfsr64 r).1 = lfsrClock^[64] r := lfsrRun_fst 64 r 0

/-- The overflow trace of 64 clocks is the loaded value. -/
theorem lfsr64_snd (r : U64) : (lfsr64 r).2 = r := by
  apply BitVec.eq_of_getLsbD_eq
  intro i hi
  rw [lfsr64, lfsrRun_snd_getLsbD (Nat.le_refl 64) hi, if_pos hi, Nat.sub_self, Nat.zero_add]

/-- 64 clocks are linear over GF(2). -/
theorem lfsr64_fst_xor (a b : U64) : (lfsr64 (a ^^^ b)).1 = (lfsr64 a).1 ^^^ (lfsr64 b).1 := by
  simpa only [lfsr64_fst] using lfsrClock_xor.iterate 64 a b

theorem lfsr64_fst_injective {a b : U64} (h : (lfsr64 a).1 = (lfsr64 b).1) : a = b := by
  rw [lfsr64_fst, lfsr64_fst] at h
  exact lfsrClock_injective.iterate 64 h

/-! ### The MI (41_mi_lfsr.md R151, R153) -/

/-- The register of a cycled MI is the MI's register clocked 64 times. -/
theorem miRegister_cycleMi (mi : List Byte) : miRegister (cycleMi mi) = (lfsr64 (miRegister mi)).1 :=
  miRegister_tobe _ [0]

/-- Cycling loses nothing of the first eight bytes. -/
theorem take_eq_of_cycleMi_eq {mi mi' : List Byte} (h : 8 ≤ mi.length) (h' : 8 ≤ mi'.length)
    (hcycle : cycleMi mi = cycleMi mi') : mi.take 8 = mi'.take 8 := by
  have hreg : miRegister mi = miRegister mi' := by
    apply lfsr64_fst_injective
    rw [← miRegister_cycleMi, hcycle, miRegister_cycleMi]
  rw [← tobe_miRegister h, hreg, tobe_miRegister h']

theorem take_cycleMi (mi : List Byte) : (cycleMi mi).take 8 = tobe 8 (lfsr64 (miRegister mi)).1.toNat :=
  List.take_left' (tobe_length 8 _)

/-- Byte 8 of an MI does not reach the register. -/
theorem miRegister_append {mi : List Byte} (h : mi.length = 8) (rest : List Byte) :
    miRegister (mi ++ rest) = miRegister mi := by
  rw [miRegister, miRegister, List.take_left' h, List.take_of_length_le h.le]

/-- The IV is the operand, read out as the overflow trace, then the cycled MI. -/
theorem expandIv_eq {mi : List Byte} (h : mi.length = 8) : expandIv mi = mi ++ (cycleMi (mi ++ [0])).take 8 := by
  have htrace : tobe 8 (lfsr64 (miRegister mi)).2.toNat = mi := by
    rw [lfsr64_snd, tobe_miRegister h.ge, List.take_of_length_le h.le]
  rw [take_cycleMi, miRegister_append h, expandIv, htrace]

/-! ### The commands (41_mi_lfsr.md R154, R155) -/

theorem decode_cyclemi (ch a b : Byte) (rest voc : List Byte) :
    decode (0x03 :: ch :: a :: b :: rest) voc = .command (.cyclemi ch) rest 0 :=
  decode_of_payload (p := []) rfl rfl

theorem exec_cyclemi {ch : Byte} {s : State} {c : Channel} (hc : s.chans[ch.toNat]? = some c) :
    exec (.cyclemi ch) s =
      .next (s.answered ch c.cycleMi { status := .ok, events := evMiCycled, payload := cycleMi c.ctxMi }) :=
  congrArg Host.Outcome.next (State.onChannel_of_some _ hc)

theorem exec_expandiv (mi : List Byte) (s : State) :
    exec (.expandiv mi) s = .next (s.respond { status := .ok, events := 0, payload := expandIv mi }) := rfl

/-! ### The obligations -/

/-- Settles O34: the first half is the overflow trace, which is the operand (`expandIv_eq`). -/
theorem expandivAnswersIv : Obligations.ExpandivAnswersIv := by
  intro mi s hmi
  refine ⟨?_, cycleMi_length _⟩
  rw [exec_expandiv, expandIv_eq hmi]
  rfl

/-- Settles O36: the trace, linearity and injectivity of 64 clocks; on the MI through its register. -/
theorem lfsrTraceLinearInjective : Obligations.LfsrTraceLinearInjective := by
  refine ⟨lfsr64_snd, lfsr64_fst_xor, fun _ _ => lfsr64_fst_injective, fun mi mi' hmi hmi' hcycle => ?_⟩
  exact take_eq_of_cycleMi_eq (by omega) (by omega) hcycle

/-- Settles O33: `Channel.cycleMi` writes the MI alone. -/
theorem cyclemiReplacesMi : Obligations.CyclemiReplacesMi :=
  ⟨decode_cyclemi, fun _ _ _ hc => exec_cyclemi hc⟩

/-- Settles O35, bit by bit of the clock. -/
theorem lfsrStepShiftsAndTaps : Obligations.LfsrStepShiftsAndTaps :=
  fun r => ⟨rfl, lfsrClock_getLsbD_zero r, fun _ hi => lfsrClock_getLsbD_succ r hi⟩

end Sys2Proof.Proofs
end

section
/-! The crypto processor (42_crypto_processor.md): the offsets of a phase are 18 disjoint slots of its codeword length
(R172 to R174, R176); `CryptCheck` and `Crypt` (R175, R171); the command PROCESS (R177) and its symmetry (R178). -/

namespace Sys2Proof.Proofs

open Sys2Proof Sys2Proof.Machine

/-! ### The slots of a superframe (42_crypto_processor.md R172 to R174) -/

/-- The position of a codeword among the 18 of a superframe, in the order of the keystream. -/
def codewordSlot : FrameType → Nat → Nat
  | .ldu1, idx => idx
  | .ldu2, idx => 9 + idx
  | .v4 k, idx => 4 * k.val + idx
  | .v2, idx => 16 + idx

/-- The frame type whose codeword stands in a slot. -/
def frameOfSlot : Phase → Nat → FrameType
  | .phase1, n => if n < 9 then .ldu1 else .ldu2
  | .phase2, n => if h : n / 4 < 4 then .v4 ⟨n / 4, h⟩ else .v2

/-- The length of a codeword of a phase (30_encoding.md R82). -/
def codewordLen : Phase → Nat
  | .phase1 => 11
  | .phase2 => 7

/-- The keystream offset of slot 0. -/
def slotStart (alg : Byte) : Phase → Nat
  | .phase1 => if alg = algAdp then 267 else 27
  | .phase2 => p2Base alg

/-- How far a slot lies behind slot 0: in Phase 1 two bytes are left out before the last codeword of each LDU. -/
def slotDistance : Phase → Nat → Nat
  | .phase1, n => 11 * n + 2 * ((n + 1) / 9)
  | .phase2, n => 7 * n

theorem len_eq_codewordLen (ft : FrameType) : ft.len = codewordLen ft.phase := by cases ft <;> rfl

theorem codewordSlot_lt {ft : FrameType} {idx : Nat} (h : idx ≤ ft.maxIdx) : codewordSlot ft idx < 18 := by
  cases ft <;> simp only [FrameType.maxIdx, codewordSlot] at h ⊢ <;> omega

/-- A slot tells the frame type of its codeword. -/
theorem frameOfSlot_codewordSlot {ft : FrameType} {idx : Nat} (h : idx ≤ ft.maxIdx) :
    frameOfSlot ft.phase (codewordSlot ft idx) = ft := by
  cases ft with
  | ldu1 => exact if_pos (Nat.lt_succ_of_le h)
  | ldu2 => exact if_neg (show ¬ 9 + idx < 9 by omega)
  | v2 => exact dif_neg (show ¬ (16 + idx) / 4 < 4 by omega)
  | v4 k =>
    have hidx : idx ≤ 3 := h
    have hk : (4 * k.val + idx) / 4 = k.val := by omega
    exact (dif_pos (show (4 * k.val + idx) / 4 < 4 by omega)).trans (congrArg FrameType.v4 (Fin.ext hk))

/-- Within one phase two codewords of different position have different slots. -/
theorem codewordSlot_injective {ft ft' : FrameType} {idx idx' : Nat} (h : idx ≤ ft.maxIdx) (h' : idx' ≤ ft'.maxIdx)
    (hphase : ft.phase = ft'.phase) (hslot : codewordSlot ft idx = codewordSlot ft' idx') : ft = ft' ∧ idx = idx' := by
  have hft : ft = ft' := by
    rw [← frameOfSlot_codewordSlot h, hphase, hslot, frameOfSlot_codewordSlot h']
  subst hft
  refine ⟨rfl, ?_⟩
  cases ft <;> simp only [codewordSlot] at hslot <;> omega

/-- The Phase 1 constants of R173: the two LDUs lie 101 bytes apart under either algorithm. -/
theorem p1Base_add_p1Const (alg : Byte) (second : Bool) :
    p1Base alg second + p1Const alg = slotStart alg .phase1 + if second then 101 else 0 := by
  rw [p1Base, p1Const, slotStart]
  cases second <;> split_ifs <;> rfl

/-- The formulas of R172 and R174 name the start of the codeword's slot. -/
theorem offset_eq_slot (alg : Byte) {ft : FrameType} {idx : Nat} (h : idx ≤ ft.maxIdx) :
    offset alg ft idx = slotStart alg ft.phase + slotDistance ft.phase (codewordSlot ft idx) := by
  cases ft with
  | ldu1 =>
    have hidx : idx ≤ 8 := h
    have hbase : p1Base alg false + p1Const alg = slotStart alg .phase1 := p1Base_add_p1Const alg false
    simp only [offset, FrameType.phase, slotDistance, codewordSlot]
    split_ifs <;> omega
  | ldu2 =>
    have hidx : idx ≤ 8 := h
    have hbase : p1Base alg true + p1Const alg = slotStart alg .phase1 + 101 := p1Base_add_p1Const alg true
    simp only [offset, FrameType.phase, slotDistance, codewordSlot]
    split_ifs <;> omega
  | v2 => rfl
  | v4 k => rfl

/-! ### Bounds and disjointness of the slots (42_crypto_processor.md R176) -/

theorem slotStart_ge (alg : Byte) (p : Phase) : 16 ≤ slotStart alg p := by
  cases p <;> simp only [slotStart, p2Base] <;> split_ifs <;> decide

/-- Slots lie behind each other, a codeword's length apart or more. -/
theorem slotDistance_add_len_le (p : Phase) {m n : Nat} (h : m < n) :
    slotDistance p m + codewordLen p ≤ slotDistance p n := by
  cases p <;> simp only [slotDistance, codewordLen] <;> omega

/-- The 18 slots of a phase end inside the keystream of either algorithm. -/
theorem slotStart_add_end_le (p : Phase) :
    slotStart algAdp p + slotDistance p 18 ≤ ksLenAdp ∧ slotStart algAes p + slotDistance p 18 ≤ ksLenAes := by
  cases p <;> decide

/-- A valid keystream holds the 18 slots of either phase (10_state.md R25). -/
theorem slots_within_ksLen {c : Channel} (hinv : c.Inv) (hok : c.ctxStatus = .ok) (p : Phase) :
    slotStart c.ctxAlg p + slotDistance p 18 ≤ c.ksLen.toNat := by
  rcases hinv.status_len with ⟨-, halg, hlen⟩ | ⟨-, halg, hlen⟩ | ⟨hst, -⟩
  · rw [halg, hlen]
    exact (slotStart_add_end_le p).1
  · rw [halg, hlen]
    exact (slotStart_add_end_le p).2
  · simp [hok] at hst

theorem offset_ge (alg : Byte) {ft : FrameType} {idx : Nat} (h : idx ≤ ft.maxIdx) : 16 ≤ offset alg ft idx := by
  rw [offset_eq_slot alg h]
  exact Nat.le_add_right_of_le (slotStart_ge alg ft.phase)

/-- A codeword of a lower slot ends before one of a higher slot of the phase begins. -/
theorem offset_add_len_le_of_slot_lt (alg : Byte) {ft ft' : FrameType} {idx idx' : Nat} (h : idx ≤ ft.maxIdx)
    (h' : idx' ≤ ft'.maxIdx) (hphase : ft.phase = ft'.phase) (hslot : codewordSlot ft idx < codewordSlot ft' idx') :
    offset alg ft idx + ft.len ≤ offset alg ft' idx' := by
  rw [offset_eq_slot alg h, offset_eq_slot alg h', len_eq_codewordLen, hphase, Nat.add_assoc]
  exact Nat.add_le_add_left (slotDistance_add_len_le ft'.phase hslot) _

/-! ### `CryptCheck` (42_crypto_processor.md R175) -/

theorem cryptCheck_of_index {c : Channel} {ft : FrameType} {idx : Nat} (h : ft.maxIdx < idx) :
    c.cryptCheck ft idx = .badOperand := if_pos h

theorem cryptCheck_of_status {c : Channel} {ft : FrameType} {idx : Nat} (h : idx ≤ ft.maxIdx) (hst : c.ctxStatus ≠ .ok) :
    c.cryptCheck ft idx = c.ctxStatus := by
  rw [Channel.cryptCheck, if_neg (by omega), if_pos hst]

/-- With the index in range and a prepared context the phase decides. -/
theorem cryptCheck_of_prepared {c : Channel} {ft : FrameType} {idx : Nat} (h : idx ≤ ft.maxIdx)
    (hst : c.ctxStatus = .ok) : c.cryptCheck ft idx = if ft.phase ≠ c.ctxPhase then .badOperand else .ok := by
  rw [Channel.cryptCheck, if_neg (by omega), if_neg (not_not_intro hst)]

theorem cryptCheck_eq_ok_iff {c : Channel} {ft : FrameType} {idx : Nat} :
    c.cryptCheck ft idx = .ok ↔ idx ≤ ft.maxIdx ∧ c.ctxStatus = .ok ∧ ft.phase = c.ctxPhase := by
  rcases Nat.lt_or_ge ft.maxIdx idx with hidx | hidx
  · simp [cryptCheck_of_index hidx, Nat.not_le_of_lt hidx]
  by_cases hst : c.ctxStatus = .ok
  · simp [cryptCheck_of_prepared hidx hst, hidx, hst]
  · simp [cryptCheck_of_status hidx hst, hst]

/-! ### The codeword `Crypt` gives (42_crypto_processor.md R171, R178) -/

/-- What of a codeword `Crypt` keeps: in Phase 2 the seventh byte only its bit 7. -/
def keptBytes (p : Phase) (cw : List Byte) : List Byte :=
  match p with
  | .phase1 => cw
  | .phase2 => cw.set 6 (cw.getD 6 0 &&& 0x80)

/-- The same, as a mask for byte `i`. -/
def keptBits (p : Phase) (i : Nat) : Byte := if p = .phase2 ∧ i = 6 then 0x80 else 0xFF

theorem keptBits_phase1 (i : Nat) : keptBits .phase1 i = 0xFF := if_neg fun h => nomatch h.1

theorem keptBits_phase2_last : keptBits .phase2 6 = 0x80 := rfl

theorem keptBits_phase2_of_ne {i : Nat} (h : i ≠ 6) : keptBits .phase2 i = 0xFF := if_neg fun hi => h hi.2

theorem and_ff (b : Byte) : b &&& 0xFF = b := BitVec.and_allOnes

@[simp] theorem keptBytes_length (p : Phase) (cw : List Byte) : (keptBytes p cw).length = cw.length := by
  cases p with
  | phase1 => rfl
  | phase2 => exact List.length_set

theorem keptBytes_getElem? (p : Phase) {cw : List Byte} {i : Nat} {b : Byte} (h : cw[i]? = some b) :
    (keptBytes p cw)[i]? = some (b &&& keptBits p i) := by
  cases p with
  | phase1 => rw [keptBits_phase1, and_ff]; exact h
  | phase2 =>
    rw [keptBytes]
    rcases eq_or_ne i 6 with rfl | hne
    · have hlt : 6 < cw.length := (List.getElem?_eq_some_iff.1 h).1
      rw [List.getElem?_set_self hlt, List.getD_eq_getElem?_getD, h, Option.getD_some, keptBits_phase2_last]
    · rw [List.getElem?_set_ne hne.symm, h, keptBits_phase2_of_ne hne, and_ff]

theorem cryptBytes_eq (c : Channel) (ft : FrameType) (idx : Nat) (cw : List Byte) :
    c.cryptBytes ft idx cw =
      keptBytes ft.phase (xorBytes cw (c.ks.readBytes (offset c.ctxAlg ft idx) ft.len)) := by
  cases h : ft.phase <;> simp only [Channel.cryptBytes, keptBytes, h]

theorem length_cryptBytes (c : Channel) {ft : FrameType} (idx : Nat) {cw : List Byte} (hlen : cw.length = ft.len) :
    (c.cryptBytes ft idx cw).length = cw.length := by
  rw [Channel.cryptBytes_length, hlen, Nat.min_self]

/-- Each byte of the codeword, in either phase. -/
theorem cryptBytes_getElem? (c : Channel) {ft : FrameType} (idx : Nat) {cw : List Byte} {i : Nat} {b : Byte}
    (hlen : cw.length = ft.len) (h : cw[i]? = some b) :
    (c.cryptBytes ft idx cw)[i]? =
      some ((b ^^^ c.ks.read (offset c.ctxAlg ft idx + i)) &&& keptBits ft.phase i) := by
  have hi : i < ft.len := hlen ▸ (List.getElem?_eq_some_iff.1 h).1
  rw [cryptBytes_eq]
  refine keptBytes_getElem? _ ?_
  rw [xorBytes, List.getElem?_zipWith, h, readBytes_getElem?_of_lt _ _ hi]

/-- XOR and mask with the same bytes twice is the mask alone. -/
theorem xor_and_xor_and (b k m : Byte) : (((b ^^^ k) &&& m) ^^^ k) &&& m = b &&& m := by
  apply BitVec.eq_of_getLsbD_eq
  intro i hi
  simp only [BitVec.getLsbD_and, BitVec.getLsbD_xor]
  cases m.getLsbD i <;> simp

/-- `Crypt` on two channels with one algorithm and one keystream gives back what it keeps of the codeword. -/
theorem cryptBytes_cryptBytes {c c' : Channel} {ft : FrameType} (idx : Nat) {cw : List Byte} (hlen : cw.length = ft.len)
    (halg : c.ctxAlg = c'.ctxAlg) (hks : ∀ a, c.ks.read a = c'.ks.read a) :
    c'.cryptBytes ft idx (c.cryptBytes ft idx cw) = keptBytes ft.phase cw := by
  have hlen' := length_cryptBytes c idx hlen
  have hlen'' := length_cryptBytes c' idx (hlen'.trans hlen)
  apply List.ext_getElem?
  intro i
  rcases Nat.lt_or_ge i cw.length with hi | hi
  · have hb : cw[i]? = some cw[i] := List.getElem?_eq_getElem hi
    rw [cryptBytes_getElem? c' idx (hlen'.trans hlen) (cryptBytes_getElem? c idx hlen hb), halg, hks,
      xor_and_xor_and, keptBytes_getElem? _ hb]
  · rw [List.getElem?_eq_none (by omega), List.getElem?_eq_none (by rwa [keptBytes_length])]

/-! ### The command PROCESS (42_crypto_processor.md R177) -/

/-- PROCESS is `Crypt` on the channel it names. -/
theorem exec_process {ch ft : Byte} {s : State} {c : Channel} {t : FrameType} (idx : Byte) (cw : List Byte)
    (hc : s.chans[ch.toNat]? = some c) (hft : frameType ft = some t) :
    exec (.process ch ft idx cw) s = .next (s.answered ch (c.crypt t idx.toNat cw).2.1
      { status := (c.crypt t idx.toNat cw).1, events := 0, payload := (c.crypt t idx.toNat cw).2.2 }) := by
  refine congrArg Host.Outcome.next ((State.onChannel_of_some _ hc).trans ?_)
  rw [hft]

theorem exec_process_of_ok {ch ft idx : Byte} {s : State} {c : Channel} {t : FrameType} (cw : List Byte)
    (hc : s.chans[ch.toNat]? = some c) (hft : frameType ft = some t) (hok : c.cryptCheck t idx.toNat = .ok) :
    exec (.process ch ft idx cw) s = .next (s.answered ch { c with cursor := c.cursor + 1 }
      { status := .ok, events := 0, payload := c.cryptBytes t idx.toNat cw }) := by
  rw [exec_process idx cw hc hft, Channel.crypt_of_ok cw hok]

/-- The check fails: the codeword comes back with the reason, and the channel is as it was. -/
theorem exec_process_of_not_ok {ch ft idx : Byte} {s : State} {c : Channel} {t : FrameType} (cw : List Byte)
    (hc : s.chans[ch.toNat]? = some c) (hft : frameType ft = some t) (hne : c.cryptCheck t idx.toNat ≠ .ok) :
    exec (.process ch ft idx cw) s =
      .next { s with resp := some { status := c.cryptCheck t idx.toNat, events := 0, payload := cw } } := by
  rw [exec_process idx cw hc hft, Channel.crypt_of_not_ok cw hne, State.answered_same _ hc]

/-! ### The obligations -/

/-- Settles O38: a codeword's bytes are a slot of its phase, the 18 slots stand in the valid keystream, and two
positions of one phase have different slots. -/
theorem keystreamReadsInBounds : Obligations.KeystreamReadsInBounds := by
  constructor
  · intro c ft idx hinv hcheck
    obtain ⟨hidx, hok, -⟩ := cryptCheck_eq_ok_iff.1 hcheck
    refine ⟨offset_ge c.ctxAlg hidx, ?_⟩
    have hend := slotDistance_add_len_le ft.phase (codewordSlot_lt hidx)
    have hlen := slots_within_ksLen hinv hok ft.phase
    rw [offset_eq_slot c.ctxAlg hidx, len_eq_codewordLen]
    omega
  · intro alg ft ft' idx idx' _ hidx hidx' hphase hne
    rcases Nat.lt_trichotomy (codewordSlot ft idx) (codewordSlot ft' idx') with hlt | heq | hgt
    · exact .inl (offset_add_len_le_of_slot_lt alg hidx hidx' hphase hlt)
    · obtain ⟨hft, hi⟩ := codewordSlot_injective hidx hidx' hphase heq
      exact absurd hne (not_or_intro (not_not_intro hft) (not_not_intro hi))
    · exact .inr (offset_add_len_le_of_slot_lt alg hidx' hidx hphase.symm hgt)

/-- Settles O39: the check passes, and `Crypt` gives the codeword byte by byte. -/
theorem processXorsKeystream : Obligations.ProcessXorsKeystream := by
  intro ch ft idx cw s c t hc hft hidx hlen hst hphase
  have hok : c.cryptCheck t idx.toNat = .ok := cryptCheck_eq_ok_iff.2 ⟨hidx, hst, hphase⟩
  refine ⟨c.cryptBytes t idx.toNat cw, exec_process_of_ok cw hc hft hok, length_cryptBytes c _ hlen, fun i hi => ?_⟩
  exact cryptBytes_getElem? c _ hlen (List.getElem?_eq_getElem hi)

/-- Settles O41: both commands pass the check, and the second restores what `Crypt` keeps of the codeword. -/
theorem processTwiceRestores : Obligations.ProcessTwiceRestores := by
  intro ch ch' ft idx cw s s' c c' t hc hc' hft hlen hok hok' halg hks
  refine ⟨_, _, _, _, exec_process_of_ok cw hc hft hok, State.answered_resp .., exec_process_of_ok _ hc' hft hok',
    State.answered_resp .., fun hp => ?_, fun hp => ?_⟩
  · rw [cryptBytes_cryptBytes _ hlen halg hks, hp, keptBytes]
  · rw [cryptBytes_cryptBytes _ hlen halg hks, hp, keptBytes]

/-- Settles O37: R173's table for each of the nine positions of an LDU, R174's formula for the bursts. -/
theorem keystreamOffsets : Obligations.KeystreamOffsets :=
  ⟨rfl, rfl, rfl, rfl, fun _ _ _ => ⟨rfl, rfl⟩, rfl, rfl⟩

/-- Settles O40: in each of the three cases the check gives the reason named, which is not OK. -/
theorem processPassesThrough : Obligations.ProcessPassesThrough := by
  intro ch ft idx cw s c t st hc hft hcase
  have hcheck : c.cryptCheck t idx.toNat = st ∧ st ≠ .ok := by
    rcases hcase with ⟨hidx, rfl⟩ | ⟨hidx, hst, rfl⟩ | ⟨hidx, hst, hphase, rfl⟩
    · exact ⟨cryptCheck_of_index hidx, by decide⟩
    · exact ⟨cryptCheck_of_status hidx hst, hst⟩
    · exact ⟨(cryptCheck_of_prepared hidx hst).trans (if_pos hphase), by decide⟩
  obtain ⟨rfl, hne⟩ := hcheck
  exact exec_process_of_not_ok cw hc hft hne

end Sys2Proof.Proofs
end

section
/-! The frame packer (43_frame_packer.md): the codeword fields of an LDU buffer (R190, R191), PACK (R192 to R196),
UNPACK (R197 to R201) and the round trip between them (R202). Both commands XOR a Phase 1 codeword with the keystream
or leave it as it is, which is `cryptIf` here. -/

namespace Sys2Proof.Proofs

open Sys2Proof Sys2Proof.Machine

/-! ### The codeword fields (43_frame_packer.md R190, R191) -/

theorem lduOff_add_len_le : ∀ k < 9, ∀ j < k, lduOff j + 11 ≤ lduOff k := by decide

theorem lduOff_in_record : ∀ k < 9, lduOff k + 10 ≤ 214 ∧ 25 * k ≤ lduOff k ∧ lduOff k + 10 ≤ 25 * k + 24 := by decide

theorem codewordFields_disjoint {j k : Nat} (hj : j < 9) (hk : k < 9) (hne : j ≠ k) :
    lduOff j + 11 ≤ lduOff k ∨ lduOff k + 11 ≤ lduOff j := by
  rcases Nat.lt_or_gt_of_ne hne with hlt | hgt
  · exact .inl (lduOff_add_len_le k hk j hlt)
  · exact .inr (lduOff_add_len_le j hj k hgt)

/-- Settles O24, on the nine offsets. -/
theorem codewordFieldsLayout : Obligations.CodewordFieldsLayout :=
  ⟨rfl, lduOff_in_record, fun j k hjk hk => lduOff_add_len_le k hk j hjk⟩

/-- Settles O45: the verdict on the record markers comes before the context is read. -/
theorem malformedFrameDiscarded : Obligations.MalformedFrameDiscarded := by
  intro ch ft f buf voc s hch hft
  refine congrArg Host.Outcome.next (onChannel_fail hch fun c => ?_)
  rw [if_neg (Nat.not_le_of_lt hft), if_pos rfl]

/-! ### Ranges of a byte space (20_memory.md R61) -/

/-- A range that a write does not meet reads as before. -/
theorem readBytes_writeBytes_disjoint {m : Memory} (hm : m.wf) {a b n : Nat} {v : List Byte}
    (h : b + n ≤ a ∨ a + v.length ≤ b) : (m.writeBytes a v).readBytes b n = m.readBytes b n := by
  refine List.map_congr_left fun i hi => read_writeBytes_outside hm ?_
  have hlt : i < n := List.mem_range.1 hi
  omega

/-- A slice of a range is the range at the slice's address. -/
theorem slice_readBytes (m : Memory) {i n len : Nat} (h : i + n ≤ len) :
    slice (m.readBytes 0 len) i n = m.readBytes i n := by
  apply List.ext_getElem?
  intro k
  rw [slice_getElem?, Memory.readBytes_getElem?]
  split_ifs with hk
  · rw [List.getD_eq_getElem?_getD, readBytes_getElem?_of_lt m 0 (by omega), Nat.zero_add, Option.getD_some]
  · rfl

/-- A byte space with all its cells in the codeword fields is zero elsewhere (10_state.md R29). -/
theorem read_eq_zero_of_not_field {m : Memory} (hm : ∀ x ∈ m, InCodewordField x.1) {a : Nat}
    (ha : ¬ InCodewordField a) : m.read a = 0 := by
  induction m with
  | nil => rfl
  | cons x m ih =>
    have hne : a ≠ x.1 := fun h => ha (h ▸ hm x (List.mem_cons_self ..))
    rw [Memory.read, if_neg hne]
    exact ih fun y hy => hm y (List.mem_cons_of_mem _ hy)

/-! ### A Phase 1 codeword, XORed or not (43_frame_packer.md R192, R199) -/

/-- The channel's codewords are encrypted on transmit: it is configured so, and the context can. -/
def encrypts (c : Channel) : Bool := c.txEnc && decide (c.packStatus = .ok)

/-- The channel's codewords are decrypted on receive: the session is encrypted, and the context can. -/
def decrypts (c : Channel) : Bool := c.sEnc && decide (c.rxStatus = .ok)

theorem encrypts_iff (c : Channel) : encrypts c = true ↔ c.txEnc = true ∧ c.packStatus = .ok := by
  rw [encrypts, Bool.and_eq_true, decide_eq_true_eq]

theorem decrypts_iff (c : Channel) : decrypts c = true ↔ c.sEnc = true ∧ c.rxStatus = .ok := by
  rw [decrypts, Bool.and_eq_true, decide_eq_true_eq]

/-- A codeword after `Crypt`, or as it is. -/
def cryptIf (xor : Bool) (c : Channel) (ft : FrameType) (idx : Nat) (cw : List Byte) : List Byte :=
  if xor then c.cryptBytes ft idx cw else cw

/-- The frame type of the first or the second LDU of a superframe. -/
def lduFrame (second : Bool) : FrameType := if second then .ldu2 else .ldu1

@[simp] theorem lduFrame_phase (second : Bool) : (lduFrame second).phase = .phase1 := by cases second <;> rfl

@[simp] theorem lduFrame_len (second : Bool) : (lduFrame second).len = 11 := by cases second <;> rfl

theorem cryptIf_length (xor : Bool) (c : Channel) (second : Bool) (idx : Nat) {cw : List Byte} (h : cw.length = 11) :
    (cryptIf xor c (lduFrame second) idx cw).length = 11 := by
  cases xor with
  | false => exact h
  | true => exact (length_cryptBytes c idx (h.trans (lduFrame_len second).symm)).trans h

theorem cryptIf_getD (xor : Bool) (c : Channel) (second : Bool) (idx : Nat) {cw : List Byte} (h : cw.length = 11)
    {i : Nat} (hi : i < 11) :
    (cryptIf xor c (lduFrame second) idx cw).getD i 0 =
      cw.getD i 0 ^^^ (if xor = true then c.ks.read (offset c.ctxAlg (lduFrame second) idx + i) else 0) := by
  cases xor with
  | false => exact (BitVec.xor_zero (x := cw.getD i 0)).symm
  | true =>
    have hbyte := Channel.cryptBytes_phase1 (c := c) (idx := idx) (lduFrame_phase second)
      (h.trans (lduFrame_len second).symm) i (by rwa [lduFrame_len])
    rw [List.getD_eq_getElem?_getD, cryptIf, if_pos rfl, hbyte, Option.getD_some, if_pos rfl]

/-- What one side XORs the other restores, under one algorithm and one keystream (42_crypto_processor.md R178). -/
theorem cryptIf_cryptIf {xor : Bool} {c c' : Channel} (second : Bool) (idx : Nat) {cw : List Byte} (h : cw.length = 11)
    (hsame : xor = true → c.ctxAlg = c'.ctxAlg ∧ ∀ a, c.ks.read a = c'.ks.read a) :
    cryptIf xor c' (lduFrame second) idx (cryptIf xor c (lduFrame second) idx cw) = cw := by
  cases xor with
  | false => rfl
  | true =>
    obtain ⟨halg, hks⟩ := hsame rfl
    have hback := cryptBytes_cryptBytes (ft := lduFrame second) idx (h.trans (lduFrame_len second).symm) halg hks
    rwa [lduFrame_phase] at hback

/-! ### The buffer that `P25N` selects (43_frame_packer.md R190, R192, R193) -/

/-- The first or the second LDU buffer of a channel. -/
def lduBuffer (second : Bool) (c : Channel) : Memory := if second then c.ldu2 else c.ldu1

theorem lduBuffer_wf {c : Channel} (h : c.Inv) (second : Bool) : (lduBuffer second c).wf := by
  cases second
  · exact h.ldu1_wf
  · exact h.ldu2_wf

theorem lduBuffer_fields {c : Channel} (h : c.Inv) (second : Bool) :
    ∀ x ∈ lduBuffer second c, InCodewordField x.1 := by
  cases second
  · exact h.ldu1_fields
  · exact h.ldu2_fields

/-- The buffer a codeword is placed in: the one selected, cleared first if the codeword is its first. -/
def clearedBuffer (c : Channel) : Memory :=
  if c.p25n.toNat % 9 = 0 then Memory.clear else lduBuffer c.inLdu2 c

theorem clearedBuffer_wf {c : Channel} (h : c.Inv) : (clearedBuffer c).wf := by
  unfold clearedBuffer
  split_ifs
  · exact Memory.wf_clear
  · exact lduBuffer_wf h _

theorem clearedBuffer_read (c : Channel) (a : Nat) :
    (clearedBuffer c).read a = if c.p25n.toNat % 9 = 0 then 0 else (lduBuffer c.inLdu2 c).read a := by
  unfold clearedBuffer
  split_ifs <;> rfl

/-- `P25N` names a buffer and a position in it (43_frame_packer.md R190). -/
theorem p25n_eq {c : Channel} (h : c.Inv) : c.p25n.toNat = (if c.inLdu2 then 9 else 0) + c.p25n.toNat % 9 := by
  have hrange := h.p25n_range
  by_cases h9 : 9 ≤ c.p25n.toNat
  · rw [Channel.inLdu2, decide_eq_true h9, if_pos rfl]; omega
  · rw [Channel.inLdu2, decide_eq_false h9, if_neg (by decide)]; omega

theorem place_selected {c : Channel} (h : c.Inv) (cw : List Byte) :
    lduBuffer c.inLdu2 (c.place cw) = (clearedBuffer c).writeBytes (lduOff (c.p25n.toNat % 9)) cw := by
  have hn := p25n_eq h
  unfold clearedBuffer
  cases hin : c.inLdu2 with
  | false =>
    rw [hin, if_neg (by decide), Nat.zero_add] at hn
    rw [lduBuffer, if_neg (by decide), Channel.place_ldu1_of_first c cw hin, ← hn]
    rfl
  | true =>
    rw [hin, if_pos rfl] at hn
    have hclear : c.p25n.toNat = 9 ↔ c.p25n.toNat % 9 = 0 := by omega
    rw [lduBuffer, if_pos rfl, Channel.place_ldu2_of_second c cw hin]
    simp only [hclear]
    rfl

theorem place_other (c : Channel) (cw : List Byte) :
    lduBuffer (!c.inLdu2) (c.place cw) = lduBuffer (!c.inLdu2) c := by
  cases hin : c.inLdu2
  · exact Channel.place_ldu2_of_first c cw hin
  · exact Channel.place_ldu1_of_second c cw hin

/-- Placing a codeword writes the two buffers at most. -/
theorem place_frame (c : Channel) (cw : List Byte) :
    c.place cw = { c with ldu1 := (c.place cw).ldu1, ldu2 := (c.place cw).ldu2 } := by
  unfold Channel.place
  split <;> rfl

/-! ### PACK (43_frame_packer.md R192, R195, R196) -/

/-- The channel after PACK has placed a codeword, before the end of `PackOne`. -/
def packed (cw : List Byte) (c : Channel) : Channel :=
  { c with cursor := if encrypts c then c.cursor + 1 else c.cursor }.place
    (cryptIf (encrypts c) c (lduFrame c.inLdu2) (c.p25n.toNat % 9) cw)

/-- `PackOne` where it does not fail closed. -/
theorem packOne_eq {c : Channel} {f : Bool} (keys : KeyStore) (cw : List Byte) (hf : f = true → c.packStatus = .ok) :
    c.packOne keys cw f = .ok ((packed cw c).finishPack keys c.packStatus) := by
  rcases c.packOne_cases keys cw f with ⟨-, hne, htrue, -⟩ | ⟨-, htx, hok, heq⟩ | ⟨-, hclear, heq⟩
  · exact absurd (hf htrue) hne
  · have henc : encrypts c = true := (encrypts_iff c).2 ⟨htx, hok⟩
    rw [heq, hok, packed, henc]
    rfl
  · have henc : encrypts c = false := by
      rw [Bool.eq_false_iff, ne_eq, encrypts_iff, not_and_or, Bool.not_eq_true]
      exact hclear
    rw [heq, packed, henc]
    rfl

theorem exec_pack {ch : Byte} {f : Bool} {s : State} {c : Channel} (cw : List Byte) (hc : s.chans[ch.toNat]? = some c)
    (hf : f = true → c.packStatus = .ok) :
    exec (.pack ch f cw) s = .next (s.answered ch ((packed cw c).finishPack s.keys c.packStatus).1
      ((packed cw c).finishPack s.keys c.packStatus).2) := by
  refine congrArg Host.Outcome.next ((State.onChannel_of_some _ hc).trans ?_)
  rw [packOne_eq s.keys cw hf]

theorem packed_inv {c : Channel} (h : c.Inv) {cw : List Byte} (hl : cw.length = 11) : (packed cw c).Inv :=
  Channel.place_inv (cryptIf_length _ c _ _ hl) { h with }

@[simp] theorem packed_p25n (c : Channel) (cw : List Byte) : (packed cw c).p25n = c.p25n := Channel.place_p25n ..

@[simp] theorem packed_seqNo (c : Channel) (cw : List Byte) : (packed cw c).seqNo = c.seqNo := Channel.place_seqNo ..

theorem packed_frame (c : Channel) (cw : List Byte) :
    packed cw c = { c with ldu1 := (packed cw c).ldu1, ldu2 := (packed cw c).ldu2
                           cursor := if encrypts c then c.cursor + 1 else c.cursor } :=
  place_frame _ _

theorem packed_selected {c : Channel} (h : c.Inv) (cw : List Byte) :
    lduBuffer c.inLdu2 (packed cw c) = (clearedBuffer c).writeBytes (lduOff (c.p25n.toNat % 9))
      (cryptIf (encrypts c) c (lduFrame c.inLdu2) (c.p25n.toNat % 9) cw) :=
  place_selected (c := { c with cursor := if encrypts c then c.cursor + 1 else c.cursor }) { h with } _

/-- Every byte of the buffer selected, after a codeword is placed (43_frame_packer.md R192, R193). -/
theorem packed_selected_read {c : Channel} (h : c.Inv) {cw : List Byte} (hl : cw.length = 11) (a : Nat) :
    (lduBuffer c.inLdu2 (packed cw c)).read a =
      if lduOff (c.p25n.toNat % 9) ≤ a ∧ a < lduOff (c.p25n.toNat % 9) + 11 then
        cw.getD (a - lduOff (c.p25n.toNat % 9)) 0 ^^^
          (if encrypts c = true then
            c.ks.read (offset c.ctxAlg (lduFrame c.inLdu2) (c.p25n.toNat % 9) + (a - lduOff (c.p25n.toNat % 9))) else 0)
      else if c.p25n.toNat % 9 = 0 then 0 else (lduBuffer c.inLdu2 c).read a := by
  rw [packed_selected h, Memory.read_writeBytes _ _ _ (clearedBuffer_wf h), cryptIf_length _ _ _ _ hl]
  exact ite_congr rfl (fun _ => cryptIf_getD _ c _ _ hl (by omega)) fun _ => clearedBuffer_read c a

theorem packed_other (c : Channel) (cw : List Byte) :
    lduBuffer (!c.inLdu2) (packed cw c) = lduBuffer (!c.inLdu2) c :=
  place_other { c with cursor := if encrypts c then c.cursor + 1 else c.cursor } _

/-- Away from the end of the superframe the end of `PackOne` writes `P25N` alone. -/
theorem finishPack_frame {c : Channel} (keys : KeyStore) (st : Status) (h : c.p25n.toNat ≠ 17) :
    (c.finishPack keys st).1 = { c with p25n := (c.finishPack keys st).1.p25n } := by
  by_cases h8 : c.p25n.toNat = 8
  · rw [Channel.finishPack_ldu1_end keys st h8]
  · rw [Channel.finishPack_inside keys st h8 h]

theorem inLdu2_of_lt {c : Channel} (h : c.p25n.toNat < 9) : c.inLdu2 = false := decide_eq_false (by omega)

theorem inLdu2_of_ge {c : Channel} (h : 9 ≤ c.p25n.toNat) : c.inLdu2 = true := decide_eq_true h

/-- The first buffer after PACK. -/
theorem packed_ldu1_read {c : Channel} (h : c.Inv) {cw : List Byte} (hl : cw.length = 11) (a : Nat) :
    (packed cw c).ldu1.read a =
      if c.p25n.toNat < 9 then
        if lduOff c.p25n.toNat ≤ a ∧ a < lduOff c.p25n.toNat + 11 then
          cw.getD (a - lduOff c.p25n.toNat) 0 ^^^
            (if c.txEnc = true ∧ c.packStatus = .ok then
              c.ks.read (offset c.ctxAlg .ldu1 c.p25n.toNat + (a - lduOff c.p25n.toNat)) else 0)
        else if c.p25n.toNat = 0 then 0 else c.ldu1.read a
      else c.ldu1.read a := by
  by_cases h9 : c.p25n.toNat < 9
  · have hread := packed_selected_read h hl a
    rw [inLdu2_of_lt h9, Nat.mod_eq_of_lt h9] at hread
    simp only [encrypts_iff] at hread
    rw [if_pos h9]
    exact hread
  · have hother := packed_other c cw
    rw [inLdu2_of_ge (Nat.le_of_not_lt h9)] at hother
    rw [if_neg h9]
    exact congrArg (Memory.read · a) hother

/-- The second buffer after PACK. -/
theorem packed_ldu2_read {c : Channel} (h : c.Inv) {cw : List Byte} (hl : cw.length = 11) (a : Nat) :
    (packed cw c).ldu2.read a =
      if 9 ≤ c.p25n.toNat then
        if lduOff (c.p25n.toNat - 9) ≤ a ∧ a < lduOff (c.p25n.toNat - 9) + 11 then
          cw.getD (a - lduOff (c.p25n.toNat - 9)) 0 ^^^
            (if c.txEnc = true ∧ c.packStatus = .ok then
              c.ks.read (offset c.ctxAlg .ldu2 (c.p25n.toNat - 9) + (a - lduOff (c.p25n.toNat - 9))) else 0)
        else if c.p25n.toNat = 9 then 0 else c.ldu2.read a
      else c.ldu2.read a := by
  by_cases h9 : 9 ≤ c.p25n.toNat
  · have hrange := h.p25n_range
    have hpos : c.p25n.toNat % 9 = c.p25n.toNat - 9 := by omega
    have hfirst : c.p25n.toNat - 9 = 0 ↔ c.p25n.toNat = 9 := by omega
    have hread := packed_selected_read h hl a
    rw [inLdu2_of_ge h9, hpos] at hread
    simp only [encrypts_iff, hfirst] at hread
    rw [if_pos h9]
    exact hread
  · have hother := packed_other c cw
    rw [inLdu2_of_lt (Nat.lt_of_not_le h9)] at hother
    rw [if_neg h9]
    exact congrArg (Memory.read · a) hother

/-- PACK within the superframe writes the buffers, `P25N` and `CURSOR`. -/
theorem finishPack_packed_frame {c : Channel} (keys : KeyStore) (st : Status) (cw : List Byte)
    (h : c.p25n.toNat ≠ 17) :
    ((packed cw c).finishPack keys st).1 =
      { c with
        p25n := ((packed cw c).finishPack keys st).1.p25n
        ldu1 := ((packed cw c).finishPack keys st).1.ldu1
        ldu2 := ((packed cw c).finishPack keys st).1.ldu2
        cursor := if c.txEnc = true ∧ c.packStatus = .ok then c.cursor + 1 else c.cursor } := by
  rw [Channel.finishPack_ldu1, Channel.finishPack_ldu2]
  simp only [← encrypts_iff]
  exact (finishPack_frame keys st (by rwa [packed_p25n])).trans
    (congrArg (fun d : Channel => { d with p25n := ((packed cw c).finishPack keys st).1.p25n }) (packed_frame c cw))

/-- `EndSuperframe` does not read the second buffer, and overwrites `CURSOR` or keeps it. -/
theorem endSuperframe_with {c : Channel} (keys : KeyStore) {gate : Bool} (m : Memory) {cursor : U32}
    (h : gate = false → cursor = c.cursor) :
    { c with ldu2 := m, cursor := cursor }.endSuperframe keys gate = { c.endSuperframe keys gate with ldu2 := m } := by
  cases gate with
  | false => rw [h rfl]; rfl
  | true => rfl

/-- The last PACK of a superframe writes the second buffer, and the context as `EndSuperframe` does. -/
theorem finishPack_packed_end {c : Channel} (keys : KeyStore) (st : Status) (cw : List Byte) (h : c.p25n.toNat = 17) :
    ((packed cw c).finishPack keys st).1 =
      { c.endSuperframe keys c.txEnc with p25n := 0, ldu2 := ((packed cw c).finishPack keys st).1.ldu2 } := by
  have hldu1 : (packed cw c).ldu1 = c.ldu1 := by
    have hother := packed_other c cw
    rwa [inLdu2_of_ge (by omega)] at hother
  have hcursor : c.txEnc = false → (if encrypts c then c.cursor + 1 else c.cursor) = c.cursor := fun htx => by
    rw [encrypts, htx, Bool.false_and, if_neg (by decide)]
  have hend := endSuperframe_with keys (packed cw c).ldu2 hcursor
  have hpacked := packed_frame c cw
  rw [hldu1] at hpacked
  rw [Channel.finishPack_ldu2, Channel.finishPack_ldu2_end keys st ((congrArg BitVec.toNat (packed_p25n c cw)).trans h)]
  exact congrArg (fun d : Channel => { d with p25n := 0 })
    ((congrArg (fun d : Channel => d.endSuperframe keys d.txEnc) hpacked).trans hend)

/-- Settles O43: `PackOne` is `packed` and then `finishPack`, which hands over, cycles and advances. -/
theorem packPlacesCodeword : Obligations.PackPlacesCodeword := by
  intro ch f cw s c hc hinv hl hf
  have hp : (packed cw c).p25n = c.p25n := packed_p25n c cw
  refine ⟨_, _, exec_pack cw hc hf, Channel.finishPack_status .., ?position, ?first, ?second, ?handFirst, ?handSecond,
    ?inside, finishPack_packed_frame s.keys _ cw, ?cycle⟩
  case position => rw [Channel.finishPack_p25n, hp]
  case first =>
    intro a
    rw [Channel.finishPack_ldu1, packed_ldu1_read hinv hl]
  case second =>
    intro a
    rw [Channel.finishPack_ldu2, packed_ldu2_read hinv hl]
  case handFirst =>
    intro h8
    rw [Channel.finishPack_ldu1_end s.keys _ (hp ▸ h8), packed_seqNo]
    exact ⟨rfl, rfl⟩
  case handSecond =>
    intro h17
    rw [Channel.finishPack_ldu2, Channel.finishPack_ldu2_end s.keys _ (hp ▸ h17), packed_seqNo]
    exact ⟨rfl, rfl⟩
  case inside =>
    intro h8 h17
    rw [Channel.finishPack_inside s.keys _ (hp ▸ h8) (hp ▸ h17)]
    exact ⟨rfl, rfl⟩
  case cycle => exact fun h17 => finishPack_packed_end s.keys _ cw h17

/-! ### UNPACK (43_frame_packer.md R197 to R201) -/

/-- The context answers the same for every codeword of an LDU (43_frame_packer.md R197). -/
theorem unpackStatus_eq (c : Channel) (second : Bool) : c.unpackStatus (lduFrame second) = c.rxStatus := by
  rw [Channel.unpackStatus, c.cryptCheck_phase1 (lduFrame_phase second) (Nat.zero_le 8), Channel.rxStatus]
  cases c.sEnc <;> rfl

/-- UNPACK past its checks. -/
theorem exec_unpack {ch : Byte} {f : Bool} {s : State} {c : Channel} (second : Bool) (buf : List Byte)
    (voc : List VocAnswer) (hc : s.chans[ch.toNat]? = some c) (hf : f = true → c.rxStatus = .ok) :
    exec (.unpack ch (if second then 1 else 0) true f buf voc) s =
      .next (s.answered ch (c.unpackAll s.keys (lduFrame second) c.rxStatus buf voc).1
        (c.unpackAll s.keys (lduFrame second) c.rxStatus buf voc).2) := by
  have hfail : ¬ (c.rxStatus ≠ .ok ∧ f = true) := fun h => h.1 (hf h.2)
  have hft : ¬ 2 ≤ (if second then 1 else 0 : Byte).toNat := by cases second <;> decide
  have hhalf : (if (if second then 1 else 0 : Byte) = 0 then FrameType.ldu1 else .ldu2) = lduFrame second := by
    cases second <;> rfl
  refine congrArg Host.Outcome.next ((State.onChannel_of_some _ hc).trans ?_)
  simp only [if_neg hft, hhalf, unpackStatus_eq, if_neg hfail, Bool.true_eq_false, if_false]

/-- The channel as UNPACK begins: the first LDU of a superframe clears `FRAME_ERR` (43_frame_packer.md R197). -/
def unpackStart (second : Bool) (c : Channel) : Channel := { c with frameErr := second && c.frameErr }

/-- What the nine codewords of an UNPACK leave behind. -/
def unpackNine (second : Bool) (buf : List Byte) (voc : List VocAnswer) (c : Channel) : UnpackState :=
  (List.range 9).foldl (unpackOne (lduFrame second) buf voc) { chan := unpackStart second c, mask := 0, cws := [] }

/-- What they are, byte by byte and bit by bit (43_frame_packer.md R197, R199). -/
theorem unpackNine_unpacked (second : Bool) (buf : List Byte) {voc : List VocAnswer} (c : Channel)
    (h9 : voc.length = 9) :
    Unpacked (lduFrame second) buf voc (unpackStart second c) (decrypts c) (unpackNine second buf voc c) 9 :=
  unpack_fold (lduFrame_phase second) h9 9 le_rfl

theorem unpackAll_eq (keys : KeyStore) (second : Bool) (cs : Status) (buf : List Byte) (voc : List VocAnswer)
    (c : Channel) :
    c.unpackAll keys (lduFrame second) cs buf voc =
      (((unpackNine second buf voc c).chan.finishUnpack keys (lduFrame second)).1,
        { status := if cs ≠ .ok then cs
            else if (unpackNine second buf voc c).mask ≠ 0 then .vocoderDecodeError else .ok
          events := if ((unpackNine second buf voc c).chan.finishUnpack keys (lduFrame second)).2 then
            evPcmOut ||| evMiCycled else evPcmOut
          payload := [cs.code] ++ tobe 2 (unpackNine second buf voc c).mask.toNat ++
            (unpackNine second buf voc c).cws ++ voc.flatMap VocAnswer.pcm }) := by
  cases second <;> rfl

/-- The half-frame tracking and the MI step of UNPACK (43_frame_packer.md R200, R201). -/
theorem finishUnpack_eq (keys : KeyStore) (second : Bool) (c : Channel) :
    c.finishUnpack keys (lduFrame second) =
      (if second = true ∧ c.frameErr = false then { c with p25n := 0 }.endSuperframe keys c.sEnc
        else { c with p25n := if second then 0 else 9 }, decide (second = true ∧ c.frameErr = false)) := by
  cases second with
  | false => rfl
  | true => cases herr : c.frameErr <;> simp [Channel.finishUnpack, lduFrame, herr]

/-- The frame-type codes of the two LDUs (30_encoding.md R82). -/
theorem lduCode_eq_one_iff (second : Bool) : (if second then 1 else 0 : Byte) = 1 ↔ second = true := by
  cases second <;> decide

/-- The nine codewords write the error registers and `CURSOR` (43_frame_packer.md R197, R199). -/
theorem unpackNine_chan {second : Bool} {buf : List Byte} {voc : List VocAnswer} {c : Channel}
    (h9 : voc.length = 9) :
    (unpackNine second buf voc c).chan = { c with
      frameErr := (second && c.frameErr) || decide ((unpackNine second buf voc c).mask ≠ 0)
      imbeErrs := c.imbeErrs + (voc.map VocAnswer.errs).sum
      cursor := c.cursor + (if decrypts c = true then 9 else 0) } := by
  have hchan := (unpackNine_unpacked second buf c h9).chan
  rwa [List.take_of_length_le (Nat.le_of_eq h9)] at hchan

/-- Settles O46, from what the nine codewords leave (`unpackNine_unpacked`) and the MI step (`finishUnpack_eq`). -/
theorem unpackExtractsCodewords : Obligations.UnpackExtractsCodewords := by
  intro ch ft f buf voc s c hc hinv hft hwf hf
  have h9 : voc.length = 9 := by
    simp only [Instr.wf, Bool.and_eq_true, beq_iff_eq] at hwf
    obtain ⟨⟨-, hvoc⟩, -⟩ := hwf
    exact hvoc
  obtain ⟨second, rfl⟩ : ∃ second : Bool, ft = if second then 1 else 0 := by
    have hbyte : ft = 0 ∨ ft = 1 := by bv_omega
    rcases hbyte with rfl | rfl
    · exact ⟨false, rfl⟩
    · exact ⟨true, rfl⟩
  have hu := unpackNine_unpacked second buf c h9
  have hchan := unpackNine_chan (second := second) (buf := buf) (c := c) h9
  refine ⟨((unpackNine second buf voc c).chan.finishUnpack s.keys (lduFrame second)).1,
    (unpackNine second buf voc c).mask, (unpackNine second buf voc c).cws, (unpackNine second buf voc c).chan.frameErr,
    { (unpackNine second buf voc c).chan with p25n := if second then 0 else 9 }, ?answer, hu.cws_length, ?codewords,
    ?mask, ?err, ?base, ?cycle⟩
  case answer =>
    rw [exec_unpack second buf voc hc hf, unpackAll_eq, finishUnpack_eq]
    simp only [decide_eq_true_eq, lduCode_eq_one_iff]
    rfl
  case codewords =>
    intro k i hk hi
    simp only [← decrypts_iff]
    rw [hu.cws_bytes k i hk hi]
    cases second <;> rfl
  case mask =>
    intro k
    have hlt : (∃ x ∈ voc[k]?, x.errs ≠ 0) → k < 9 := fun ⟨_, hx, _⟩ => h9 ▸ (List.getElem?_eq_some_iff.1 hx).1
    rw [hu.mask_bits k, decide_eq_decide]
    exact ⟨And.right, fun h => ⟨hlt h, h⟩⟩
  case err =>
    rw [hchan]
    cases second <;> rfl
  case base =>
    simp only [← decrypts_iff]
    rw [hchan]
    cases second <;> rfl
  case cycle =>
    rw [finishUnpack_eq]
    simp only [lduCode_eq_one_iff]
    refine ite_congr rfl (fun ⟨hsecond, _⟩ => ?_) fun _ => rfl
    subst hsecond
    rw [hchan]
    rfl

/-! ### Nine PACKs (43_frame_packer.md R193, R194) -/

theorem execAll_append {is js : List Instr} {s t : State} (h : execAll is s = .next t) :
    execAll (is ++ js) s = execAll js t := by
  induction is generalizing s with
  | nil =>
    cases h
    rfl
  | cons i is ih =>
    rw [execAll] at h
    rw [List.cons_append, execAll]
    split at h
    case h_1 hi => exact ih h
    case h_2 => cases h
    case h_3 => cases h

theorem execAll_singleton {i : Instr} {s t : State} (h : exec i s = .next t) : execAll [i] s = .next t := by
  rw [execAll, h]
  rfl

/-- The field of the codeword just placed. -/
theorem packed_field_self {c : Channel} (h : c.Inv) {cw : List Byte} (hl : cw.length = 11) :
    (lduBuffer c.inLdu2 (packed cw c)).readBytes (lduOff (c.p25n.toNat % 9)) 11 =
      cryptIf (encrypts c) c (lduFrame c.inLdu2) (c.p25n.toNat % 9) cw := by
  have hread := Memory.readBytes_writeBytes (lduOff (c.p25n.toNat % 9))
    (cryptIf (encrypts c) c (lduFrame c.inLdu2) (c.p25n.toNat % 9) cw) (clearedBuffer_wf h)
  rw [cryptIf_length _ _ _ _ hl] at hread
  rw [packed_selected h]
  exact hread

/-- The fields of the codewords placed before it. -/
theorem packed_field_before {c : Channel} (h : c.Inv) {cw : List Byte} (hl : cw.length = 11) {k : Nat}
    (hk : k < c.p25n.toNat % 9) :
    (lduBuffer c.inLdu2 (packed cw c)).readBytes (lduOff k) 11 = (lduBuffer c.inLdu2 c).readBytes (lduOff k) 11 := by
  have hfields := codewordFields_disjoint (j := k) (k := c.p25n.toNat % 9) (by omega) (by omega) (Nat.ne_of_lt hk)
  rw [packed_selected h, readBytes_writeBytes_disjoint (clearedBuffer_wf h) (by rwa [cryptIf_length _ _ _ _ hl]),
    clearedBuffer, if_neg (by omega)]

/-- What no PACK before the end of a superframe writes: all but the position, the buffers and `CURSOR`. -/
def packKept (c : Channel) : Channel := { c with p25n := 0, ldu1 := Memory.clear, ldu2 := Memory.clear, cursor := 0 }

/-- A channel after the first `n` PACKs of the codewords `cws` into one LDU buffer, from the channel `c`. -/
structure PackRun (c : Channel) (second : Bool) (cws : List (List Byte)) (n : Nat) (d : Channel) : Prop where
  inv : d.Inv
  position : d.p25n.toNat = (if second then 9 else 0) + n
  kept : packKept d = packKept c
  /-- Each field so far holds its codeword. -/
  fields : ∀ k < n, (lduBuffer second d).readBytes (lduOff k) 11 =
    cryptIf (encrypts c) c (lduFrame second) k (cws.getD k [])

section
variable {c d : Channel} {second : Bool} {cws : List (List Byte)} {n : Nat}

theorem PackRun.inLdu2 (h : PackRun c second cws n d) (hn : n < 9) : d.inLdu2 = second := by
  have hpos := h.position
  cases second
  · exact inLdu2_of_lt (by simpa [hpos] using hn)
  · exact inLdu2_of_ge (by simp [hpos])

theorem PackRun.index (h : PackRun c second cws n d) (hn : n < 9) : d.p25n.toNat % 9 = n := by
  rw [h.position]
  cases second
  · simpa using hn
  · simpa using hn

theorem PackRun.encrypts_eq (h : PackRun c second cws n d) : encrypts d = encrypts c := (congrArg encrypts h.kept :)

theorem PackRun.packStatus_eq (h : PackRun c second cws n d) : d.packStatus = c.packStatus :=
  (congrArg Channel.packStatus h.kept :)

theorem PackRun.seqNo_eq (h : PackRun c second cws n d) : d.seqNo = c.seqNo := (congrArg Channel.seqNo h.kept :)

theorem PackRun.cryptIf_eq (h : PackRun c second cws n d) (xor : Bool) (ft : FrameType) (k : Nat) (cw : List Byte) :
    cryptIf xor d ft k cw = cryptIf xor c ft k cw :=
  (congrArg (cryptIf xor · ft k cw) h.kept :)

/-- The next PACK adds its codeword to those in the buffer. -/
theorem PackRun.packed_fields (h : PackRun c second cws n d) (hn : n < 9) {cw : List Byte} (hcw : cws[n]? = some cw)
    (hl : cw.length = 11) (k : Nat) (hk : k < n + 1) :
    (lduBuffer second (packed cw d)).readBytes (lduOff k) 11 =
      cryptIf (encrypts c) c (lduFrame second) k (cws.getD k []) := by
  have hin := h.inLdu2 hn
  have hidx := h.index hn
  rcases Nat.lt_succ_iff_lt_or_eq.1 hk with hlt | rfl
  · have hbefore := packed_field_before h.inv hl (k := k) (by omega)
    rw [hin] at hbefore
    exact hbefore.trans (h.fields k hlt)
  · have hself := packed_field_self h.inv hl
    rw [hin, hidx, h.encrypts_eq, h.cryptIf_eq] at hself
    rw [hself, List.getD_eq_getElem?_getD, hcw, Option.getD_some]

/-- A PACK before the last one of the buffer. -/
theorem PackRun.step (h : PackRun c second cws n d) (hn : n < 8) (keys : KeyStore) {cw : List Byte}
    (hcw : cws[n]? = some cw) (hl : cw.length = 11) :
    PackRun c second cws (n + 1) ((packed cw d).finishPack keys d.packStatus).1 := by
  have hpos := h.position
  have hbase : (if second = true then 9 else 0) ≤ 9 := by cases second <;> decide
  have h17 : d.p25n.toNat ≠ 17 := by omega
  refine ⟨Channel.finishPack_inv _ _ (packed_inv h.inv hl), ?position, ?kept, ?fields⟩
  case position =>
    rw [Channel.finishPack_p25n, packed_p25n, hpos, Nat.add_assoc, Nat.mod_eq_of_lt (by omega)]
  case kept => exact (congrArg packKept (finishPack_packed_frame keys _ cw h17)).trans h.kept
  case fields =>
    intro k hk
    rw [← h.packed_fields (by omega) hcw hl k hk]
    cases second
    · exact congrArg (Memory.readBytes · _ _) (Channel.finishPack_ldu1 ..)
    · exact congrArg (Memory.readBytes · _ _) (Channel.finishPack_ldu2 ..)

/-- The last PACK of the buffer hands it over (43_frame_packer.md R194). -/
theorem PackRun.last_response (h : PackRun c second cws 8 d) (keys : KeyStore) (cw : List Byte) :
    ((packed cw d).finishPack keys d.packStatus).2 =
      { status := c.packStatus, events := if second then 0x22 else 0x01
        payload := (lduBuffer second (packed cw d)).readBytes 0 225 ++ tobe 4 c.seqNo.toNat } := by
  have hpos : (packed cw d).p25n.toNat = (if second = true then 9 else 0) + 8 := by rw [packed_p25n, h.position]
  rw [← h.packStatus_eq, ← h.seqNo_eq, ← packed_seqNo d cw]
  cases second
  · rw [Channel.finishPack_ldu1_end keys _ hpos]
    rfl
  · rw [Channel.finishPack_ldu2_end keys _ hpos]
    rfl

/-- Up to eight PACKs into one buffer, by induction on their number. -/
theorem packRun_of_le {ch : Byte} {f : Bool} {s : State} (hc : s.chans[ch.toNat]? = some c) (hinv : c.Inv)
    (hp : c.p25n = if second then 9 else 0) (hlen : cws.length = 9) (hcws : ∀ cw ∈ cws, cw.length = 11)
    (hf : f = true → c.packStatus = .ok) (hn : n ≤ 8) :
    ∃ (t : State) (d : Channel), execAll ((cws.take n).map fun cw => .pack ch f cw) s = .next t ∧
      t.chans[ch.toNat]? = some d ∧ PackRun c second cws n d := by
  induction n with
  | zero =>
    have hpos : c.p25n.toNat = (if second = true then 9 else 0) + 0 := by rw [hp]; cases second <;> rfl
    exact ⟨s, c, rfl, hc, hinv, hpos, rfl, fun k hk => absurd hk (Nat.not_lt_zero k)⟩
  | succ n ih =>
    obtain ⟨t, d, ht, hd, hrun⟩ := ih (by omega)
    have hlt : n < cws.length := by omega
    have hexec := exec_pack cws[n] hd (hrun.packStatus_eq ▸ hf)
    rw [List.take_succ_eq_append_getElem hlt, List.map_append, execAll_append ht]
    exact ⟨_, _, execAll_singleton hexec, State.answered_chan _ _ hd,
      hrun.step (by omega) t.keys (List.getElem?_eq_getElem hlt) (hcws _ (List.getElem_mem hlt))⟩

/-- Nine PACKs fill a buffer with their codewords, zero outside their fields, and hand it over. -/
theorem exec_nine_packs {ch : Byte} {f : Bool} {s : State} (hc : s.chans[ch.toNat]? = some c) (hinv : c.Inv)
    (hp : c.p25n = if second then 9 else 0) (hlen : cws.length = 9) (hcws : ∀ cw ∈ cws, cw.length = 11)
    (hf : f = true → c.packStatus = .ok) :
    ∃ (t : State) (m : Memory), execAll (cws.map fun cw => .pack ch f cw) s = .next t ∧
      t.resp = some { status := c.packStatus, events := if second then 0x22 else 0x01
                      payload := m.readBytes 0 225 ++ tobe 4 c.seqNo.toNat } ∧
      (∀ x ∈ m, InCodewordField x.1) ∧
      ∀ k < 9, m.readBytes (lduOff k) 11 = cryptIf (encrypts c) c (lduFrame second) k (cws.getD k []) := by
  obtain ⟨t, d, ht, hd, hrun⟩ := packRun_of_le hc hinv hp hlen hcws hf le_rfl
  have hlt : 8 < cws.length := by omega
  have hl : cws[8].length = 11 := hcws _ (List.getElem_mem hlt)
  have hexec := exec_pack cws[8] hd (hrun.packStatus_eq ▸ hf)
  have hall : execAll (cws.map fun cw => .pack ch f cw) s =
      .next (t.answered ch ((packed cws[8] d).finishPack t.keys d.packStatus).1
        ((packed cws[8] d).finishPack t.keys d.packStatus).2) := by
    have hsplit : cws = cws.take 8 ++ [cws[8]] := by
      rw [← List.take_succ_eq_append_getElem hlt, List.take_of_length_le (by omega)]
    rw [congrArg (List.map _) hsplit, List.map_append, execAll_append ht]
    exact execAll_singleton hexec
  exact ⟨_, lduBuffer second (packed cws[8] d), hall, congrArg some (hrun.last_response t.keys cws[8]),
    lduBuffer_fields (packed_inv hrun.inv hl) second,
    hrun.packed_fields (by decide) (List.getElem?_eq_getElem hlt) hl⟩

end

/-! ### The round trip (43_frame_packer.md R202) -/

/-- One codeword of UNPACK writes the error registers and `CURSOR` at most, whatever the vocoder answers. -/
theorem unpackOne_chan (second : Bool) (buf : List Byte) (voc : List VocAnswer) (u : UnpackState) {k : Nat}
    (hk : k < 9) :
    ∃ cursor imbe ferr, (unpackOne (lduFrame second) buf voc u k).chan =
      { u.chan with cursor := cursor, imbeErrs := imbe, frameErr := ferr } := by
  have hcrypt := unpackOne_crypt u.chan (lduFrame_phase second) buf hk (decrypts u.chan) rfl
  simp only [unpackOne, hcrypt]
  by_cases herrs : (voc.getD k { pcm := [], errs := 0 }).errs = 0
  · rw [if_pos herrs]
    exact ⟨_, _, _, rfl⟩
  · rw [if_neg herrs]
    exact ⟨_, _, _, rfl⟩

theorem unpackOne_cws (second : Bool) (buf : List Byte) (voc : List VocAnswer) (u : UnpackState) {k : Nat}
    (hk : k < 9) :
    (unpackOne (lduFrame second) buf voc u k).cws =
      u.cws ++ cryptIf (decrypts u.chan) u.chan (lduFrame second) k (lduCodeword buf k) := by
  have hcrypt := unpackOne_crypt u.chan (lduFrame_phase second) buf hk (decrypts u.chan) rfl
  simp only [unpackOne, hcrypt]
  rfl

/-- The codewords of UNPACK, whatever the vocoder answers. -/
theorem unpack_cws (second : Bool) (buf : List Byte) (voc : List VocAnswer) {ks : List Nat} (hks : ∀ k ∈ ks, k < 9)
    (u : UnpackState) :
    (ks.foldl (unpackOne (lduFrame second) buf voc) u).cws =
      u.cws ++ ks.flatMap fun k => cryptIf (decrypts u.chan) u.chan (lduFrame second) k (lduCodeword buf k) := by
  induction ks generalizing u with
  | nil => exact (List.append_nil _).symm
  | cons k ks ih =>
    have hk : k < 9 := hks k (List.mem_cons_self ..)
    obtain ⟨cursor, imbe, ferr, hchan⟩ := unpackOne_chan second buf voc u hk
    rw [List.foldl_cons, ih (fun j hj => hks j (List.mem_cons_of_mem _ hj)), hchan, unpackOne_cws second buf voc u hk,
      List.flatMap_cons, List.append_assoc]
    rfl

theorem unpackNine_cws (second : Bool) (buf : List Byte) (voc : List VocAnswer) (c : Channel) :
    (unpackNine second buf voc c).cws =
      (List.range 9).flatMap fun k => cryptIf (decrypts c) c (lduFrame second) k (lduCodeword buf k) :=
  unpack_cws second buf voc (fun _ => List.mem_range.1) _

theorem flatMap_getD_range (cws : List (List Byte)) :
    (List.range cws.length).flatMap (fun k => cws.getD k []) = cws.flatten := by
  rw [List.flatMap_def]
  congr 1
  exact List.ext_getElem (by simp) fun i _ hi => by simp [hi]

/-- UNPACK of a buffer whose fields hold the codewords as the other side sent them. -/
theorem unpackNine_cws_of_sent {c c' : Channel} {second : Bool} {cws : List (List Byte)} {m : Memory}
    (voc : List VocAnswer) (hlen : cws.length = 9) (hcws : ∀ cw ∈ cws, cw.length = 11)
    (hxor : encrypts c = decrypts c')
    (hsame : encrypts c = true → c.ctxAlg = c'.ctxAlg ∧ ∀ a, c.ks.read a = c'.ks.read a)
    (hfields : ∀ k < 9, m.readBytes (lduOff k) 11 = cryptIf (encrypts c) c (lduFrame second) k (cws.getD k [])) :
    (unpackNine second (m.readBytes 0 225) voc c').cws = cws.flatten := by
  rw [unpackNine_cws, ← flatMap_getD_range, hlen]
  refine List.flatMap_congr fun k hk => ?_
  have hk9 : k < 9 := List.mem_range.1 hk
  have hend := lduOff_in_record k hk9
  have hl : (cws.getD k []).length = 11 := by
    rw [List.getD_eq_getElem _ _ (by omega)]
    exact hcws _ (List.getElem_mem _)
  have hslice : lduCodeword (m.readBytes 0 225) k = m.readBytes (lduOff k) 11 :=
    slice_readBytes (n := 11) m (by omega)
  rw [hslice, hfields k hk9, ← hxor, cryptIf_cryptIf second k hl hsame]

theorem packStatus_of_clear {c : Channel} (h : c.txEnc = false) : c.packStatus = .ok := if_pos h

theorem rxStatus_of_clear {c : Channel} (h : c.sEnc = false) : c.rxStatus = .ok := if_pos h

theorem packStatus_of_prepared {c : Channel} (hst : c.ctxStatus = .ok) (hphase : c.ctxPhase = .phase1) :
    c.packStatus = .ok := by
  simp [Channel.packStatus, hst, hphase]

theorem rxStatus_of_prepared {c : Channel} (hst : c.ctxStatus = .ok) (hphase : c.ctxPhase = .phase1) :
    c.rxStatus = .ok := by
  simp [Channel.rxStatus, hst, hphase]

/-- Settles O47: the fields of the buffer that nine PACKs hand over hold the codewords as sent, and UNPACK undoes the
XOR of each. -/
theorem lduRoundTrip : Obligations.LduRoundTrip := by
  intro ch ch' f f' second cws voc s s' c c' hc hinv hc' hinv' hp hlen hcws hboth
  have hsides : c.packStatus = .ok ∧ c'.rxStatus = .ok ∧ encrypts c = decrypts c' ∧
      (encrypts c = true → c.ctxAlg = c'.ctxAlg ∧ ∀ a, c.ks.read a = c'.ks.read a) := by
    rcases hboth with ⟨htx, hrx⟩ | ⟨htx, hrx, hst, hst', hphase, hphase', halg, hks⟩
    · have henc : encrypts c = false := by rw [encrypts, htx, Bool.false_and]
      have hdec : decrypts c' = false := by rw [decrypts, hrx, Bool.false_and]
      exact ⟨packStatus_of_clear htx, rxStatus_of_clear hrx, henc.trans hdec.symm,
        fun h => absurd (henc.symm.trans h) (by decide)⟩
    · have hpack := packStatus_of_prepared hst hphase
      have hunpack := rxStatus_of_prepared hst' hphase'
      exact ⟨hpack, hunpack, ((encrypts_iff c).2 ⟨htx, hpack⟩).trans ((decrypts_iff c').2 ⟨hrx, hunpack⟩).symm,
        fun _ => ⟨halg, hks⟩⟩
  obtain ⟨hpack, hunpack, hxor, hsame⟩ := hsides
  obtain ⟨t, m, ht, hresp, hzero, hfields⟩ := exec_nine_packs hc hinv hp hlen hcws (f := f) fun _ => hpack
  have hexec := exec_unpack second (m.readBytes 0 225) voc hc' (f := f') fun _ => hunpack
  refine ⟨t, m.readBytes 0 225, ht, hpack ▸ hresp, Memory.readBytes_length .., ?zero, _, _,
    [c'.rxStatus.code] ++ tobe 2 (unpackNine second (m.readBytes 0 225) voc c').mask.toNat, voc.flatMap VocAnswer.pcm,
    hexec, State.answered_resp .., rfl, ?codewords⟩
  case zero =>
    intro a ha hfield
    rw [readBytes_getElem?_of_lt m 0 ha, Nat.zero_add, read_eq_zero_of_not_field hzero hfield]
  case codewords =>
    rw [unpackAll_eq, ← unpackNine_cws_of_sent voc hlen hcws hxor hsame hfields]

end Sys2Proof.Proofs
end

section
/-! The call tracker and channel control (44_call_tracker.md): the table of RXFRAME (R221 to R225, R229), ESYNC (R226,
R227), the commands that write one register (R230 to R232), CHRESET (R228, R233), RDSTAT (R234) and NOP (R236). -/

namespace Sys2Proof.Proofs

open Sys2Proof Sys2Proof.Machine

/-! ### The status block (44_call_tracker.md R234) -/

/-- A part of a concatenation is the slice that starts where the parts before it end. -/
theorem slice_flatten {parts : List (List Byte)} {k : Nat} {m : List Byte} (h : parts[k]? = some m) :
    slice parts.flatten ((parts.map List.length).take k).sum m.length = m := by
  obtain ⟨hk, rfl⟩ := List.getElem?_eq_some_iff.1 h
  have hsplit : parts.flatten = (parts.take k).flatten ++ parts[k] ++ (parts.drop (k + 1)).flatten := by
    conv_lhs => rw [← List.take_append_drop k parts, List.drop_eq_getElem_cons hk]
    rw [List.flatten_append, List.flatten_cons, List.append_assoc]
  rw [hsplit]
  exact slice_field (by rw [List.length_flatten, List.map_take]) rfl

/-- The fields of the status block in the order of R234, each as its bytes. -/
def statusFields (c : Channel) : List (List Byte) :=
  [[c.ctxStatus.code], [c.ctxAlg], tobe 2 c.ctxKeyId.toNat, [c.ctxPhase.code], c.ctxMi, tobe 2 c.ksLen.toNat,
    tobe 4 c.cursor.toNat, [c.p25n], tobe 4 c.seqNo.toNat, [c.flagsByte], tobe 4 c.sSrc.toNat, tobe 4 c.sDst.toNat,
    tobe 4 c.sStream.toNat, tobe 8 c.sStart.toNat, tobe 8 c.sDuration.toNat, [c.sFType], tobe 4 c.rxStream.toNat,
    [c.rxFType], tobe 8 c.rxTime.toNat, tobe 4 c.imbeErrs.toNat]

/-- The lengths of the fields; the offsets of R234 are their partial sums. -/
def statusLengths : List Nat := [1, 1, 2, 1, 9, 2, 4, 1, 4, 1, 4, 4, 4, 8, 8, 1, 4, 1, 8, 4]

theorem statusBlock_eq_flatten (c : Channel) : c.statusBlock = (statusFields c).flatten := by
  simp [Channel.statusBlock, statusFields]

theorem statusFields_lengths {c : Channel} (hmi : c.ctxMi.length = 9) :
    (statusFields c).map List.length = statusLengths := by
  simp [statusFields, statusLengths, hmi]

theorem statusBlock_length {c : Channel} (hmi : c.ctxMi.length = 9) : c.statusBlock.length = 72 := by
  rw [statusBlock_eq_flatten, List.length_flatten, statusFields_lengths hmi]
  rfl

/-- Field `k` of the block stands at its offset. -/
theorem slice_statusBlock {c : Channel} (hmi : c.ctxMi.length = 9) {k : Nat} {m : List Byte}
    (h : (statusFields c)[k]? = some m) :
    slice c.statusBlock (statusLengths.take k).sum (statusLengths.getD k 0) = m := by
  have hlen : statusLengths.getD k 0 = m.length := by
    rw [← statusFields_lengths hmi, List.getD_eq_getElem?_getD, List.getElem?_map, h]
    rfl
  rw [hlen, ← statusFields_lengths hmi, statusBlock_eq_flatten]
  exact slice_flatten h

theorem getElem_bitAt (k : Nat) (f : Bool) {i : Nat} (hi : i < 8) : (bitAt k f)[i] = (f && decide (i = k)) := by
  cases f with
  | false => simp [bitAt]
  | true =>
    simp only [bitAt, if_true, BitVec.getElem_shiftLeft, BitVec.getElem_one, Bool.true_and, ← decide_not,
      ← Bool.decide_and, decide_eq_decide]
    omega

/-- The flags byte bit by bit; its bits 6 and 7 are zero. -/
theorem flagsByte_getLsbD (c : Channel) :
    c.flagsByte.getLsbD 0 = decide (c.callState = .receiving) ∧ c.flagsByte.getLsbD 1 = c.sEnc ∧
      c.flagsByte.getLsbD 2 = c.sEmerg ∧ c.flagsByte.getLsbD 3 = c.frameErr ∧ c.flagsByte.getLsbD 4 = c.selected ∧
      c.flagsByte.getLsbD 5 = c.txEnc ∧ c.flagsByte.getLsbD 6 = false ∧ c.flagsByte.getLsbD 7 = false := by
  simp [Channel.flagsByte, getElem_bitAt, beq_eq_decide]

theorem statusBlock_reset : Channel.reset.statusBlock = 0x05 :: List.replicate 71 0 := rfl

/-- RDSTAT answers the block and writes the channel back as it was. -/
theorem exec_rdstat {ch : Byte} {s : State} {c : Channel} (hc : s.chans[ch.toNat]? = some c) :
    exec (.rdstat ch) s = .next { s with resp := some { status := .ok, events := 0, payload := c.statusBlock } } :=
  congrArg Host.Outcome.next ((State.onChannel_of_some _ hc).trans (State.answered_same _ hc))

/-- Settles O57: each field of the block at its offset, the flags byte bit by bit. -/
theorem rdstatAnswersBlock : Obligations.RdstatAnswersBlock := by
  refine ⟨fun ch a b rest voc => decode_of_payload (p := []) rfl rfl, fun ch s c hc hmi => ?_⟩
  have field {k : Nat} {m : List Byte} (h : (statusFields c)[k]? = some m) := slice_statusBlock hmi h
  refine ⟨c.statusBlock, exec_rdstat hc, statusBlock_length hmi, field (k := 0) rfl, field (k := 1) rfl,
    field (k := 2) rfl, field (k := 3) rfl, field (k := 4) rfl, field (k := 5) rfl, field (k := 6) rfl,
    field (k := 7) rfl, field (k := 8) rfl, fun flags hflags => ?_, field (k := 10) rfl, field (k := 11) rfl,
    field (k := 12) rfl, field (k := 13) rfl, field (k := 14) rfl, field (k := 15) rfl, field (k := 16) rfl,
    field (k := 17) rfl, field (k := 18) rfl, field (k := 19) rfl, ?_⟩
  · obtain rfl : flags = c.flagsByte := List.singleton_inj.1 (hflags.symm.trans (field (k := 9) rfl))
    exact flagsByte_getLsbD c
  · rintro rfl
    exact statusBlock_reset

/-! ### The transition table of RXFRAME (44_call_tracker.md R221, R225) -/

section Rows

variable {c : Channel} {duid : Byte} (e : Bool) {streamId : U32} (srcId dstId : U32) (time : U64)

theorem rxFrame_ignored (hsel : c.selected = false) (hidle : c.callState = .idle) :
    c.rxFrame duid e streamId srcId dstId time = c.fail .ignored :=
  if_pos ⟨hsel, hidle⟩

theorem not_ignored_of_heard (hheard : c.selected = true ∨ c.callState = .receiving) :
    ¬ (c.selected = false ∧ c.callState = .idle) := by
  rintro ⟨hsel, hidle⟩
  simp [hsel, hidle] at hheard

/-- A new stream starts a call in either state. -/
theorem rxFrame_callStart (hheard : c.selected = true ∨ c.callState = .receiving) (hnew : streamId ≠ c.rxStream)
    (hterm : isTerminator duid = false) :
    c.rxFrame duid e streamId srcId dstId time =
      ((c.callStart duid e streamId srcId dstId time).slotStatus duid streamId time,
        { status := .ok, events := evCallStart, payload := [] }) := by
  rw [Channel.rxFrame, if_neg (not_ignored_of_heard hheard), if_pos ⟨hnew, hterm⟩]

/-- A terminator ends the call whatever its stream. -/
theorem rxFrame_callEnd (hrecv : c.callState = .receiving) (hterm : isTerminator duid = true) :
    c.rxFrame duid e streamId srcId dstId time =
      ((c.callEnd time).slotStatus duid streamId time,
        { status := .ok, events := evCallEnd, payload := tobe 8 (time - c.sStart).toNat }) := by
  rw [Channel.rxFrame, if_neg (not_ignored_of_heard (.inr hrecv)), if_neg (by simp [hterm]), if_pos ⟨hterm, hrecv⟩,
    Channel.callEnd_sDuration]

/-- A frame that neither starts a call nor ends one writes the slot status alone. -/
theorem rxFrame_slotStatus (hheard : c.selected = true ∨ c.callState = .receiving)
    (hstart : streamId = c.rxStream ∨ isTerminator duid = true)
    (hend : isTerminator duid = false ∨ c.callState = .idle) :
    c.rxFrame duid e streamId srcId dstId time = (c.slotStatus duid streamId time).done := by
  rw [Channel.rxFrame, if_neg (not_ignored_of_heard hheard), if_neg, if_neg]
  · rintro ⟨hterm, hrecv⟩
    simp [hterm, hrecv] at hend
  · rintro ⟨hnew, hterm⟩
    simp [hnew, hterm] at hstart

end Rows

/-- RXFRAME on a channel that exists. -/
theorem exec_rxframe {ch duid : Byte} {e : Bool} {streamId srcId dstId : U32} {time : U64} {s : State}
    {c c' : Channel} {r : Response} (hc : s.chans[ch.toNat]? = some c)
    (hrx : c.rxFrame duid e streamId srcId dstId time = (c', r)) :
    exec (.rxframe ch duid e streamId srcId dstId time) s = .next (s.answered ch c' r) := by
  refine congrArg Host.Outcome.next ((State.onChannel_of_some _ hc).trans ?_)
  rw [hrx]

/-- Settles O50, row by row. -/
theorem rxframeTransitions : Obligations.RxframeTransitions := by
  intro ch duid e streamId srcId dstId time s c hc term isNew run
  refine ⟨?ignored, ?callStart, ?callEnd, ?slotStatus⟩
  case ignored =>
    rintro ⟨hsel, hidle⟩
    exact (exec_rxframe hc (rxFrame_ignored e srcId dstId time hsel hidle)).trans
      (congrArg Host.Outcome.next (State.answered_same _ hc))
  case callStart =>
    rintro ⟨hheard, hnew, hterm⟩
    exact exec_rxframe hc (rxFrame_callStart e srcId dstId time hheard (bne_iff_ne.1 hnew) hterm)
  case callEnd =>
    rintro ⟨hrecv, hterm⟩
    exact exec_rxframe hc (rxFrame_callEnd e srcId dstId time hrecv hterm)
  case slotStatus =>
    have heq : isNew = false → streamId = c.rxStream := fun h => by simpa [isNew] using h
    rintro (⟨hrecv, hold, hterm⟩ | ⟨hsel, hidle, hcase⟩)
    · exact exec_rxframe hc (rxFrame_slotStatus e srcId dstId time (.inr hrecv) (.inl (heq hold)) (.inl hterm))
    · exact exec_rxframe hc (rxFrame_slotStatus e srcId dstId time (.inl hsel) (hcase.imp_left heq) (.inr hidle))

/-- What the next frame on the channel finds: the response, and the channel as this frame left it. -/
theorem exec_rxframe_next {ch duid : Byte} {e : Bool} {streamId srcId dstId : U32} {time : U64} {s : State}
    {c c' : Channel} {r : Response} (hc : s.chans[ch.toNat]? = some c)
    (hrx : c.rxFrame duid e streamId srcId dstId time = (c', r)) :
    ∃ t, exec (.rxframe ch duid e streamId srcId dstId time) s = .next t ∧ t.resp = some r ∧
      t.chans[ch.toNat]? = some c' :=
  ⟨_, exec_rxframe hc hrx, State.answered_resp .., State.answered_chan _ _ hc⟩

/-- Settles O51: each sequence is a walk through the table (R225). -/
theorem sessionBoundaries : Obligations.SessionBoundaries := by
  intro ch e e' e'' s1 s2 src dst t1 t2 t3 t4 s c hc hsel hrx hs1 hs2
  have hnew : s1 ≠ c.rxStream := hrx ▸ hs1
  obtain ⟨u, hu, hur, huc⟩ :=
    exec_rxframe_next hc (rxFrame_callStart (duid := 0x05) e src dst t1 (.inl hsel) hnew rfl)
  constructor
  · obtain ⟨v, hv, hvr, hvc⟩ :=
      exec_rxframe_next huc (rxFrame_slotStatus (duid := 0x0A) e' src dst t2 (.inr rfl) (.inl rfl) (.inl rfl))
    obtain ⟨w, hw, hwr, hwc⟩ :=
      exec_rxframe_next hvc (rxFrame_callStart (duid := 0x05) e'' src dst t3 (.inr rfl) hs2 rfl)
    exact ⟨u, v, w, _, hu, hv, hw, hur, hvr, hwr, hwc, rfl, rfl, rfl⟩
  · obtain ⟨v, hv, hvr, hvc⟩ :=
      exec_rxframe_next huc (rxFrame_callEnd (streamId := s1) (duid := 0x03) e' src dst t4 rfl rfl)
    exact ⟨u, v, _, hu, hv, hur, hvr, hvc, rfl, rfl, rfl⟩

/-! ### ESYNC (44_call_tracker.md R226, R227) -/

theorem syncEncrypted_iff (alg : Byte) (keyId : U16) : syncEncrypted alg keyId = true ↔ alg ≠ 0 ∧ keyId ≠ 0 := by
  simp [syncEncrypted]

/-- Settles O52: a legal phase byte passes the check, and the two cases are those of `syncEncrypted`. -/
theorem esyncClassifiesAndPrepares : Obligations.EsyncClassifiesAndPrepares := by
  intro ch alg keyId phase mi s c hc hphase
  constructor
  · intro henc
    refine ⟨_, rfl, rfl, congrArg Host.Outcome.next ((State.onChannel_of_some _ hc).trans ?_)⟩
    have hsync := (syncEncrypted_iff alg keyId).2 henc
    simp only [if_neg (Nat.not_le_of_lt hphase), hsync, if_true, phase_ofByte hphase]
  · intro hclear
    refine congrArg Host.Outcome.next ((State.onChannel_of_some _ hc).trans ?_)
    have hsync : syncEncrypted alg keyId = false := by
      rw [Bool.eq_false_iff, ne_eq, syncEncrypted_iff]
      tauto
    simp only [if_neg (Nat.not_le_of_lt hphase), hsync, Bool.false_eq_true, if_false, Channel.done, Response.done]

/-! ### The commands that answer `(OK, 0, empty)` (44_call_tracker.md R230 to R233, R236) -/

theorem toNat_append_byte {w : Nat} (x : BitVec w) (b : Byte) : (x ++ b).toNat = x.toNat * 256 + b.toNat := by
  rw [BitVec.toNat_append, ← Nat.shiftLeft_add_eq_or_of_lt b.isLt, Nat.shiftLeft_eq]

/-- The value of four bytes, most significant first. -/
theorem ofNat_be_four (q0 q1 q2 q3 : Byte) : BitVec.ofNat 32 (be [q0, q1, q2, q3]) = q0 ++ q1 ++ q2 ++ q3 := by
  have hval : (q0 ++ q1 ++ q2 ++ q3).toNat = be [q0, q1, q2, q3] := by
    simp only [toNat_append_byte, be, List.length_cons, List.length_nil]
    omega
  rw [← hval, BitVec.ofNat_toNat, BitVec.setWidth_eq]

theorem onChannel_done {s : State} {ch : Byte} {c : Channel} (f : Channel → Channel)
    (hc : s.chans[ch.toNat]? = some c) :
    s.onChannel ch (fun c => (f c).done) = s.answered ch (f c) { status := .ok, events := 0, payload := [] } :=
  State.onChannel_of_some _ hc

/-- Settles O53. -/
theorem selectWritesSelected : Obligations.SelectWritesSelected := by
  refine ⟨fun ch a b rest voc => decode_of_payload (p := []) rfl rfl, fun ch value s => ⟨fun c hc => ?_, ?_⟩⟩
  · exact congrArg Host.Outcome.next (onChannel_done ({ · with selected := value }) hc)
  · exact badChannelAnswered (.select ch value) ch s rfl

/-- Settles O54. -/
theorem enccfgWritesTxenc : Obligations.EnccfgWritesTxenc := by
  refine ⟨fun ch a b rest voc => decode_of_payload (p := []) rfl rfl, fun ch value s => ⟨fun c hc => ?_, ?_⟩⟩
  · exact congrArg Host.Outcome.next (onChannel_done ({ · with txEnc := value }) hc)
  · exact badChannelAnswered (.enccfg ch value) ch s rfl

/-- Settles O55. -/
theorem wrseqWritesSeqno : Obligations.WrseqWritesSeqno := by
  refine ⟨fun ch a b q0 q1 q2 q3 rest voc => ?_, fun ch seqNo s => ⟨fun c hc => ?_, ?_⟩⟩
  · exact decode_of_payload (p := [q0, q1, q2, q3]) rfl
      (congrArg (fun n => some (Instr.wrseq ch n)) (ofNat_be_four q0 q1 q2 q3))
  · exact congrArg Host.Outcome.next (onChannel_done ({ · with seqNo := seqNo }) hc)
  · exact badChannelAnswered (.wrseq ch seqNo) ch s rfl

theorem exec_chreset {ch : Byte} {s : State} {c : Channel} (hc : s.chans[ch.toNat]? = some c) :
    exec (.chreset ch) s = .next (s.answered ch c.sessionReset { status := .ok, events := 0, payload := [] }) :=
  congrArg Host.Outcome.next (onChannel_done Channel.sessionReset hc)

theorem sessionReset_sessionReset (c : Channel) : c.sessionReset.sessionReset = c.sessionReset := rfl

/-- Settles O56: a second CHRESET finds the channel reset, and writes it back as it is. -/
theorem chresetResetsSession : Obligations.ChresetResetsSession := by
  refine ⟨fun ch a b rest voc => decode_of_payload (p := []) rfl rfl,
    fun ch s => badChannelAnswered (.chreset ch) ch s rfl, fun ch s c hc => ?_⟩
  refine ⟨_, exec_chreset hc, rfl, ?_, Memory.read_nil⟩
  have hct := State.answered_chan c.sessionReset { status := .ok, events := 0, payload := [] } hc
  rw [exec_chreset hct, sessionReset_sessionReset, State.answered_same _ hct]
  rfl

/-- Settles O25. -/
theorem nopOnlyAnswers : Obligations.NopOnlyAnswers :=
  ⟨fun _ _ _ _ _ => decode_of_payload (p := []) rfl rfl, fun _ => rfl⟩

end Sys2Proof.Proofs
end

section
/-! The tone classifier and the transmit path (45_tone.md): TONE (R262) and TXPCM (R263). -/

namespace Sys2Proof.Proofs

open Sys2Proof Sys2Proof.Machine

theorem payloadLen_tone (a : Byte) {pcm : List Byte} (h : pcm.length = pcmLen) (rest : List Byte) :
    payloadLen 0x08 a (pcm ++ rest) = some pcm.length :=
  congrArg some h.symm

theorem commandOf_tone (ch a b : Byte) {pcm : List Byte} (h : pcm.length = pcmLen) (voc : List Byte) :
    commandOf 0x08 ch a b pcm voc = some (.tone pcm) :=
  congrArg (fun m => some (Instr.tone m)) (slice_all h)

/-- Settles O48. -/
theorem toneAnswersClass : Obligations.ToneAnswersClass :=
  ⟨fun ch a b _ rest voc h => decode_of_payload (payloadLen_tone a h rest) (commandOf_tone ch a b h voc),
    fun _ _ => rfl⟩

/-- A detected tone takes the place of the vocoder's answer (45_tone.md R263). -/
theorem txCodeword_eq (pcm voc : List Byte) :
    txCodeword pcm voc = if Config.toneDetect pcm = 0 then voc
      else (Config.toneCodeword (Config.toneDetect pcm)).toList :=
  ite_not ..

/-- A detected tone raises TONE_SUBST (45_tone.md R263). -/
theorem txEvents_eq (pcm : List Byte) : txEvents pcm = if Config.toneDetect pcm = 0 then 0 else 0x40 :=
  ite_not ..

/-- TXPCM, whenever it does not fail closed: `PackOne` of the codeword chosen, as PACK runs it (`exec_pack`). -/
theorem exec_txpcm {ch : Byte} {f : Bool} (pcm voc : List Byte) {s : State} {c : Channel}
    (hc : s.chans[ch.toNat]? = some c) (hf : f = true → c.packStatus = .ok) :
    let x := (packed (txCodeword pcm voc) c).finishPack s.keys c.packStatus
    exec (.txpcm ch f pcm voc) s = .next (s.answered ch x.1
      { status := x.2.status
        events := x.2.events ||| txEvents pcm
        payload := tobe 2 (Config.toneDetect pcm).toNat ++ x.2.payload }) := by
  refine congrArg Host.Outcome.next ((State.onChannel_of_some _ hc).trans ?_)
  rw [packOne_eq s.keys (txCodeword pcm voc) hf]

/-- Settles O49: PACK and TXPCM run `PackOne` on the same codeword (`txCodeword_eq`), and TXPCM adds the tone's event
(`txEvents_eq`). -/
theorem txpcmPacksToneOrVocoder : Obligations.TxpcmPacksToneOrVocoder := by
  intro ch f pcm voc s c hc _ hf
  rw [← txCodeword_eq, ← txEvents_eq]
  exact ⟨_, _, exec_pack (txCodeword pcm voc) hc hf, exec_txpcm pcm voc hc hf⟩

end Sys2Proof.Proofs
end

section
/-! Statuses, events and failures (60_exceptions.md): every command answers (R280), with the codes of R281; the statuses
(R284) and the events (R290) each command can answer with; a command that fails closed (R287) writes nothing. -/

namespace Sys2Proof.Proofs

open Sys2Proof Sys2Proof.Machine

/-! ### The status codes (60_exceptions.md R281) -/

/-- The statuses in the order of their codes. -/
def statusTable : List Status :=
  [.ok, .unknownKey, .unsupportedAlgorithm, .vocoderDecodeError, .malformedFrame, .notPrepared, .badKeyLength,
    .badOperand, .ignored, .illegalCommand, .badChannel]

/-- The code of a status is its position in the table: so two statuses differ in their codes, and no code is past the
table's end. -/
theorem statusTable_code (x : Status) : statusTable[x.code.toNat]? = some x := by
  cases x <;> rfl

/-- Settles O20, by reading the status back from its code (`statusTable_code`). -/
theorem statusCodesDistinct : Obligations.StatusCodesDistinct := by
  refine ⟨rfl, fun x y hcode => ?_, fun x => ?_⟩
  · have hy := statusTable_code y
    rw [← hcode, statusTable_code x] at hy
    exact Option.some.inj hy
  · exact (List.getElem?_eq_some_iff.1 (statusTable_code x)).1

/-! ### The response of a command (60_exceptions.md R280, 30_encoding.md R87) -/

/-- A command of a channel answers BadChannel, or what its meaning on that channel answers. -/
theorem onChannel_resp (s : State) (ch : Byte) (f : Channel → Channel × Response) :
    (s.onChannel ch f).resp = some (Response.fail .badChannel) ∨
      ∃ c, s.chans[ch.toNat]? = some c ∧ (s.onChannel ch f).resp = some (f c).2 := by
  rcases s.onChannel_cases ch f with ⟨-, heq⟩ | ⟨c, hc, heq⟩
  · exact .inl (by rw [heq, State.fail_resp])
  · exact .inr ⟨c, hc, by rw [heq, State.answered_resp]⟩

/-- What holds of BadChannel and of every answer on the channel holds of the response of a command of that channel. -/
theorem response_of_onChannel {P : Response → Prop} {s t : State} {ch : Byte} {f : Channel → Channel × Response}
    {r : Response} (hs : (.next (s.onChannel ch f) : Host.Outcome State Fault Refusal) = .next t)
    (hr : t.resp = some r) (hbad : P (Response.fail .badChannel))
    (hf : ∀ c, s.chans[ch.toNat]? = some c → P (f c).2) : P r := by
  cases hs
  rcases onChannel_resp s ch f with hresp | ⟨c, hc, hresp⟩
  · cases hr.symm.trans hresp
    exact hbad
  · cases hr.symm.trans hresp
    exact hf c hc

/-- A failure answers its status and raises no event (00_scope.md R10). -/
@[simp] theorem fail_status (c : Channel) (st : Status) : (c.fail st).2.status = st := rfl

@[simp] theorem fail_events (c : Channel) (st : Status) : (c.fail st).2.events = 0 := rfl

/-- Every command completes with a response. -/
theorem exec_answers (i : Instr) (s : State) : ∃ t r, exec i s = .next t ∧ t.resp = some r := by
  cases hch : channelOf i with
  | none =>
    obtain ⟨g, hg⟩ := exec_of_no_channel hch
    exact ⟨_, _, hg s, rfl⟩
  | some ch =>
    obtain ⟨g, hg⟩ := exec_onChannel hch
    rcases onChannel_resp s ch (g s.keys) with hresp | ⟨c, -, hresp⟩
    · exact ⟨_, _, hg s, hresp⟩
    · exact ⟨_, _, hg s, hresp⟩

/-- Settles O10, by the three things a step can be (`step_cases`). -/
theorem everyCommandAnswers : Obligations.EveryCommandAnswers := by
  refine ⟨exec_answers, fun s => ?_⟩
  rcases step_cases s with ⟨i, rest, n, -, hs⟩ | ⟨rest, hs⟩ | hs
  · obtain ⟨t, -, ht, -⟩ := exec_answers i (s.advance rest n)
    exact ⟨t, hs.trans ht⟩
  · exact ⟨_, hs⟩
  · exact ⟨s, hs⟩

/-! ### Failing closed (60_exceptions.md R287) -/

theorem packOne_of_failClosed {c : Channel} (keys : KeyStore) (cw : List Byte) (hne : c.packStatus ≠ .ok) :
    c.packOne keys cw true = .error c.packStatus := by
  rcases c.packOne_cases keys cw true with ⟨-, -, -, heq⟩ | ⟨-, -, hok, -⟩ | ⟨hok, -, -⟩
  · exact heq
  · exact absurd hok hne
  · exact absurd (hok rfl) hne

/-- `PackOne` fails only closed, with the crypto status of its codeword. -/
theorem packOne_error {c : Channel} {keys : KeyStore} {cw : List Byte} {f : Bool} {st : Status}
    (h : c.packOne keys cw f = .error st) : st = c.packStatus := by
  rcases c.packOne_cases keys cw f with ⟨-, -, -, heq⟩ | ⟨-, -, -, heq⟩ | ⟨-, -, heq⟩
  · cases h.symm.trans heq
    rfl
  · cases h.symm.trans heq
  · cases h.symm.trans heq

/-- Where `PackOne` does not fail it places the codeword, under the same status. -/
theorem packOne_ok {c : Channel} {keys : KeyStore} {cw : List Byte} {f : Bool} {x : Channel × Response}
    (h : c.packOne keys cw f = .ok x) : x = (packed cw c).finishPack keys c.packStatus := by
  have hopen : f = true → c.packStatus = .ok := by
    rintro rfl
    by_contra hne
    cases h.symm.trans (packOne_of_failClosed keys cw hne)
  cases h.symm.trans (packOne_eq keys cw hopen)
  rfl

/-- A meaning that fails on the channel it finds writes nothing. -/
theorem onChannel_eq_fail {s : State} {ch : Byte} {c : Channel} {f : Channel → Channel × Response} {st : Status}
    (hc : s.chans[ch.toNat]? = some c) (hf : f c = c.fail st) :
    s.onChannel ch f = { s with resp := some { status := st, events := 0, payload := [] } } := by
  rw [State.onChannel_of_some f hc, hf]
  exact State.answered_same (Response.fail st) hc

/-- The LDU that UNPACK takes (43_frame_packer.md R197). -/
theorem unpackFrame_eq (ft : Byte) :
    (if ft = 0 then FrameType.ldu1 else .ldu2) = lduFrame (decide (ft ≠ 0)) := by
  by_cases hft : ft = 0 <;> simp [hft, lduFrame]

/-- Settles O44: each command fails on its channel before it writes, PACK and TXPCM as `PackOne` does. -/
theorem failClosedWritesNothing : Obligations.FailClosedWritesNothing := by
  intro ch s c hc _
  refine ⟨fun cw hne => ?pack, fun pcm voc hne => ?txpcm, fun ft buf voc hft hne => ?unpack⟩
  case pack =>
    refine congrArg Host.Outcome.next (onChannel_eq_fail hc ?_)
    rw [packOne_of_failClosed s.keys cw hne]
  case txpcm =>
    refine congrArg Host.Outcome.next (onChannel_eq_fail hc ?_)
    rw [packOne_of_failClosed s.keys (txCodeword pcm voc) hne]
  case unpack =>
    refine congrArg Host.Outcome.next (onChannel_eq_fail hc ?_)
    simp only [if_neg (Nat.not_le_of_lt hft), unpackFrame_eq, unpackStatus_eq, Bool.true_eq_false, if_false]
    exact if_pos ⟨hne, trivial⟩

/-! ### The statuses of the procedures (60_exceptions.md R284) -/

/-- What a `Prepare` can answer (40_keystream.md R113). -/
theorem prepareStatus_mem (keys : KeyStore) (alg : Byte) (keyId : U16) :
    prepareStatus keys alg keyId ∈ [.ok, .unknownKey, .unsupportedAlgorithm, .badKeyLength] := by
  rcases prepareStatus_cases keys alg keyId with ⟨-, -, hst⟩ | ⟨-, -, hst⟩ | ⟨-, r, -, -, hst⟩ | ⟨r, -, -, hst⟩ <;>
    simp [hst]

/-- The statuses of a crypto operation: OK, why the context has no keystream, or an operand the phase or the index
does not allow (42_crypto_processor.md R175). -/
def cryptStatuses : List Status :=
  [.ok, .unknownKey, .unsupportedAlgorithm, .notPrepared, .badKeyLength, .badOperand]

/-- The stored outcome of the last `Prepare` (10_state.md R25). -/
theorem ctxStatus_mem {c : Channel} (h : c.Inv) : c.ctxStatus ∈ cryptStatuses := by
  rcases h.status_len with ⟨hst, -⟩ | ⟨hst, -⟩ | ⟨hst | hst | hst | hst, -⟩ <;> simp [hst, cryptStatuses]

theorem cryptCheck_mem {c : Channel} (h : c.Inv) (ft : FrameType) (idx : Nat) : c.cryptCheck ft idx ∈ cryptStatuses := by
  unfold Channel.cryptCheck
  split_ifs
  · decide
  · exact ctxStatus_mem h
  · decide
  · decide

theorem crypt_status (c : Channel) (ft : FrameType) (idx : Nat) (cw : List Byte) :
    (c.crypt ft idx cw).1 = c.cryptCheck ft idx := by
  by_cases hok : c.cryptCheck ft idx = .ok
  · rw [Channel.crypt_of_ok cw hok, hok]
  · rw [Channel.crypt_of_not_ok cw hok]

theorem packStatus_mem {c : Channel} (h : c.Inv) : c.packStatus ∈ cryptStatuses := by
  cases htx : c.txEnc with
  | false =>
    rw [Channel.packStatus, if_pos htx]
    decide
  | true =>
    rw [← Channel.cryptCheck_pack htx]
    exact cryptCheck_mem h _ _

theorem rxStatus_mem {c : Channel} (h : c.Inv) : c.rxStatus ∈ cryptStatuses := by
  rw [← unpackStatus_eq c false, Channel.unpackStatus]
  split_ifs
  · exact cryptCheck_mem h _ _
  · decide

/-- Past its checks UNPACK answers its crypto status, or that the vocoder reported errors (43_frame_packer.md R197). -/
theorem unpackAll_status (keys : KeyStore) (ft : FrameType) (cs : Status) (buf : List Byte) (voc : List VocAnswer)
    (c : Channel) :
    (c.unpackAll keys ft cs buf voc).2.status = cs ∨
      (c.unpackAll keys ft cs buf voc).2.status = .vocoderDecodeError := by
  dsimp only [Channel.unpackAll]
  generalize (List.range 9).foldl _ _ = u
  split_ifs with hne hmask
  · exact .inl rfl
  · exact .inr rfl
  · exact .inl (not_not.1 hne).symm

theorem rxFrame_status (c : Channel) (duid : Byte) (e : Bool) (streamId srcId dstId : U32) (time : U64) :
    (c.rxFrame duid e streamId srcId dstId time).2.status ∈ [.ok, .ignored] := by
  unfold Channel.rxFrame
  split_ifs
  · exact .tail _ (.head _)
  · exact .head _
  · exact .head _
  · exact .head _

/-! ### The events of the procedures (60_exceptions.md R290) -/

/-- The hand-over of a buffer raises its event, that of the second the MI's too (43_frame_packer.md R194, R196). -/
theorem finishPack_events (c : Channel) (keys : KeyStore) (st : Status) :
    (c.finishPack keys st).2.events ∈ ([0, 0x01, 0x22] : List Byte) := by
  by_cases h8 : c.p25n.toNat = 8
  · rw [Channel.finishPack_ldu1_end keys st h8]
    exact .tail _ (.head _)
  by_cases h17 : c.p25n.toNat = 17
  · rw [Channel.finishPack_ldu2_end keys st h17]
    exact .tail _ (.tail _ (.head _))
  · rw [Channel.finishPack_inside keys st h8 h17]
    exact .head _

theorem txEvents_mem (pcm : List Byte) : txEvents pcm ∈ ([0, 0x40] : List Byte) := by
  rw [txEvents_eq]
  split_ifs <;> decide

/-- TONE_SUBST stands beside the events of PACK (45_tone.md R263). -/
theorem or_tone_mem : ∀ e ∈ ([0, 0x01, 0x22] : List Byte), ∀ x ∈ ([0, 0x40] : List Byte),
    e ||| x ∈ ([0, 0x01, 0x22, 0x40, 0x41, 0x62] : List Byte) := by
  decide

/-- Past its checks UNPACK gives PCM, and says whether it cycled the MI (43_frame_packer.md R197, R201). -/
theorem unpackAll_events (keys : KeyStore) (ft : FrameType) (cs : Status) (buf : List Byte) (voc : List VocAnswer)
    (c : Channel) : (c.unpackAll keys ft cs buf voc).2.events ∈ ([0x10, 0x30] : List Byte) := by
  dsimp only [Channel.unpackAll]
  split_ifs <;> decide

theorem rxFrame_events (c : Channel) (duid : Byte) (e : Bool) (streamId srcId dstId : U32) (time : U64) :
    (c.rxFrame duid e streamId srcId dstId time).2.events ∈ ([0, 0x04, 0x08] : List Byte) := by
  unfold Channel.rxFrame
  split_ifs
  · exact .head _
  · exact .tail _ (.head _)
  · exact .tail _ (.tail _ (.head _))
  · exact .head _

/-! ### The statements for all commands -/

/-- Settles O18: BadChannel (`response_of_onChannel`), or what the command's procedure answers on a channel that meets
the invariant. -/
theorem statusesOfEachCommand : Obligations.StatusesOfEachCommand := by
  intro i s t r hinv hs hr
  have chanInv {c : Channel} {k : Nat} (hc : s.chans[k]? = some c) : c.Inv := hinv.chan c (List.mem_of_getElem? hc)
  cases i <;> dsimp only
  case nop | addkey | expandiv | tone =>
    cases hs
    cases hr
    rfl
  case cyclemi | select | enccfg | wrseq | chreset | rdstat =>
    exact response_of_onChannel (P := (·.status ∈ _)) hs hr (by decide) fun _ _ => .head _
  case prepare ch alg keyId phase mi =>
    refine response_of_onChannel (P := (·.status ∈ _)) hs hr (by decide) fun c _ => ?_
    split_ifs
    · simp
    · exact List.mem_append_left [.badOperand, .badChannel] (prepareStatus_mem s.keys alg keyId)
  case esync ch alg keyId phase mi =>
    refine response_of_onChannel (P := (·.status ∈ _)) hs hr (by decide) fun c _ => ?_
    dsimp only
    split_ifs
    · simp
    · exact List.mem_append_left [.badOperand, .badChannel] (prepareStatus_mem s.keys alg keyId)
    · exact .head _
  case process ch ft idx cw =>
    refine response_of_onChannel (P := (·.status ∈ _)) hs hr (by decide) fun c hc => ?_
    split
    · simp
    · next ft' _ =>
      dsimp only
      rw [crypt_status]
      exact List.mem_append_left [.badChannel] (cryptCheck_mem (chanInv hc) ft' idx.toNat)
  case pack | txpcm =>
    refine response_of_onChannel (P := (·.status ∈ _)) hs hr (by decide) fun c hc => ?_
    have hmem := List.mem_append_left [.badChannel] (packStatus_mem (chanInv hc))
    split
    · next hfail =>
      rw [fail_status, packOne_error hfail]
      exact hmem
    · next x hpack =>
      change x.2.status ∈ _
      rw [packOne_ok hpack, Channel.finishPack_status]
      exact hmem
  case unpack ch ft v f buf voc =>
    refine response_of_onChannel (P := (·.status ∈ _)) hs hr (by decide) fun c hc => ?_
    have hsub : cryptStatuses ⊆ [.ok, .unknownKey, .unsupportedAlgorithm, .vocoderDecodeError, .malformedFrame,
        .notPrepared, .badKeyLength, .badOperand, .badChannel] := by decide
    have hmem := hsub (rxStatus_mem (chanInv hc))
    simp only [unpackFrame_eq, unpackStatus_eq]
    split_ifs
    · simp
    · simp
    · exact hmem
    · rcases unpackAll_status s.keys (lduFrame (decide (ft ≠ 0))) c.rxStatus buf voc c with hst | hst
      · rw [hst]
        exact hmem
      · rw [hst]
        decide
  case rxframe ch duid e streamId srcId dstId time =>
    have hsub : [Status.ok, .ignored] ⊆ [.ok, .ignored, .badChannel] := by decide
    exact response_of_onChannel (P := (·.status ∈ _)) hs hr (by decide) fun c _ => hsub (rxFrame_status ..)

/-- Settles O19: a failure raises no event, and each procedure those named above. -/
theorem eventsOfEachCommand : Obligations.EventsOfEachCommand := by
  intro i s t r hs hr
  cases i <;> dsimp only
  case nop | addkey | expandiv | tone =>
    cases hs
    cases hr
    rfl
  case select | enccfg | wrseq | chreset | rdstat =>
    exact response_of_onChannel (P := (·.events = 0)) hs hr rfl fun _ _ => rfl
  case cyclemi =>
    exact response_of_onChannel (P := fun r => r.events = 0x20 ∨ (r.events = 0 ∧ r.status = .badChannel)) hs hr
      (.inr ⟨rfl, rfl⟩) fun _ _ => .inl rfl
  case prepare | esync =>
    refine response_of_onChannel (P := (·.events = 0)) hs hr rfl fun c _ => ?_
    dsimp only
    split_ifs <;> rfl
  case process =>
    refine response_of_onChannel (P := (·.events = 0)) hs hr rfl fun c _ => ?_
    split <;> rfl
  case pack =>
    refine response_of_onChannel (P := (·.events ∈ _)) hs hr (by decide) fun c _ => ?_
    split
    · exact .head _
    · next hpack =>
      rw [packOne_ok hpack]
      exact finishPack_events ..
  case txpcm ch f pcm voc =>
    refine response_of_onChannel (P := (·.events ∈ _)) hs hr (by decide) fun c _ => ?_
    split
    · exact .head _
    · next hpack =>
      rw [packOne_ok hpack]
      exact or_tone_mem _ (finishPack_events ..) _ (txEvents_mem pcm)
  case unpack ch ft v f buf voc =>
    refine response_of_onChannel (P := (·.events ∈ _)) hs hr (by decide) fun c _ => ?_
    simp only [unpackFrame_eq, unpackStatus_eq]
    split_ifs
    · exact .head _
    · exact .head _
    · exact .head _
    · exact .tail _ (unpackAll_events ..)
  case rxframe => exact response_of_onChannel (P := (·.events ∈ _)) hs hr (by decide) fun c _ => rxFrame_events ..

end Sys2Proof.Proofs
end

section
/-! Reset and hazards (70_reset_and_hazards.md): the state right after reset (R311), what CORE does when used in it
(R313), and the keystream that CYCLEMI and ADDKEY leave as it was (R320, R321). -/

namespace Sys2Proof.Proofs

open Sys2Proof Sys2Proof.Machine

/-! ### What PROCESS reads (42_crypto_processor.md R171, R175) -/

/-- PROCESS on its channel (42_crypto_processor.md R177). -/
def processOn (ft idx : Byte) (cw : List Byte) (c : Channel) : Channel × Response :=
  match frameType ft with
  | none => c.fail .badOperand
  | some t => ((c.crypt t idx.toNat cw).2.1,
      { status := (c.crypt t idx.toNat cw).1, events := 0, payload := (c.crypt t idx.toNat cw).2.2 })

theorem exec_process_onChannel (ch ft idx : Byte) (cw : List Byte) (s : State) :
    exec (.process ch ft idx cw) s = .next (s.onChannel ch (processOn ft idx cw)) := rfl

/-- The check of `Crypt` reads the stored status and phase, its XOR the algorithm and the keystream: not the MI. -/
theorem processOn_cycleMi (ft idx : Byte) (cw : List Byte) (c : Channel) :
    (processOn ft idx cw c.cycleMi).2 = (processOn ft idx cw c).2 := by
  unfold processOn
  cases frameType ft with
  | none => rfl
  | some t =>
    have hcheck : c.cycleMi.cryptCheck t idx.toNat = c.cryptCheck t idx.toNat := rfl
    by_cases hok : c.cryptCheck t idx.toNat = .ok
    · simp only [Channel.crypt_of_ok cw hok, Channel.crypt_of_ok cw (hcheck.trans hok)]
      rfl
    · simp only [Channel.crypt_of_not_ok cw hok, Channel.crypt_of_not_ok cw (hcheck.trans_ne hok), hcheck]

/-! ### What CYCLEMI and ADDKEY leave as it was (70_reset_and_hazards.md R320, R321) -/

/-- After CYCLEMI a channel is as before, or its MI is cycled. -/
theorem exec_cyclemi_chans (ch : Byte) (s : State) :
    ∃ t, exec (.cyclemi ch) s = .next t ∧
      ∀ d : Nat, t.chans[d]? = s.chans[d]? ∨ ∃ c, s.chans[d]? = some c ∧ t.chans[d]? = some c.cycleMi := by
  refine ⟨_, rfl, fun d => ?_⟩
  rcases eq_or_ne d ch.toNat with rfl | hne
  · rcases s.onChannel_cases ch _ with ⟨-, heq⟩ | ⟨c, hc, heq⟩
    · exact .inl (by rw [heq, State.fail_chans])
    · exact .inr ⟨c, hc, by rw [heq, State.answered_chan _ _ hc]⟩
  · exact .inl (s.onChannel_other ch _ d hne)

/-- PROCESS answers alike on a channel and on that channel with its MI cycled. -/
theorem process_resp_of_cycled {s t : State} {ch : Byte} (ft idx : Byte) (cw : List Byte)
    (h : t.chans[ch.toNat]? = s.chans[ch.toNat]? ∨
      ∃ c, s.chans[ch.toNat]? = some c ∧ t.chans[ch.toNat]? = some c.cycleMi) :
    (t.onChannel ch (processOn ft idx cw)).resp = (s.onChannel ch (processOn ft idx cw)).resp := by
  rcases h with hsame | ⟨c, hc, hcycled⟩
  · exact (onChannel_congr _ hsame).1
  · rw [State.onChannel_of_some _ hc, State.onChannel_of_some _ hcycled, State.answered_resp, State.answered_resp,
      processOn_cycleMi]

/-- Settles O42: CYCLEMI writes nothing that PROCESS reads (`processOn_cycleMi`), and ADDKEY no channel. -/
theorem keystreamSurvivesCyclemiAndAddkey : Obligations.KeystreamSurvivesCyclemiAndAddkey := by
  intro ch ch' ft idx cw keyId alg key s
  obtain ⟨t1, hcyclemi, hchans⟩ := exec_cyclemi_chans ch' s
  refine ⟨t1, _, _, _, _, hcyclemi, rfl, exec_process_onChannel .., exec_process_onChannel ..,
    exec_process_onChannel .., process_resp_of_cycled ft idx cw (hchans ch.toNat),
    process_resp_of_cycled ft idx cw (.inl rfl)⟩

/-! ### The reset state (70_reset_and_hazards.md R311) -/

/-- Settles O11: every channel is `Channel.reset`, whose registers are compared one by one. -/
theorem resetState : Obligations.ResetState := by
  refine ⟨rfl, fun nch => ⟨fun _ => rfl, List.length_replicate, fun c hc => ?_⟩⟩
  obtain rfl : c = Channel.reset := List.eq_of_mem_replicate hc
  exact ⟨rfl, rfl, rfl, rfl, Memory.read_nil, rfl, rfl, rfl, rfl, rfl, Memory.read_nil, Memory.read_nil, rfl, rfl, rfl,
    rfl, rfl, rfl, rfl, rfl, rfl, rfl, rfl, rfl, rfl, rfl, rfl, rfl⟩

theorem resetWith_keys (nch : Nat) : (State.resetWith nch).keys = [] := rfl

theorem resetWith_chan {nch : Nat} {ch : Byte} (h : ch.toNat < nch) :
    (State.resetWith nch).chans[ch.toNat]? = some Channel.reset :=
  List.getElem?_replicate_of_lt h

/-- The zero register stays zero, since 64 clocks are linear (41_mi_lfsr.md R156). -/
theorem lfsr64_fst_zero : (lfsr64 0).1 = 0 := (lfsr64_fst_xor 0 0).trans BitVec.xor_self

/-- The zero MI is a fixed point of `Cycle` (41_mi_lfsr.md R151). -/
theorem cycleMi_reset : cycleMi Channel.reset.ctxMi = Channel.reset.ctxMi := by
  have hzero : miRegister Channel.reset.ctxMi = 0 := rfl
  rw [cycleMi, hzero, lfsr64_fst_zero]
  rfl

/-! ### The codewords of a received buffer (43_frame_packer.md R190) -/

/-- A list is the concatenation of its pieces of one length. -/
theorem flatMap_pieces {α : Type} (l : List α) (m n : Nat) :
    ((List.range n).flatMap fun k => (l.drop (m * k)).take m) = l.take (m * n) := by
  induction n with
  | zero => rfl
  | succ n ih => simp [List.range_succ, ih, Nat.mul_succ, List.take_add]

/-- Nine codewords that are the bytes of a buffer at the fixed offsets are the buffer's fields. -/
theorem eq_flatMap_fields {buf cws : List Byte} (hbuf : buf.length = 225) (hlen : cws.length = 99)
    (hbytes : ∀ k i, k < 9 → i < 11 → cws[11 * k + i]? = some (buf.getD (lduOff k + i) 0)) :
    cws = (List.range 9).flatMap fun k => (buf.drop (lduOff k)).take 11 := by
  rw [← List.take_of_length_le (Nat.le_of_eq hlen), ← flatMap_pieces cws 11 9]
  refine List.flatMap_congr fun k hk => List.ext_getElem? fun i => ?_
  have hk9 : k < 9 := List.mem_range.1 hk
  obtain ⟨hend, -, -⟩ := lduOff_in_record k hk9
  rcases Nat.lt_or_ge i 11 with hi | hi
  · have hlt : lduOff k + i < buf.length := by omega
    rw [List.getElem?_take_of_lt hi, List.getElem?_take_of_lt hi, List.getElem?_drop, List.getElem?_drop,
      hbytes k i hk9 hi, List.getElem?_eq_getElem hlt, List.getD_eq_getElem _ _ hlt]
  · rw [List.getElem?_take_eq_none hi, List.getElem?_take_eq_none hi]

/-! ### Commands on a channel right after reset (70_reset_and_hazards.md R313) -/

section ResetChannel

variable {s : State} {ch : Byte} (hc : s.chans[ch.toNat]? = some Channel.reset)

include hc

/-- The first PACK places the codeword, in clear, in the first field of a cleared buffer: what `packed` and `finishPack`
evaluate to on this channel. -/
theorem exec_pack_reset (cw : List Byte) :
    exec (.pack ch false cw) s = .next (s.answered ch
      { Channel.reset with p25n := 1, ldu1 := Memory.clear.writeBytes 10 cw }
      { status := .ok, events := 0, payload := [] }) :=
  exec_pack cw hc (fun h => nomatch h)

/-- The first UNPACK, from O46: the session is clear, so that the codewords come back as received and the MI step finds
the zero MI. -/
theorem exec_unpack_reset {ft : Byte} {f : Bool} {buf : List Byte} {voc : List VocAnswer} (hft : ft.toNat < 2)
    (hwf : (Instr.unpack ch ft true f buf voc).wf = true) :
    ∃ mask : U16, (∀ k, mask.getLsbD k = decide (∃ x ∈ voc[k]?, x.errs ≠ 0)) ∧
      exec (.unpack ch ft true f buf voc) s = .next (s.answered ch
        { Channel.reset with
          frameErr := decide (mask ≠ 0), imbeErrs := (voc.map VocAnswer.errs).sum, p25n := if ft = 0 then 9 else 0 }
        { status := if mask ≠ 0 then .vocoderDecodeError else .ok
          events := if ft = 1 ∧ mask = 0 then 0x30 else 0x10
          payload := 0x00 :: (tobe 2 mask.toNat ++
            ((List.range 9).flatMap fun k => (buf.drop (lduOff k)).take 11) ++ voc.flatMap VocAnswer.pcm) }) := by
  have hclear : Channel.reset.rxStatus = .ok := rxStatus_of_clear rfl
  have hbuf : buf.length = 225 := by
    simp only [Instr.wf, Bool.and_eq_true, beq_iff_eq] at hwf
    obtain ⟨⟨hbuf, -⟩, -⟩ := hwf
    exact hbuf
  obtain ⟨c', mask, cws, err, base, hexec, hlen, hbytes, hmask, herr, hbase, hc'⟩ :=
    unpackExtractsCodewords ch ft f buf voc s Channel.reset hc Channel.reset_inv hft hwf fun _ => hclear
  have hcws : cws = (List.range 9).flatMap fun k => (buf.drop (lduOff k)).take 11 :=
    eq_flatMap_fields hbuf hlen fun k i hk hi => (hbytes k i hk hi).trans (congrArg some BitVec.xor_zero)
  have herr' : err = decide (mask ≠ 0) := by rw [herr]; split_ifs <;> exact Bool.false_or _
  subst herr'
  have hkept : c' = base := by
    rw [hc', ite_eq_right_iff]
    intro _
    rw [if_neg (by decide), cycleMi_reset, hbase]
  have himbe : Channel.reset.imbeErrs + (voc.map VocAnswer.errs).sum = (voc.map VocAnswer.errs).sum :=
    BitVec.zero_add _
  refine ⟨mask, hmask, ?_⟩
  rw [hexec, hkept, hbase, himbe, hcws, hclear]
  simp only [decide_eq_false_iff_not, ne_eq, not_not]
  rfl

theorem exec_rxframe_reset (duid : Byte) (e : Bool) (streamId srcId dstId : U32) (time : U64) :
    exec (.rxframe ch duid e streamId srcId dstId time) s =
      .next { s with resp := some { status := .ignored, events := 0, payload := [] } } :=
  (exec_rxframe hc (rxFrame_ignored e srcId dstId time rfl rfl)).trans
    (congrArg Host.Outcome.next (State.answered_same _ hc))

theorem exec_cyclemi_reset :
    exec (.cyclemi ch) s = .next { s with
      resp := some { status := .ok, events := 0x20, payload := [0, 0, 0, 0, 0, 0, 0, 0, 0] } } := by
  have hsame : Channel.reset.cycleMi = Channel.reset :=
    congrArg (fun mi => { Channel.reset with ctxMi := mi }) cycleMi_reset
  rw [exec_cyclemi hc, hsame, cycleMi_reset, State.answered_same _ hc]
  rfl

end ResetChannel

/-- With no key stored `Prepare` fails for every key id, at the algorithm or at the key (40_keystream.md R113). -/
theorem prepareStatus_no_keys (alg : Byte) (keyId : U16) :
    prepareStatus [] alg keyId = if alg = 0xAA ∨ alg = 0x84 then .unknownKey else .unsupportedAlgorithm := by
  split_ifs with halg
  · exact prepareStatus_of_find_none halg rfl
  · obtain ⟨hadp, haes⟩ := not_or.1 halg
    exact prepareStatus_of_unsupported [] keyId hadp haes

/-! ### The use of CORE right after reset (70_reset_and_hazards.md R313) -/

/-- Settles O58, row by row on `Channel.reset`, the state of every channel. -/
theorem resetStateInUse : Obligations.ResetStateInUse := by
  intro nch ch hch
  have hc := resetWith_chan hch
  refine ⟨fun ft t idx cw hft hidx => ?process, fun cw hl => ?pack, fun ft f buf voc hft hwf => ?unpack, ?rxframe,
    exec_cyclemi_reset hc, fun alg keyId phase mi hphase => ?prepare, ?rdstat⟩
  case process =>
    exact processPassesThrough ch ft idx cw _ _ t .notPrepared hc hft (.inr (.inl ⟨hidx, by decide, rfl⟩))
  case pack =>
    refine ⟨_, fun a => ?_, exec_pack_reset hc cw⟩
    rw [Memory.read_writeBytes 10 cw a Memory.wf_clear, hl]
    rfl
  case unpack => exact exec_unpack_reset hc hft hwf
  case rxframe => exact exec_rxframe_reset hc
  case prepare =>
    refine ⟨_, (prepareCommandRunsPrepare ch alg keyId phase mi _ _ hc).1 hphase, ?_⟩
    rw [State.answered_resp, Channel.prepare_ctxStatus, resetWith_keys, prepareStatus_no_keys]
  case rdstat =>
    rw [← statusBlock_reset]
    exact exec_rdstat hc

end Sys2Proof.Proofs
end
